-- ==== Sys2Proof/Word.lean ====
section
/-! DEFINITION. The word type of the PREPACK engine: everything that crosses an interface of the engine is
one byte (spec 20_memory.md R66, 00_scope.md R8). -/

namespace Sys2Proof

/-- A byte, an integer in 0 to 255. `+`, `-` and `*` on it are the residue modulo 256 of the exact result:
"unsigned 8-bit values with modulo-256 wraparound ... no clamping" (R8, R133). -/
abbrev Byte := BitVec 8

/-- `x mod 256` of an integer that may be negative, as a byte: the unique residue of R8. The one signed
quantity of the engine, the shifted weight, enters byte arithmetic through it (R10, R143). -/
abbrev Byte.ofInt (x : Int) : Byte := BitVec.ofInt 8 x

end Sys2Proof
end

