-- ==== Sys2Proof/Config.lean ====
section
/-! DEFINITION. What is fixed for the machine and never changes while it runs: the constants of spec
00_scope.md R6, and the free values that stand for what the spec leaves unspecified (93_implementation_defined.md
U6, U7, U21) and for an intermediate state that the host cannot observe (00_scope.md R13). The platform's parameters that the spec leaves OPEN (R7) are plain data in
`Sys2Proof.Machine.Platform`. -/

namespace Sys2Proof.Config

/-- `NCAND`, the number of candidates (R6). -/
abbrev ncand : Nat := 15

/-- `BREAK`, the first index of the adaptive family (R6). -/
abbrev breakIndex : Nat := 10

/-- `NLANES`, the number of lane registers of each kind (R6). -/
abbrev nlanes : Nat := 8

/-- `NSYM`, the number of histogram counters of one candidate (R6). -/
abbrev nsym : Nat := 256

/-- `RATE`, the right shift applied to the weight before use: a constant, not state (R6, R26). -/
abbrev rate : Nat := 6

/-- `WMAX`, the saturation bound of the weight, both signs (R6). -/
abbrev wmax : Int := 1280

/-- `CENTRE`, the neutral residual value of the weight update (R6). -/
abbrev centre : Nat := 127

/-- `BLOCK`, the block size in bytes of every pass (R6). -/
abbrev block : Nat := 24576

/-- `STRIDE_BLOCKS`, the blocks the scan skips after a sampled block (R6). -/
abbrev strideBlocks : Nat := 24

/-- `SKIP`, the skip of the stride rule in bytes (R6). -/
abbrev skip : Nat := 589824

/-! Free values. None has a body: nothing in Lean can evaluate one or prove a value of it. The first argument is
the draw, the value of the counter `State.free` when the value is taken (log entry 5). -/

/-- `previous[lane]` after a hardware reset inside a run: "unspecified" (R280, U6). -/
opaque freePrevious (draw : Nat) (lane : Fin 8) : Byte

/-- `sample1[lane]` after a hardware reset inside a run (R280, U6). -/
opaque freeSample1 (draw : Nat) (lane : Fin 8) : Byte

/-- `sample2[lane]` after a hardware reset inside a run (R280, U6). -/
opaque freeSample2 (draw : Nat) (lane : Fin 8) : Byte

/-- `weight` after a hardware reset inside a run (R280, U6). -/
opaque freeWeight (draw : Nat) : Int

/-- `d` after a hardware reset inside a run (R280, U6). -/
opaque freeLane (draw : Nat) : Fin 8

/-- `hist[k][v]` after a hardware reset inside a run (R280, U6). -/
opaque freeCount (draw : Nat) (k : Fin 15) (v : Fin 256) : Nat

/-- `ipos` after a hardware reset inside a run (R280, U6). -/
opaque freeIpos (draw : Nat) : Nat

/-- `cand` after a hardware reset inside a run (R280, U6). -/
opaque freeCand (draw : Nat) : Fin 15

/-- What the host sees where it reads `OUT` at a position that is no part of the result, or before the command
has ended: "any value" (R62, U7, U21). -/
opaque freeOut (draw : Nat) : Byte

/-- What the host sees where it reads `SEL` while a command runs: "nothing outside the engine can observe an intermediate
state except through the `STATUS`, `OUT_LEN` and `SAMPLED` registers" (R13). -/
opaque freeSel (draw : Nat) : Byte

end Sys2Proof.Config
end

