-- ==== Sys2Proof/Syntax.lean ====
section
/-! DEFINITION. The encoded things of the engine, one constructor per row of spec/opcode_table.json: the 15
candidate methods that a header byte names (format `HDR`, spec 30_encoding.md R91, R92) and the two commands that
a byte written to host register `CMD` names (format `CMD`, R96). None has an operand field: channel count and
family are found by table lookup from the index (R91, R93). -/

namespace Sys2Proof

/-- The instructions of the engine. -/
inductive Instr where
  /-- `ID`, index 0, identity (R225). -/
  | id
  /-- `D1`, index 1, delta, 1 channel (R226). -/
  | d1
  /-- `D2`, index 2, delta, 2 channels (R227). -/
  | d2
  /-- `D3`, index 3, delta, 3 channels (R228). -/
  | d3
  /-- `D4`, index 4, delta, 4 channels (R229). -/
  | d4
  /-- `D5`, index 5, delta, 5 channels (R230). -/
  | d5
  /-- `D6`, index 6, delta, 6 channels (R231). -/
  | d6
  /-- `D7`, index 7, delta, 7 channels (R232). -/
  | d7
  /-- `D8`, index 8, delta, 8 channels (R233). -/
  | d8
  /-- `D1B`, index 9, delta, 1 channel, the duplicate (R234, R94). -/
  | d1b
  /-- `A2`, index 10, adaptive, 2 channels (R235). -/
  | a2
  /-- `A3`, index 11, adaptive, 3 channels (R236). -/
  | a3
  /-- `A4`, index 12, adaptive, 4 channels (R237). -/
  | a4
  /-- `A6`, index 13, adaptive, 6 channels (R238). -/
  | a6
  /-- `A8`, index 14, adaptive, 8 channels (R239). -/
  | a8
  /-- `ENCODE`, command 0x01 (R201). -/
  | encode
  /-- `DECODE`, command 0x02 (R203). -/
  | decode
deriving DecidableEq, Repr

/-- The two one-byte formats (R90): where a byte is interpreted says which one it has. -/
inductive Format where
  /-- Format `HDR`: the first byte of an encoded stream (R91). -/
  | hdr
  /-- Format `CMD`: the byte the host writes to register 0 (R96). -/
  | cmd
deriving DecidableEq, Repr

/-- The format an instruction is encoded in (R90). -/
def Instr.format : Instr → Format
  | .id => .hdr
  | .d1 => .hdr
  | .d2 => .hdr
  | .d3 => .hdr
  | .d4 => .hdr
  | .d5 => .hdr
  | .d6 => .hdr
  | .d7 => .hdr
  | .d8 => .hdr
  | .d1b => .hdr
  | .a2 => .hdr
  | .a3 => .hdr
  | .a4 => .hdr
  | .a6 => .hdr
  | .a8 => .hdr
  | .encode => .cmd
  | .decode => .cmd

end Sys2Proof
end

