-- ==== Sys2Proof/WellFormed.lean ====
section
/-! DEFINITION. The checks on what is decoded. No constructor of `Instr` has a field, so every term of `Instr` is
well formed; what can be ill formed is the byte that names one, and the format it is read in (spec 30_encoding.md
R91, R95, R96, R97). -/

namespace Sys2Proof

/-- R91: "a legal header has bits [7:4] equal to 0 and bits [3:0] not equal to 15". The values 15 to 255 are
reserved (R95). -/
def wellFormedHeader (h : Byte) : Bool :=
  h.extractLsb 7 4 == 0#4 && h.extractLsb 3 0 != 15#4

/-- R96, R97: the legal values of `OP` are 0x01 and 0x02. -/
def wellFormedCommand (op : Byte) : Bool := op == 0x01#8 || op == 0x02#8

/-- A byte is well formed in a format. -/
def wellFormedByte (f : Format) (b : Byte) : Bool :=
  match f with
  | .hdr => wellFormedHeader b
  | .cmd => wellFormedCommand b

/-- An instruction is well formed in the format it is read in when that is its own format (R90): no method is a
command and no command a header. -/
def wellFormed (f : Format) (i : Instr) : Bool := i.format == f

end Sys2Proof
end

