-- ==== Sys2Proof/Decode.lean ====
section
/-! DEFINITION. The two one-byte decoders of the engine and the encoder (spec 30_encoding.md). A decoder matches
the whole byte: `mask = 0xff` (R91, R96). It is total and rejects a reserved byte by name. -/

namespace Sys2Proof

/-- Why a byte names no instruction. -/
inductive DecodeError where
  /-- A header byte 15 to 255 (R95): `DECODE` raises `BadHeader` for it. -/
  | badHeader (h : Byte)
  /-- A command byte 0x00 or 0x03 to 0xff (R97): the write raises `UnknownMode`. -/
  | unknownMode (op : Byte)
deriving DecidableEq, Repr

/-- Format `HDR`: the candidate index is the whole byte (R91, R92). -/
def decodeHeader (h : Byte) : Except DecodeError Instr :=
  match h.toNat with
  | 0x00 => .ok .id
  | 0x01 => .ok .d1
  | 0x02 => .ok .d2
  | 0x03 => .ok .d3
  | 0x04 => .ok .d4
  | 0x05 => .ok .d5
  | 0x06 => .ok .d6
  | 0x07 => .ok .d7
  | 0x08 => .ok .d8
  | 0x09 => .ok .d1b
  | 0x0a => .ok .a2
  | 0x0b => .ok .a3
  | 0x0c => .ok .a4
  | 0x0d => .ok .a6
  | 0x0e => .ok .a8
  | _ => .error (.badHeader h)

/-- Format `CMD`: field `OP` is the whole byte (R96). -/
def decodeCommand (op : Byte) : Except DecodeError Instr :=
  match op.toNat with
  | 0x01 => .ok .encode
  | 0x02 => .ok .decode
  | _ => .error (.unknownMode op)

/-- The decoder: the place a byte stands in fixes its format (R90), and nothing else does. -/
def decode (f : Format) (b : Byte) : Except DecodeError Instr :=
  match f with
  | .hdr => decodeHeader b
  | .cmd => decodeCommand b

/-- The encoder: the one byte of an instruction, from the tables of R92 and R96. -/
def encode : Instr → Byte
  | .id => 0x00#8
  | .d1 => 0x01#8
  | .d2 => 0x02#8
  | .d3 => 0x03#8
  | .d4 => 0x04#8
  | .d5 => 0x05#8
  | .d6 => 0x06#8
  | .d7 => 0x07#8
  | .d8 => 0x08#8
  | .d1b => 0x09#8
  | .a2 => 0x0a#8
  | .a3 => 0x0b#8
  | .a4 => 0x0c#8
  | .a6 => 0x0d#8
  | .a8 => 0x0e#8
  | .encode => 0x01#8
  | .decode => 0x02#8

/-- The format in which the opcode table's word `w` is read when nothing says where it stands. The two formats
share the bytes 0x01 and 0x02; a legal command byte is read as a command, any other byte as a header (log entry
2: a machine just out of reset awaits a command). -/
def tableFormat (b : Byte) : Format := if wellFormedCommand b then .cmd else .hdr

/-- The instruction the decoder reads from a word of the opcode table: 8 bits, bit 0 the least significant
(R10, R90). -/
def decodeTableWord (nbits w : Nat) : Option Instr :=
  if nbits = 8 ∧ w < 256 then
    let b : Byte := BitVec.ofNat 8 w
    match decode (tableFormat b) b with
    | .ok i => some i
    | .error _ => none
  else none

end Sys2Proof
end

