-- ==== Sys2Proof/Machine/State.lean ====
section
/-! DEFINITION. The state of the engine as plain data: every register of spec 10_state.md, the two memory spaces of
20_memory.md, and the model's own fields (the place inside a pass, the host's pending accesses, the platform's
parameters). -/

namespace Sys2Proof.Machine

/-- `phase`, the sequencing register (R31). -/
inductive Phase where
  /-- 0 `IDLE`: after hardware reset, no command yet. -/
  | idle
  /-- 1 `SCAN`. -/
  | scan
  /-- 2 `SELECT`. -/
  | select
  /-- 3 `COMMIT`. -/
  | commit
  /-- 4 `DEC_HDR`. -/
  | decHdr
  /-- 5 `DEC_BODY`. -/
  | decBody
  /-- 6 `DONE`. -/
  | done
  /-- 7 `ERROR`. -/
  | error
deriving DecidableEq, Repr

/-- The error codes of R246. Codes 9 to 15 are reserved and never produced, so they have no constructor (log entry
9). -/
inductive ErrCode where
  /-- 0: no error. -/
  | none
  /-- 1: reserved for the external caller, never raised by the engine. -/
  | badArgCount
  /-- 2: reserved for the external caller, never raised by the engine. -/
  | inputUnopenable
  /-- 3: reserved for the external caller, never raised by the engine. -/
  | outputUnopenable
  /-- 4: `CMD` write of a reserved `OP` (R247). -/
  | unknownMode
  /-- 5: `RdFault` on a read of `IN` (R248). -/
  | readError
  /-- 6: `WrFault` on a write of `OUT` (R249). -/
  | writeError
  /-- 7: header byte 15 to 255 (R251). -/
  | badHeader
  /-- 8: `DECODE` with `IN_LEN = 0` (R252). -/
  | headerMissing
deriving DecidableEq, Repr

/-- The datapath registers: the three lane register files (R20 to R23), the one shared weight (R25, a mathematical
integer by R7), and the lane counter of the router (R27, 3 bits). -/
structure Datapath where
  /-- `previous[0..7]` (R21). -/
  previous : Vector Byte 8
  /-- `sample1[0..7]` (R22). -/
  sample1 : Vector Byte 8
  /-- `sample2[0..7]` (R23). -/
  sample2 : Vector Byte 8
  /-- `weight` (R25). -/
  weight : Int
  /-- `d` (R27). -/
  d : Fin 8
deriving DecidableEq, Repr

/-- `hist[k][v]`: 15 histograms of 256 unbounded counters (R28, R7). -/
abbrev Hist := Vector (Vector Nat 256) 15

/-- A byte space: pairs of a position and a byte in one canonical form, positions strictly rising and no byte
equal to 0, which is what an unlisted position reads as (log entry 4). -/
abbrev Memory := List Host.Cell

/-- When an access fails: one case of the predicate `RdFault(t, a)` or `WrFault(t, a)` of R64 and R65, with `t` the
number of accesses of its kind the command has issued before and `a` the position. -/
inductive FaultWhen where
  /-- The `t`-th access of the command, wherever it is. -/
  | count (t : Nat)
  /-- Every access at position `a`. -/
  | position (a : Nat)
  /-- The `t`-th access, if it is at position `a`. -/
  | both (t a : Nat)
  /-- Every access at position `a` or above. -/
  | above (a : Nat)
deriving DecidableEq, Repr

/-- The parameters the spec leaves OPEN (R7, R49, D5, D24): what the platform around the engine fixes. -/
structure Platform where
  /-- `RdFault` of R64: it holds where one of the cases does; the empty list is the default "never". -/
  rdFaults : List FaultWhen
  /-- `WrFault` of R65, likewise. -/
  wrFaults : List FaultWhen
  /-- The size of `OUT` the host provides (R63): a write that does not fit is a write fault; `none`: any size. -/
  outSize : Option Nat
  /-- `POSW` (R7): `none` is the reference reading, unbounded. -/
  posw : Option Nat
deriving DecidableEq, Repr

/-- Where inside its phase the engine stands: the place in the pseudocode of 44_method_selector.md and
45_transcoder.md, with the block buffer of R37 as a local value. The model's own field (log entry 6). -/
inductive Stage where
  /-- No loop in progress: the rest phases, `SELECT`, `DEC_HDR`. -/
  | idle
  /-- `PASS.RESET` and `ipos <- 0` are next (R176, R202). -/
  | entry
  /-- The header write of `COMMIT` is next (R202). -/
  | header
  /-- The head of the block loop. -/
  | loop
  /-- Reading a block of `m` bytes: the next read is of byte `j`; `rbuf` holds bytes `0 .. j-1`, last one first. -/
  | read (j m : Nat) (rbuf : List Byte)
  /-- `SCAN.UNIT` of candidate `cand` (R178): the whole block, and the bytes still to be counted. -/
  | unit (block todo : List Byte)
  /-- The transform loop of `XFER.BLOCK` (R208): bytes still to be transformed, results so far, last one first. -/
  | xform (todo rdone : List Byte)
  /-- The write loop of `XFER.BLOCK` (R208): bytes still to be written. -/
  | write (todo : List Byte)
deriving DecidableEq, Repr

/-- How many transitions the engine makes before the next access of the host can land. The model's own field:
plain data that says which agent moves next (log entry 7). -/
inductive Pace where
  /-- Until the command has ended: the reading of D31, one transition from launch to end. -/
  | toRest
  /-- At most `n` transitions, one memory access or one filter step each. -/
  | steps (n : Nat)
deriving DecidableEq, Repr

/-- What the host can do (R14, R40, R112, R207). -/
inductive HostMove where
  /-- Write `value` to host register `reg`; register 0 starts a command (R40, R41, R44). -/
  | write (reg value : Nat)
  /-- Read host register `reg` (R40). -/
  | read (reg : Nat)
  /-- Read `STATUS` until `PHASE` is 6 or 7 (R112, `WAIT`). -/
  | wait
  /-- Place bytes at `IN[0..]` (R112, `IN <bytes>`, without its write of register 3). -/
  | fillIn (bytes : List Byte)
  /-- Copy `OUT[0 .. OUT_LEN-1]` into `IN` and set `IN_LEN <- OUT_LEN` (R112, `IN <- OUT`). -/
  | copyOut
  /-- Read the byte of `OUT` at a position (R14). -/
  | readOut (a : Nat)
  /-- Provide an `OUT` space of the given size (R285). -/
  | provideOut (size : Option Nat)
  /-- The platform's reset input (R280). -/
  | hwReset
  /-- No access: from here on the engine's pace is `p` (log entry 7). -/
  | setPace (p : Pace)
deriving DecidableEq, Repr

/-- The whole state. -/
structure State where
  /-- The datapath registers (R20 to R27). -/
  dp : Datapath
  /-- `hist` (R28). -/
  hist : Hist
  /-- `sampled` (R29). -/
  sampled : Nat
  /-- `sel` (R30). -/
  sel : Byte
  /-- `phase` (R31). -/
  phase : Phase
  /-- `ipos` (R32). -/
  ipos : Nat
  /-- `opos` (R33). -/
  opos : Nat
  /-- `cand` (R34), 0 to 14. -/
  cand : Fin 15
  /-- `err` (R35). -/
  err : ErrCode
  /-- `IN_LEN` (R44). -/
  inLen : Nat
  /-- The space `IN` (R61). -/
  inMem : Memory
  /-- The space `OUT` (R62). -/
  outMem : Memory
  /-- Reads of `IN` the current command has issued: the `t` of `RdFault(t, a)` (R64). -/
  rdCount : Nat
  /-- Writes of `OUT` the current command has issued: the `t` of `WrFault(t, a)` (R65). -/
  wrCount : Nat
  /-- The place inside the phase (model's own). -/
  stage : Stage
  /-- The platform's parameters (R7, R49). -/
  plat : Platform
  /-- The host's accesses still to come, first one first (model's own; log entry 7). -/
  host : List HostMove
  /-- The value the host's last read returned (model's own; log entry 8). -/
  rdata : Nat
  /-- How far the engine runs before the next host access (model's own; log entry 7). -/
  pace : Pace
  /-- The number of free values drawn so far (model's own; log entry 5). -/
  free : Nat
deriving DecidableEq, Repr

/-- Why the machine stops with a fault. The errors of 60_exceptions.md are not here: the engine takes them, and the
result is a next state. -/
inductive Fault where
  /-- A read of `IN` at a position `>= IN_LEN`, which is not addressable (R61). Raised by `memRead`. Safe: the spec
  says the engine never issues one, and no state a run reaches does. -/
  | readPastEnd (a : Nat)
deriving DecidableEq, Repr

/-- Why the machine refuses to go on. -/
inductive Refusal where
  /-- An instruction without a meaning in this model. Raised by no arm: every instruction has its meaning.
  Safe. -/
  | notModelled (mnemonic : String)
  /-- `ROUTE(n)` with `n = 0`, `n > 8` or `d >= n` (R123, U5): "no defined behaviour; a model refuses it". Raised by
  the per-byte step of a lane-routed method. Safe: unreachable from any command. -/
  | routeOutsideContract
  /-- `sel` names no candidate while a pass uses it (R95: the table is never indexed above 14). Raised by the engine's
  transform step. Safe: unreachable, `DECODE` checks the header first. -/
  | noSuchCandidate (sel : Byte)
  /-- A method at a place where the spec uses none (R240 names the three; log entry 12). Raised by the 15 methods.
  Safe: the engine never runs a method elsewhere. -/
  | methodNotInUse
  /-- A place that the phase does not have. Raised by the engine's own sequencing. Safe: unreachable. -/
  | brokenSequence
  /-- The host changes `IN` while the engine is busy (R290, U18: "refuse"; log entry 10). Raised by `fillIn` and
  `copyOut`. Safe: not doing so is a host duty. -/
  | inChangedWhileBusy
  /-- The host replaces `OUT` while the engine is busy (R285: it is provided before the command; log entry 10). Raised by
  `provideOut`. Safe. -/
  | outChangedWhileBusy
  /-- A length that violates the bounds of R7 under a finite `POSW` (U11: "refuse"; log entry 11). Raised by
  `writeInLen`. Safe. -/
  | lengthBeyondPosw
deriving DecidableEq, Repr

/-- The outcome of an instruction or of a step. -/
abbrev Result := Host.Outcome State Fault Refusal

/-- The lane registers, the weight and the lane counter all 0: what `PASS.RESET` leaves (R282), and what this model
takes after power-on, where the spec says "unspecified" (R48; log entry 3). -/
def Datapath.zero : Datapath where
  previous := Vector.replicate 8 0
  sample1 := Vector.replicate 8 0
  sample2 := Vector.replicate 8 0
  weight := 0
  d := 0

/-- All 3840 counters 0: what `HIST.CLR` leaves (R160). -/
def Hist.zero : Hist := Vector.replicate 15 (Vector.replicate 256 0)

/-- The machine right after hardware reset (R48, R280): `phase`, `err`, `sel`, `opos`, `sampled` and `IN_LEN` as the
spec says; the unspecified registers at 0 (log entry 3); both spaces with nothing listed (log entry 4); no pending
host access, no fault, unbounded positions (R7's defaults). -/
def State.reset : State where
  dp := Datapath.zero
  hist := Hist.zero
  sampled := 0
  sel := 0
  phase := .idle
  ipos := 0
  opos := 0
  cand := 0
  err := .none
  inLen := 0
  inMem := []
  outMem := []
  rdCount := 0
  wrCount := 0
  stage := .idle
  plat := { rdFaults := [], wrFaults := [], outSize := none, posw := none }
  host := []
  rdata := 0
  pace := .toRest
  free := 0

end Sys2Proof.Machine
end

