-- ==== Sys2Proof/Machine/Flags.lean ====
section
/-! DEFINITION. The status of the engine. It has no condition codes; its only flags are the three status bits derived
from `phase` (spec 10_state.md R36), and `STATUS` packs `phase` and `err` (R42). -/

namespace Sys2Proof.Machine

/-- The value of the 3-bit register `phase` (R31). -/
def phaseCode : Phase → BitVec 3
  | .idle => 0
  | .scan => 1
  | .select => 2
  | .commit => 3
  | .decHdr => 4
  | .decBody => 5
  | .done => 6
  | .error => 7

/-- The value of the 4-bit register `err` (R246). -/
def errCode : ErrCode → BitVec 4
  | .none => 0
  | .badArgCount => 1
  | .inputUnopenable => 2
  | .outputUnopenable => 3
  | .unknownMode => 4
  | .readError => 5
  | .writeError => 6
  | .badHeader => 7
  | .headerMissing => 8

/-- `BUSY` (R36). -/
def busy (s : State) : Bool :=
  match s.phase with
  | .scan => true
  | .select => true
  | .commit => true
  | .decHdr => true
  | .decBody => true
  | .idle => false
  | .done => false
  | .error => false

/-- `DONE` (R36). -/
def doneFlag (s : State) : Bool := s.phase == .done

/-- `ERR` (R36). -/
def errFlag (s : State) : Bool := s.phase == .error

/-- `STATUS` (R42): `PHASE` in bits [2:0], bit 3 reads 0, `ECODE` in bits [7:4]. -/
def statusByte (s : State) : Byte := errCode s.err ++ (0#1 ++ phaseCode s.phase)

end Sys2Proof.Machine
end

