-- ==== Sys2Proof/Machine/Operands.lean ====
section
/-! DEFINITION. The operand forms of the engine: the operands of a method (channel count and family, by table lookup,
spec 30_encoding.md R92, R93), the lane that the router hands to a filter (40_lane_router.md R120), the sequential
position with its block length (20_memory.md R72) and the stride (44_method_selector.md R180). -/

namespace Sys2Proof.Machine

/-- A filter family (R93). -/
inductive Family where
  /-- No filter, no routing: index 0. -/
  | identity
  /-- The delta filter: indices 1 to 9. -/
  | delta
  /-- The adaptive filter: indices 10 to 14. -/
  | adaptive
deriving DecidableEq, Repr

/-- One row of the candidate table: a channel count and a family (R92). -/
structure Candidate where
  n : Nat
  fam : Family
deriving DecidableEq, Repr

/-- `CAND`, the candidate table, kept verbatim with its duplicate (R92, R94). -/
def candTable : Vector Candidate 15 :=
  #v[⟨0, .identity⟩,
     ⟨1, .delta⟩, ⟨2, .delta⟩, ⟨3, .delta⟩, ⟨4, .delta⟩, ⟨5, .delta⟩, ⟨6, .delta⟩, ⟨7, .delta⟩, ⟨8, .delta⟩,
     ⟨1, .delta⟩,
     ⟨2, .adaptive⟩, ⟨3, .adaptive⟩, ⟨4, .adaptive⟩, ⟨6, .adaptive⟩, ⟨8, .adaptive⟩]

/-- `CAND[k]`. -/
def candAt (k : Fin 15) : Candidate := candTable[k]

/-- The header byte of candidate `k`: the byte is the index (R91). -/
def headerOf (k : Fin 15) : Byte := BitVec.ofNat 8 k.val

/-- `ROUTE(n)` (R120): the lane of the byte now being processed, which is also the new `d`. The increment is made on
the transient 4-bit value. Outside its contract `1 <= n <= 8`, `d < n` it has no defined behaviour (R123): `none`. -/
def route (n : Nat) (d : Fin 8) : Option (Fin 8) :=
  if h : 1 ≤ n ∧ n ≤ 8 ∧ d.val < n then
    if h' : d.val + 1 = n then some 0 else some ⟨d.val + 1, by omega⟩
  else none

/-- The length of the next block: `min(BLOCK, IN_LEN - ipos)`, 0 at end of file (R176, R202, R204). -/
def blockLength (s : State) : Nat := min Config.block (s.inLen - s.ipos)

/-- The stride rule (R180): skip if at least one byte is left after the skip. -/
def stride (inLen ipos : Nat) : Nat :=
  if ipos + Config.skip < inLen then ipos + Config.skip else ipos

end Sys2Proof.Machine
end

