-- ==== Sys2Proof/Machine/Ops.lean ====
section
/-! DEFINITION. The operations the rest of the machine is made of: the two byte spaces, the access primitives with
their faults (spec 20_memory.md R64, R65), taking an error (60_exceptions.md R250; there is no return from one,
R255), and the three resets (70_reset_and_hazards.md R280 to R282). -/

namespace Sys2Proof.Machine

/-- Run `k` on the state, if there is a next one. -/
def Result.andThen (r : Result) (k : State → Result) : Result :=
  match r with
  | .next s => k s
  | .fault f => .fault f
  | .refused f => .refused f

/-! ### The byte spaces -/

/-- The byte at a position; an unlisted position reads as 0 (log entry 4). -/
def Memory.read (m : Memory) (a : Nat) : Byte :=
  match m with
  | [] => 0
  | (k, v) :: rest => if a = k then v else Memory.read rest a

/-- Store one byte, keeping the canonical form: storing 0 removes the entry. -/
def Memory.write (m : Memory) (a : Nat) (b : Byte) : Memory :=
  match m with
  | [] => if b = 0 then [] else [(a, b)]
  | (k, v) :: rest =>
    if a < k then
      if b = 0 then (k, v) :: rest else (a, b) :: (k, v) :: rest
    else if a = k then
      if b = 0 then rest else (a, b) :: rest
    else (k, v) :: Memory.write rest a b

/-- Every entry is at or above `lo`, positions rise strictly, and no listed byte is 0. -/
def Memory.wfFrom (lo : Nat) (m : Memory) : Bool :=
  match m with
  | [] => true
  | (k, v) :: rest => decide (lo ≤ k) && v != 0 && Memory.wfFrom (k + 1) rest

/-- The canonical form. -/
def Memory.wf (m : Memory) : Bool := Memory.wfFrom 0 m

/-- Store bytes at consecutive positions from `a` (R62, R68). -/
def Memory.writeAll (m : Memory) (a : Nat) (bs : List Byte) : Memory :=
  match bs with
  | [] => m
  | b :: rest => Memory.writeAll (Memory.write m a b) (a + 1) rest

/-- The `n` bytes from position `a` on. -/
def Memory.slice (m : Memory) (a n : Nat) : List Byte :=
  match n with
  | 0 => []
  | n + 1 => Memory.read m a :: Memory.slice m (a + 1) n

/-! ### Errors -/

/-- `raise E(info)` (R250): the code is recorded, the phase is `ERROR`, the pass is abandoned; nothing else changes.
`ERROR` is a rest state: there is no handler, no saved state and no return (R255). -/
def raise (e : ErrCode) (s : State) : State :=
  { s with err := e, phase := .error, stage := .idle }

/-! ### The access primitives -/

/-- Does a case of a fault predicate hold of the access number `t` at position `a`? -/
def FaultWhen.holds (w : FaultWhen) (t a : Nat) : Bool :=
  match w with
  | .count t' => t == t'
  | .position a' => a == a'
  | .both t' a' => t == t' && a == a'
  | .above a' => decide (a' ≤ a)

/-- `RdFault(t, a)` (R64). -/
def rdFault (p : Platform) (t a : Nat) : Bool := p.rdFaults.any (fun w => FaultWhen.holds w t a)

/-- The write does not fit into the `OUT` the host provided (R63). -/
def beyondOut (p : Platform) (a : Nat) : Bool :=
  match p.outSize with
  | some n => decide (n ≤ a)
  | none => false

/-- `WrFault(t, a)` (R65), with the write that does not fit (R63). -/
def wrFault (p : Platform) (t a : Nat) : Bool :=
  beyondOut p a || p.wrFaults.any (fun w => FaultWhen.holds w t a)

/-- The read the engine has just issued is counted (R64). -/
def afterRead (s : State) : State := { s with rdCount := s.rdCount + 1 }

/-- A write of `v` that has succeeded: it is counted, the byte is stored at `opos`, and `opos` advances (R62, R65). -/
def afterWrite (v : Byte) (s : State) : State :=
  { s with wrCount := s.wrCount + 1, outMem := Memory.write s.outMem s.opos v, opos := s.opos + 1 }

/-- A write that has failed: it is counted and raises `WriteError`; `opos` is not increased (R65, R249). -/
def afterWriteFault (s : State) : State := raise .writeError { s with wrCount := s.wrCount + 1 }

/-- `MemRead(IN, a, 1)` (R64), going on with `k` and the byte read. A position at or beyond `IN_LEN` is not
addressable (R61). -/
def memRead (a : Nat) (s : State) (k : Byte → State → Result) : Result :=
  if s.inLen ≤ a then .fault (.readPastEnd a)
  else if rdFault s.plat s.rdCount a then .next (raise .readError (afterRead s))
  else k (Memory.read s.inMem a) (afterRead s)

/-- `MemWrite(OUT, opos, 1, v)` (R65), going on with `k`: on success the byte is stored and `opos` advances. -/
def memWrite (v : Byte) (s : State) (k : State → Result) : Result :=
  if wrFault s.plat s.wrCount s.opos then .next (afterWriteFault s) else k (afterWrite v s)

/-! ### The resets -/

/-- `PASS.RESET` (R282): all eight lanes of the three files, the weight and the lane counter. -/
def passReset (s : State) : State := { s with dp := Datapath.zero }

/-- `HIST.CLR` (R160). -/
def histClr (s : State) : State := { s with hist := Hist.zero }

/-- The common part of `INVOCATION.RESET` (R281): what every accepted `CMD` write does first. The counts of accesses
are of the current command (R64, R65). -/
def invocationReset (s : State) : State :=
  { s with opos := 0, ipos := 0, err := .none, sel := 0, rdCount := 0, wrCount := 0, stage := .idle }

/-- `HW.RESET` (R280): the command in progress is abandoned; `IN` and `OUT` are not touched; the unspecified registers
take free values (log entry 5). -/
def hwReset (s : State) : State :=
  { s with
    phase := .idle
    err := .none
    sel := 0
    opos := 0
    sampled := 0
    inLen := 0
    dp := { previous := Vector.ofFn (Config.freePrevious s.free)
            sample1 := Vector.ofFn (Config.freeSample1 s.free)
            sample2 := Vector.ofFn (Config.freeSample2 s.free)
            weight := Config.freeWeight s.free
            d := Config.freeLane s.free }
    hist := Vector.ofFn (fun k => Vector.ofFn (Config.freeCount s.free k))
    ipos := Config.freeIpos s.free
    cand := Config.freeCand s.free
    rdCount := 0
    wrCount := 0
    stage := .idle
    free := s.free + 1 }

end Sys2Proof.Machine
end

