-- ==== Sys2Proof/Machine/Filters.lean ====
section
/-! DEFINITION. The filters on one byte and the transforms made of them: identity and delta (spec
41_delta_filter.md), adaptive (42_adaptive_filter.md), the per-byte dispatch by the candidate table and the
transform of a whole byte sequence (45_transcoder.md R199, R200, R202, R204). -/

namespace Sys2Proof.Machine

/-- `asr(v, k)`, the arithmetic right shift: `floor(v / 2^k)` (R9). Lean's `/` on integers rounds toward minus
infinity for a positive divisor. -/
def asr (v : Int) (k : Nat) : Int := v / 2 ^ k

/-- `IDENT(b)` (R130). -/
def identByte (b : Byte) : Byte := b

/-- `DELTA.FWD(l, b)` (R131): previous minus current; the register takes the input byte. -/
def deltaFwd (l : Fin 8) (b : Byte) (p : Datapath) : Byte × Datapath :=
  (p.previous[l] - b, { p with previous := p.previous.set l b })

/-- `DELTA.INV(l, r)` (R132): the register takes the reconstructed byte. -/
def deltaInv (l : Fin 8) (r : Byte) (p : Datapath) : Byte × Datapath :=
  let b := p.previous[l] - r
  (b, { p with previous := p.previous.set l b })

/-- The prediction `p = (2 * sample1[l] - sample2[l]) mod 256` (R142). -/
def prediction (l : Fin 8) (p : Datapath) : Byte := 2 * p.sample1[l] - p.sample2[l]

/-- The effective weight `w = asr(weight, 6)` (R143). -/
def effectiveWeight (p : Datapath) : Int := asr p.weight Config.rate

/-- `WUPD(e)` (R146): step the weight by the residual's side of 127 and saturate. -/
def wupd (e : Byte) (weight : Int) : Int :=
  let w1 := if e.toNat < Config.centre then weight + 1 else weight
  let w2 := if Config.centre < e.toNat then w1 - 1 else w1
  let w3 := if w2 = Config.wmax + 1 then Config.wmax else w2
  if w3 = -(Config.wmax + 1) then -Config.wmax else w3

/-- Steps 4 and 5 of the adaptive filter, shared by both directions (R144, R145): the weight moves by the residual
`e`; `sample2[l]` takes the old `sample1[l]`, `sample1[l]` takes `(w + b) mod 256`, with the `w` from before the
weight update (D16). -/
def adaptUpdate (l : Fin 8) (e b : Byte) (p : Datapath) : Datapath :=
  { p with
    weight := wupd e p.weight
    sample2 := p.sample2.set l p.sample1[l]
    sample1 := p.sample1.set l (Byte.ofInt (effectiveWeight p) + b) }

/-- `ADAPT.FWD(l, b)` (R144). -/
def adaptFwd (l : Fin 8) (b : Byte) (p : Datapath) : Byte × Datapath :=
  let e := Byte.ofInt (effectiveWeight p) + prediction l p - b
  (e, adaptUpdate l e b p)

/-- `ADAPT.INV(l, e)` (R145). -/
def adaptInv (l : Fin 8) (e : Byte) (p : Datapath) : Byte × Datapath :=
  let b := Byte.ofInt (effectiveWeight p) + prediction l p - e
  (b, adaptUpdate l e b p)

/-- What one byte is turned into: the result and the datapath after it; `none` where `ROUTE` is outside its
contract (R123). -/
abbrev ByteStep := Byte → Datapath → Option (Byte × Datapath)

/-- The identity step: no lane, no register (R130, D36). -/
def plainStep : ByteStep := fun b p => some (identByte b, p)

/-- One `ROUTE(n)` before the filter call for the same byte (R124). -/
def routed (n : Nat) (filter : Fin 8 → Byte → Datapath → Byte × Datapath) : ByteStep := fun b p =>
  match route n p.d with
  | some l => some (filter l b { p with d := l })
  | none => none

/-- `XBYTE.FWD(k, b)` by table lookup (R199). -/
def xbyteFwd (k : Fin 15) : ByteStep :=
  match (candAt k).fam with
  | .identity => plainStep
  | .delta => routed (candAt k).n deltaFwd
  | .adaptive => routed (candAt k).n adaptFwd

/-- `XBYTE.INV(k, r)` by table lookup (R200). -/
def xbyteInv (k : Fin 15) : ByteStep :=
  match (candAt k).fam with
  | .identity => plainStep
  | .delta => routed (candAt k).n deltaInv
  | .adaptive => routed (candAt k).n adaptInv

/-- A byte step over a byte sequence, in ascending order (R208, R209). -/
def runBytes (f : ByteStep) (bs : List Byte) (p : Datapath) : Option (List Byte × Datapath) :=
  match bs with
  | [] => some ([], p)
  | b :: rest =>
    match f b p with
    | none => none
    | some (r, p') =>
      match runBytes f rest p' with
      | none => none
      | some (rs, p'') => some (r :: rs, p'')

/-- `XFORM.FWD(k, D)` with the datapath it ends in, from the state `PASS.RESET` leaves (R202). -/
def xformFwd (k : Fin 15) (data : List Byte) : Option (List Byte × Datapath) :=
  runBytes (xbyteFwd k) data Datapath.zero

/-- `XFORM.INV(k, T)` with the datapath it ends in (R204). -/
def xformInv (k : Fin 15) (data : List Byte) : Option (List Byte × Datapath) :=
  runBytes (xbyteInv k) data Datapath.zero

end Sys2Proof.Machine
end

