-- ==== Sys2Proof/Machine/Histogram.lean ====
section
/-! DEFINITION. The entropy estimator and the selection (spec 43_entropy_estimator.md, 44_method_selector.md R183).
The order of the entropies is decided in natural numbers by the score `P` (R166); the Shannon entropy itself stands
in Machine/Shannon.lean. -/

namespace Sys2Proof.Machine

/-- `hist[k][v]` (R28). -/
def histAt (h : Hist) (k : Fin 15) (v : Byte) : Nat := (h[k])[v.toNat]'v.isLt

/-- `HIST.ACC(k, v)` (R161). -/
def histAcc (k : Fin 15) (v : Byte) (h : Hist) : Hist :=
  h.set k ((h[k]).set v.toNat (histAt h k v + 1) v.isLt)

/-- The sum of the counters of one histogram (R162). -/
def histTotal (row : Vector Nat 256) : Nat := row.toList.sum

/-- `P(k)`, the product of `c ^ c` over the counters, with `0 ^ 0 = 1` (R166). -/
def score (row : Vector Nat 256) : Nat := (row.toList.map (fun c => c ^ c)).prod

/-- The scan of `SELECT` (R183) over candidates in the order given: `best` is replaced on a strictly smaller entropy
only, which is a strictly greater score (R166). -/
def selectFrom (h : Hist) (best : Fin 15) (bestScore : Nat) (ks : List (Fin 15)) : Fin 15 :=
  match ks with
  | [] => best
  | k :: rest =>
    if bestScore < score h[k] then selectFrom h k (score h[k]) rest
    else selectFrom h best bestScore rest

/-- `SELECT` (R183): from `best = 0` through 1, 2, ..., 14. -/
def selectBest (h : Hist) : Fin 15 :=
  selectFrom h 0 (score h[(0 : Fin 15)]) [1, 2, 3, 4, 5, 6, 7, 8, 9, 10, 11, 12, 13, 14]

end Sys2Proof.Machine
end

