-- ==== Sys2Proof/Machine/Methods.lean ====
section
/-! DEFINITION. The 15 candidate methods (spec 46_candidate_methods.md), each spelled out with its index, channel count
and family as its own rule gives them. A method is used in three places (R240): as a unit of the scan, in the commit
pass and in the decode pass; a legal header of `DECODE` is where it is selected for a whole stream. -/

namespace Sys2Proof.Machine

/-- Apply a byte step to the datapath and go on with the result; outside `ROUTE`'s contract, refuse (R123). -/
def applyByte (f : ByteStep) (b : Byte) (s : State) (k : Byte → Datapath → Result) : Result :=
  match f b s.dp with
  | some (r, p) => k r p
  | none => .refused .routeOutsideContract

/-- One use of the method with index `idx`, forward step `fwd` and inverse step `inv`, at the place where the engine
stands:
in a scan unit, `SCAN.BYTE` (R179): forward, counted in the method's own histogram;
in the transform loop of the commit pass, `XBYTE.FWD` (R199); in that of the decode pass, `XBYTE.INV` (R200);
after the header byte that names it has been read, `sel` holds the index, `PASS.RESET`, and the decode pass begins
(R203). Anywhere else the spec uses no method, and it is refused (log entry 12).
DESIGN CHOICE, unsafe: the method runs in a scan unit and in the transform loop without a test that `cand` or `sel` names
it. R240 uses no other method there, and `step` runs none: `engineFetch` takes the method from `cand` or `sel` (log entry
23). -/
def useMethod (idx : Fin 15) (fwd inv : ByteStep) (s : State) : Result :=
  match s.phase, s.stage with
  | .scan, .unit block (b :: todo) =>
    applyByte fwd b s fun r p =>
      .next { s with dp := p, hist := histAcc idx r s.hist, stage := .unit block todo }
  | .commit, .xform (b :: todo) rdone =>
    applyByte fwd b s fun r p => .next { s with dp := p, stage := .xform todo (r :: rdone) }
  | .decBody, .xform (b :: todo) rdone =>
    applyByte inv b s fun r p => .next { s with dp := p, stage := .xform todo (r :: rdone) }
  | .decHdr, _ =>
    .next { passReset { s with sel := headerOf idx } with phase := .decBody, stage := .loop }
  | _, _ => .refused .methodNotInUse

/-- `ID`: index 0, identity; no lane, no register (R225). -/
def useId (s : State) : Result := useMethod 0 plainStep plainStep s

/-- `D1`: index 1, delta, 1 channel (R226). -/
def useD1 (s : State) : Result := useMethod 1 (routed 1 deltaFwd) (routed 1 deltaInv) s

/-- `D2`: index 2, delta, 2 channels (R227). -/
def useD2 (s : State) : Result := useMethod 2 (routed 2 deltaFwd) (routed 2 deltaInv) s

/-- `D3`: index 3, delta, 3 channels (R228). -/
def useD3 (s : State) : Result := useMethod 3 (routed 3 deltaFwd) (routed 3 deltaInv) s

/-- `D4`: index 4, delta, 4 channels (R229). -/
def useD4 (s : State) : Result := useMethod 4 (routed 4 deltaFwd) (routed 4 deltaInv) s

/-- `D5`: index 5, delta, 5 channels (R230). -/
def useD5 (s : State) : Result := useMethod 5 (routed 5 deltaFwd) (routed 5 deltaInv) s

/-- `D6`: index 6, delta, 6 channels (R231). -/
def useD6 (s : State) : Result := useMethod 6 (routed 6 deltaFwd) (routed 6 deltaInv) s

/-- `D7`: index 7, delta, 7 channels (R232). -/
def useD7 (s : State) : Result := useMethod 7 (routed 7 deltaFwd) (routed 7 deltaInv) s

/-- `D8`: index 8, delta, 8 channels (R233). -/
def useD8 (s : State) : Result := useMethod 8 (routed 8 deltaFwd) (routed 8 deltaInv) s

/-- `D1B`: index 9, delta, 1 channel (R234). -/
def useD1b (s : State) : Result := useMethod 9 (routed 1 deltaFwd) (routed 1 deltaInv) s

/-- `A2`: index 10, adaptive, 2 channels (R235). -/
def useA2 (s : State) : Result := useMethod 10 (routed 2 adaptFwd) (routed 2 adaptInv) s

/-- `A3`: index 11, adaptive, 3 channels (R236). -/
def useA3 (s : State) : Result := useMethod 11 (routed 3 adaptFwd) (routed 3 adaptInv) s

/-- `A4`: index 12, adaptive, 4 channels (R237). -/
def useA4 (s : State) : Result := useMethod 12 (routed 4 adaptFwd) (routed 4 adaptInv) s

/-- `A6`: index 13, adaptive, 6 channels (R238). -/
def useA6 (s : State) : Result := useMethod 13 (routed 6 adaptFwd) (routed 6 adaptInv) s

/-- `A8`: index 14, adaptive, 8 channels (R239). -/
def useA8 (s : State) : Result := useMethod 14 (routed 8 adaptFwd) (routed 8 adaptInv) s

/-- One use of the method an instruction names. A command is no method: it has no place inside a pass (R90). -/
def useInstr (i : Instr) (s : State) : Result :=
  match i with
  | .id => useId s
  | .d1 => useD1 s
  | .d2 => useD2 s
  | .d3 => useD3 s
  | .d4 => useD4 s
  | .d5 => useD5 s
  | .d6 => useD6 s
  | .d7 => useD7 s
  | .d8 => useD8 s
  | .d1b => useD1b s
  | .a2 => useA2 s
  | .a3 => useA3 s
  | .a4 => useA4 s
  | .a6 => useA6 s
  | .a8 => useA8 s
  | .encode => .refused .methodNotInUse
  | .decode => .refused .methodNotInUse

end Sys2Proof.Machine
end

