-- ==== Sys2Proof/Machine/Engine.lean ====
section
/-! DEFINITION. The engine between two accesses of the host: its transitions in the order of the pseudocode of spec
44_method_selector.md and 45_transcoder.md. One transition is one memory access, one filter step, or one decision of
a loop; `phase` changes only as R207 says. -/

namespace Sys2Proof.Machine

/-- What the engine does next: run an instruction, or something with a result of its own. -/
inductive Fetched where
  /-- The method `i` is to be used on the state. -/
  | run (i : Instr) (s : State)
  /-- No method is involved: the outcome. -/
  | result (r : Result)

/-- The byte of the method in use where a filter step is next: the candidate of the unit in the scan (R178), `sel` in
the full passes (R208). -/
def methodInUse (s : State) : Option Byte :=
  match s.phase, s.stage with
  | .scan, .unit _ (_ :: _) => some (headerOf s.cand)
  | .commit, .xform (_ :: _) _ => some s.sel
  | .decBody, .xform (_ :: _) _ => some s.sel
  | _, _ => none

/-- `DEC_HDR` (R203): `HeaderMissing` is tested before the read, `ReadError` comes with it, `BadHeader` after it (R253);
`sel` takes the byte whatever its value (R30). -/
def fetchHeader (s : State) : Fetched :=
  if s.inLen = 0 then .result (.next (raise .headerMissing s))
  else if rdFault s.plat s.rdCount 0 then .result (.next (raise .readError (afterRead s)))
  else
    let h := Memory.read s.inMem 0
    let s' := { afterRead s with ipos := 1, sel := h }
    match decode .hdr h with
    | .ok i => .run i s'
    | .error _ => .result (.next (raise .badHeader s'))

/-- The head of the block loop of a pass: at end of file `atEnd`, otherwise the reads of the next block. -/
def loopHead (s : State) (atEnd : State) : Result :=
  if blockLength s = 0 then .next atEnd
  else .next { s with stage := .read 0 (blockLength s) [] }

/-- One read of a block (R177, R208): the byte at `ipos + j`; after the last one `ipos` advances by the block length
and `whole` takes over with the block. If the read faults, nothing of the block has had an effect. -/
def readOne (j m : Nat) (rbuf : List Byte) (s : State) (whole : List Byte → State → Result) : Result :=
  memRead (s.ipos + j) s fun b s' =>
    if j + 1 < m then .next { s' with stage := .read (j + 1) m (b :: rbuf) }
    else whole (b :: rbuf).reverse { s' with ipos := s'.ipos + m }

/-- The scan begins its 15 units of a block: `sampled` grows once per block, the first unit is candidate 0 with the lane
counter at 0 (R177, R178). -/
def beginUnits (m : Nat) (block : List Byte) (s : State) : State :=
  { s with sampled := s.sampled + m, cand := 0, dp := { s.dp with d := 0 }, stage := .unit block block }

/-- The end of a unit: the next candidate with the lane counter at 0, or, after candidate 14, the stride (R176, R178,
R180). -/
def endUnit (block : List Byte) (s : State) : State :=
  if h : s.cand.val + 1 < 15 then
    { s with cand := ⟨s.cand.val + 1, h⟩, dp := { s.dp with d := 0 }, stage := .unit block block }
  else { s with ipos := stride s.inLen s.ipos, stage := .loop }

/-- `SELECT` (R183): `sel` takes the least candidate of least entropy. -/
def selectStep (s : State) : State :=
  { s with sel := headerOf (selectBest s.hist), phase := .commit, stage := .entry }

/-- A pass ends: phase `DONE` (R202, R204). -/
def passDone (s : State) : State := { s with phase := .done, stage := .idle }

/-- The transitions of the scan pass (R176). -/
def scanStep (s : State) : Result :=
  match s.stage with
  | .entry => .next { passReset s with ipos := 0, stage := .loop }
  | .loop => loopHead s { s with phase := .select, stage := .idle }
  | .read j m rbuf => readOne j m rbuf s fun block s' => .next (beginUnits m block s')
  | .unit block [] => .next (endUnit block s)
  | _ => .refused .brokenSequence

/-- The transitions that the two full passes share: `XFER.BLOCK` (R208) and the block loop (R202, R204). -/
def transferStep (s : State) : Result :=
  match s.stage with
  | .loop => loopHead s (passDone s)
  | .read j m rbuf => readOne j m rbuf s fun block s' => .next { s' with stage := .xform block [] }
  | .xform [] rdone => .next { s with stage := .write rdone.reverse }
  | .write (b :: todo) => memWrite b s fun s' => .next { s' with stage := .write todo }
  | .write [] => .next { s with stage := .loop }
  | _ => .refused .brokenSequence

/-- The transitions of `COMMIT` (R202): the pass reset, the seek, the header write, then the blocks. -/
def commitStep (s : State) : Result :=
  match s.stage with
  | .entry => .next { passReset s with ipos := 0, stage := .header }
  | .header => memWrite s.sel s fun s' => .next { s' with stage := .loop }
  | _ => transferStep s

/-- A transition that uses no method. In a rest phase the engine stays and performs no access (R207). -/
def sequence (s : State) : Result :=
  match s.phase with
  | .idle => .next s
  | .scan => scanStep s
  | .select => .next (selectStep s)
  | .commit => commitStep s
  | .decHdr => .refused .brokenSequence
  | .decBody => transferStep s
  | .done => .next s
  | .error => .next s

/-- What the engine does next: the method in use where a filter step is next, the header of `DECODE`, or a transition
that uses no method. -/
def engineFetch (s : State) : Fetched :=
  match methodInUse s with
  | some h =>
    match decode .hdr h with
    | .ok i => .run i s
    | .error _ => .result (.refused (.noSuchCandidate h))
  | none => if s.phase = .decHdr then fetchHeader s else .result (sequence s)

/-- One transition of the engine. -/
def engineStep (s : State) : Result :=
  match engineFetch s with
  | .run i s' => useInstr i s'
  | .result r => r

/-- At most `n` transitions, ending early in a rest phase. -/
def engineRun (n : Nat) (s : State) : Result :=
  match n with
  | 0 => .next s
  | n + 1 =>
    if busy s then
      match engineStep s with
      | .next s' => engineRun n s'
      | .fault r => .fault r
      | .refused r => .refused r
    else .next s

/-! ### How long a command can still run (R182, R284) -/

/-- Transitions of a full pass from its loop head with `r` bytes to go, at most. -/
def passWork (r : Nat) : Nat := 6 * r + 1

/-- Transitions of `SELECT` and `COMMIT`, at most. -/
def afterScanWork (s : State) : Nat := 3 + passWork s.inLen

/-- Transitions of the scan from its loop head with `r` bytes to go, and of what follows it, at most. -/
def scanWork (s : State) (r : Nat) : Nat := 32 * r + 1 + afterScanWork s

/-- A bound on the transitions until the engine is at rest. -/
def work (s : State) : Nat :=
  match s.phase, s.stage with
  | .idle, _ => 0
  | .done, _ => 0
  | .error, _ => 0
  | .select, _ => afterScanWork s
  | .decHdr, _ => 1 + passWork s.inLen
  | .scan, .entry => 1 + scanWork s s.inLen
  | .scan, .loop => scanWork s (s.inLen - s.ipos)
  | .scan, .read j m rbuf =>
    max (m - j) 1 + 15 * (rbuf.length + max (m - j) 1 + 1) + scanWork s (s.inLen - (s.ipos + m))
  | .scan, .unit block todo =>
    todo.length + 1 + (14 - s.cand.val) * (block.length + 1) + scanWork s (s.inLen - s.ipos)
  | .scan, _ => 1
  | _, .entry => 2 + passWork s.inLen
  | _, .header => 1 + passWork (s.inLen - s.ipos)
  | _, .loop => passWork (s.inLen - s.ipos)
  | _, .read j m rbuf =>
    max (m - j) 1 + 2 * (rbuf.length + max (m - j) 1 + 1) + passWork (s.inLen - (s.ipos + m))
  | _, .xform todo rdone =>
    2 * todo.length + rdone.length + 2 + passWork (s.inLen - s.ipos)
  | _, .write todo => todo.length + 1 + passWork (s.inLen - s.ipos)
  | _, _ => 1

/-- The engine runs on until the host's next access can land (D31, log entry 7). -/
def paced (s : State) : Result :=
  match s.pace with
  | .toRest => engineRun (work s) s
  | .steps n => engineRun n s

end Sys2Proof.Machine
end

