-- ==== Sys2Proof/Machine/Commands.lean ====
section
/-! DEFINITION. The meaning of every instruction. A method is used once where the engine stands, a command is accepted
or ignored; then the engine runs on until the host's next access can land (`paced`). -/

namespace Sys2Proof.Machine

/-- `INVOCATION.RESET(ENCODE)` (R281): the common part, `HIST.CLR`, `sampled <- 0`, `phase <- SCAN`. -/
def launchEncode (s : State) : State :=
  { histClr (invocationReset s) with sampled := 0, phase := .scan, stage := .entry }

/-- `INVOCATION.RESET(DECODE)` (R281): the common part, `phase <- DEC_HDR`. -/
def launchDecode (s : State) : State := { invocationReset s with phase := .decHdr }

/-- A `CMD` write of a reserved `OP` that is accepted (R196, R247): the common part, then `UnknownMode`. -/
def launchUnknown (s : State) : State := raise .unknownMode (invocationReset s)

/-- A `CMD` write (R196): accepted in `IDLE`, `DONE` and `ERROR`, ignored while busy. -/
def command (launch : State → State) (s : State) : Result :=
  if busy s then paced s else paced (launch s)

/-- `ENCODE` (R201): scan, select, commit. -/
def execEncode (s : State) : Result := command launchEncode s

/-- `DECODE` (R203): header, inverse pass. -/
def execDecode (s : State) : Result := command launchDecode s

/-- `ID` (R225). -/
def execId (s : State) : Result := Result.andThen (useId s) paced

/-- `D1` (R226). -/
def execD1 (s : State) : Result := Result.andThen (useD1 s) paced

/-- `D2` (R227). -/
def execD2 (s : State) : Result := Result.andThen (useD2 s) paced

/-- `D3` (R228). -/
def execD3 (s : State) : Result := Result.andThen (useD3 s) paced

/-- `D4` (R229). -/
def execD4 (s : State) : Result := Result.andThen (useD4 s) paced

/-- `D5` (R230). -/
def execD5 (s : State) : Result := Result.andThen (useD5 s) paced

/-- `D6` (R231). -/
def execD6 (s : State) : Result := Result.andThen (useD6 s) paced

/-- `D7` (R232). -/
def execD7 (s : State) : Result := Result.andThen (useD7 s) paced

/-- `D8` (R233). -/
def execD8 (s : State) : Result := Result.andThen (useD8 s) paced

/-- `D1B` (R234). -/
def execD1b (s : State) : Result := Result.andThen (useD1b s) paced

/-- `A2` (R235). -/
def execA2 (s : State) : Result := Result.andThen (useA2 s) paced

/-- `A3` (R236). -/
def execA3 (s : State) : Result := Result.andThen (useA3 s) paced

/-- `A4` (R237). -/
def execA4 (s : State) : Result := Result.andThen (useA4 s) paced

/-- `A6` (R238). -/
def execA6 (s : State) : Result := Result.andThen (useA6 s) paced

/-- `A8` (R239). -/
def execA8 (s : State) : Result := Result.andThen (useA8 s) paced

end Sys2Proof.Machine
end

