-- ==== Sys2Proof/Machine/Dispatch.lean ====
section
/-! DEFINITION. Every instruction's meaning, one arm per constructor of `Instr`. -/

namespace Sys2Proof.Machine

def exec (i : Instr) (s : State) : Host.Outcome State Fault Refusal :=
  match i with
  | .id => Sys2Proof.Machine.execId s
  | .d1 => Sys2Proof.Machine.execD1 s
  | .d2 => Sys2Proof.Machine.execD2 s
  | .d3 => Sys2Proof.Machine.execD3 s
  | .d4 => Sys2Proof.Machine.execD4 s
  | .d5 => Sys2Proof.Machine.execD5 s
  | .d6 => Sys2Proof.Machine.execD6 s
  | .d7 => Sys2Proof.Machine.execD7 s
  | .d8 => Sys2Proof.Machine.execD8 s
  | .d1b => Sys2Proof.Machine.execD1b s
  | .a2 => Sys2Proof.Machine.execA2 s
  | .a3 => Sys2Proof.Machine.execA3 s
  | .a4 => Sys2Proof.Machine.execA4 s
  | .a6 => Sys2Proof.Machine.execA6 s
  | .a8 => Sys2Proof.Machine.execA8 s
  | .encode => Sys2Proof.Machine.execEncode s
  | .decode => Sys2Proof.Machine.execDecode s

end Sys2Proof.Machine
end

