-- ==== Sys2Proof/Machine/HostPort.lean ====
section
/-! DEFINITION. The host's side: the six host registers (spec 10_state.md R40 to R46), what the host can do to the two
spaces (R14, R112, R285), and the choice of what a step does next. -/

namespace Sys2Proof.Machine

/-- What stands in a host register (R40): `CMD` and the reserved numbers read 0. -/
def readReg (reg : Nat) (s : State) : Nat :=
  match reg with
  | 1 => (statusByte s).toNat
  | 2 => s.sel.toNat
  | 3 => s.inLen
  | 4 => s.opos
  | 5 => s.sampled
  | _ => 0

/-- The host reads a register and the value is latched (log entry 8). While busy, `STATUS`, `OUT_LEN` and `SAMPLED` show
the engine where it stands (R13, R210; log entry 16); an intermediate `sel` cannot be observed (R13, D31), so a read of
`SEL` then gives a free value (log entries 5, 16). -/
def readHost (reg : Nat) (s : State) : State :=
  if reg = 2 ∧ busy s = true then { s with rdata := (Config.freeSel s.free).toNat, free := s.free + 1 }
  else { s with rdata := readReg reg s }

/-- The bounds of R7 on an input length under a finite `POSW`. -/
def lengthFits (p : Platform) (n : Nat) : Bool :=
  match p.posw with
  | none => true
  | some w => decide (n + 1 < 2 ^ w) && decide (n + Config.skip < 2 ^ (w + 1))

/-- A write of `IN_LEN` (R40, R44): ignored while busy; a length beyond `POSW` is refused, not wrapped (D5). -/
def writeInLen (n : Nat) (s : State) : Result :=
  if busy s then .next s
  else if lengthFits s.plat n then .next { s with inLen := n }
  else .refused .lengthBeyondPosw

/-- A `CMD` write of a reserved `OP` (R196, R247): raises `UnknownMode`, or is ignored while busy. -/
def writeUnknown (s : State) : State := if busy s then s else launchUnknown s

/-- A write of a host register other than `CMD` (R40): `IN_LEN` is the only one that can be written; the read-only ones
and the reserved numbers ignore it. -/
def writeReg (reg value : Nat) (s : State) : Result :=
  match reg with
  | 3 => writeInLen value s
  | _ => .next s

/-- The host places bytes at `IN[0..]`; while busy it has no such move (R290, U18). -/
def fillIn (bytes : List Byte) (s : State) : Result :=
  if busy s then .refused .inChangedWhileBusy
  else .next { s with inMem := Memory.writeAll s.inMem 0 bytes }

/-- `IN <- OUT` (R112): the bytes `OUT[0 .. OUT_LEN-1]` and their number. -/
def copyOut (s : State) : Result :=
  if busy s then .refused .inChangedWhileBusy
  else Result.andThen (writeInLen s.opos s) fun s' =>
    .next { s' with inMem := Memory.writeAll s.inMem 0 (Memory.slice s.outMem 0 s.opos) }

/-- The host reads a byte of `OUT`: part of the result when the command has ended and the position is below `OUT_LEN`;
otherwise any value (R62, R293, U7, U21; log entry 5). -/
def readOut (a : Nat) (s : State) : State :=
  if busy s = false ∧ a < s.opos then { s with rdata := (Memory.read s.outMem a).toNat }
  else { s with rdata := (Config.freeOut s.free).toNat, free := s.free + 1 }

/-- The host provides an `OUT` space, before the command (R285). What a new `OUT` holds, and what becomes of an earlier
result, the spec does not say (R14, R63). DESIGN CHOICE, unsafe: only the size changes; `OUT_LEN` and the bytes already
written stay and can be read as before, even where the new size is smaller (log entry 22). -/
def provideOut (size : Option Nat) (s : State) : Result :=
  if busy s then .refused .outChangedWhileBusy
  else .next { s with plat := { s.plat with outSize := size } }

/-- What the engine does in a step in which the host does nothing: nothing in a rest phase; otherwise one transition,
and on under the pace. A method is left to `exec`, which runs on itself. -/
def engineTurn (s : State) : Fetched :=
  if busy s then
    match engineFetch s with
    | .run i s' => .run i s'
    | .result r => .result (Result.andThen r paced)
  else .result (.next s)

/-- A `CMD` write (R41): the low 8 bits are `OP` (log entry 8); a legal one is an instruction. -/
def writeCmd (value : Nat) (s : State) : Fetched :=
  match decode .cmd (BitVec.ofNat 8 value) with
  | .ok i => .run i s
  | .error _ => .result (paced (writeUnknown s))

/-- `WAIT` (R112): the host reads `STATUS`; at `PHASE` 6 or 7 it goes on, otherwise it will read again and the engine
has its turn. -/
def waitTurn (rest : List HostMove) (s : State) : Fetched :=
  if doneFlag s || errFlag s then .result (.next { s with host := rest, rdata := readReg 1 s })
  else engineTurn s

/-- What the next step does: the host's next access if one is pending, after which the engine runs on under its pace;
otherwise the engine's turn. -/
def fetch (s : State) : Fetched :=
  match s.host with
  | [] => engineTurn s
  | .write 0 value :: rest => writeCmd value { s with host := rest }
  | .write reg value :: rest => .result (Result.andThen (writeReg reg value { s with host := rest }) paced)
  | .read reg :: rest => .result (paced (readHost reg { s with host := rest }))
  | .wait :: rest => waitTurn rest s
  | .fillIn bytes :: rest => .result (Result.andThen (fillIn bytes { s with host := rest }) paced)
  | .copyOut :: rest => .result (Result.andThen (copyOut { s with host := rest }) paced)
  | .readOut a :: rest => .result (paced (readOut a { s with host := rest }))
  | .provideOut size :: rest => .result (Result.andThen (provideOut size { s with host := rest }) paced)
  | .hwReset :: rest => .result (paced (hwReset { s with host := rest }))
  | .setPace p :: rest => .result (paced { s with host := rest, pace := p })

/-! ### Placing a word where the next step fetches it -/

/-- A rest phase, so that a `CMD` write is accepted. -/
def atRest (s : State) : State := if busy s then { s with phase := .idle, stage := .idle } else s

/-- The word of a command is the host's pending `CMD` write; any other word is the header byte of the stream in `IN`,
with `DECODE` about to read it and no read fault there (log entry 2). -/
def placeWord (s : State) (nbits w : Nat) : State :=
  let b : Byte := BitVec.ofNat 8 (w % 2 ^ nbits)
  match tableFormat b with
  | .cmd => { atRest s with host := .write 0 b.toNat :: s.host }
  | .hdr =>
    { s with
      host := []
      phase := .decHdr
      stage := .idle
      inMem := Memory.write s.inMem 0 b
      inLen := max 1 s.inLen
      plat := { s.plat with rdFaults := s.plat.rdFaults.filter (fun c => !FaultWhen.holds c s.rdCount 0) } }

end Sys2Proof.Machine
end

