-- ==== Sys2Proof/Machine/Shannon.lean ====
section
/-! DEFINITION. The Shannon entropy of spec 43_entropy_estimator.md R163 as the exact real number that the spec compares.
No register holds it and no step evaluates it: `SELECT` decides the same order in natural numbers (R166). -/

namespace Sys2Proof.Machine

/-- `ENTROPY(k)` in bits per symbol of a histogram row with `T = sampled` (R163): 0 for an empty sample; zero counters
are skipped. -/
noncomputable def entropy (row : Vector Nat 256) (sampled : Nat) : ℝ :=
  if sampled = 0 then 0
  else ((row.toList.filter (fun c => c != 0)).map
    (fun c : Nat => -((c : ℝ) / (sampled : ℝ)) * Real.logb 2 ((c : ℝ) / (sampled : ℝ)))).sum

end Sys2Proof.Machine
end

