-- ==== Sys2Proof/Machine/Passes.lean ====
section
/-! DEFINITION. The passes as whole functions, without the order of single accesses: what the scan leaves in the
histograms, `sampled` and the datapath for a given input (spec 44_method_selector.md R176 to R180). Claims about whole
commands are stated in terms of them and of `xformFwd`, `xformInv`; the engine of Machine/Engine.lean does not use them. -/

namespace Sys2Proof.Machine

/-- `SCAN.BYTE(k, b)` (R179) by the candidate table: one byte forward through candidate `k`, counted. -/
def scanByte (k : Fin 15) (b : Byte) (p : Datapath) (h : Hist) : Option (Datapath × Hist) :=
  match xbyteFwd k b p with
  | some (r, p') => some (p', histAcc k r h)
  | none => none

/-- The loop of `SCAN.UNIT(k, m)` (R178). -/
def scanBytes (k : Fin 15) (bs : List Byte) (p : Datapath) (h : Hist) : Option (Datapath × Hist) :=
  match bs with
  | [] => some (p, h)
  | b :: rest =>
    match scanByte k b p h with
    | some (p', h') => scanBytes k rest p' h'
    | none => none

/-- Units of one block for candidates in the order given, each with the lane counter at 0 (R176, R178). -/
def scanUnits (ks : List (Fin 15)) (block : List Byte) (p : Datapath) (h : Hist) : Option (Datapath × Hist) :=
  match ks with
  | [] => some (p, h)
  | k :: rest =>
    match scanBytes k block { p with d := 0 } h with
    | some (p', h') => scanUnits rest block p' h'
    | none => none

/-- The scan from position `pos` on (R176): the next block, its 15 units in ascending order, the stride. `fuel` bounds
the number of blocks; `len` is enough (R182). -/
def scanFrom (fuel : Nat) (mem : Memory) (len pos : Nat) (p : Datapath) (h : Hist) (sampled : Nat) :
    Option (Datapath × Hist × Nat) :=
  match fuel with
  | 0 => some (p, h, sampled)
  | fuel + 1 =>
    let m := min Config.block (len - pos)
    if m = 0 then some (p, h, sampled)
    else
      match scanUnits (List.finRange 15) (Memory.slice mem pos m) p h with
      | some (p', h') => scanFrom fuel mem len (stride len (pos + m)) p' h' (sampled + m)
      | none => none

/-- The scan pass over the first `len` positions of `IN`: the datapath it leaves, the histograms, `sampled`. -/
def scanPass (mem : Memory) (len : Nat) : Option (Datapath × Hist × Nat) :=
  scanFrom (len + 1) mem len 0 Datapath.zero Hist.zero 0

end Sys2Proof.Machine
end

