-- ==== Sys2Proof/Safety.lean ====
section
/-! DEFINITION. The terms claims use: what the host can see of the two spaces, when the platform makes no fault, and the
invariant that every step keeps. -/

namespace Sys2Proof.Machine

/-- The input the host has supplied: `IN[0 .. IN_LEN-1]` (R61). -/
def inputBytes (s : State) : List Byte := Memory.slice s.inMem 0 s.inLen

/-- The result of a command: `OUT[0 .. OUT_LEN-1]` (R62). -/
def outputBytes (s : State) : List Byte := Memory.slice s.outMem 0 s.opos

/-- No read of `IN` fails (R64). -/
def NoReadFault (p : Platform) : Prop := ∀ t a, rdFault p t a = false

/-- No write of `OUT` at a position below `n` fails (R65, R63). -/
def NoWriteFault (p : Platform) (n : Nat) : Prop := ∀ t a, a < n → wrFault p t a = false

/-- The stages each phase has (R207, with the loops of R176, R202, R204). -/
def stageFits (s : State) : Bool :=
  match s.phase, s.stage with
  | .scan, .entry => true
  | .scan, .loop => true
  | .scan, .read _ _ _ => true
  | .scan, .unit _ _ => true
  | .commit, .entry => true
  | .commit, .header => true
  | .commit, .loop => true
  | .commit, .read _ _ _ => true
  | .commit, .xform _ _ => true
  | .commit, .write _ => true
  | .decBody, .loop => true
  | .decBody, .read _ _ _ => true
  | .decBody, .xform _ _ => true
  | .decBody, .write _ => true
  | .scan, _ => false
  | .commit, _ => false
  | .decBody, _ => false
  | _, .idle => true
  | _, _ => false

/-- A block in progress: its bytes lie inside the input, and the buffer holds those already read (R61, R177). -/
def blockFits (s : State) : Prop :=
  match s.stage with
  | .read j m rbuf => j < m ∧ m ≤ Config.block ∧ s.ipos + m ≤ s.inLen ∧ rbuf.length = j
  | _ => True

/-- The lane counter is inside `ROUTE`'s contract for channel count `n` (R123); the identity is never routed. -/
def laneFits (n : Nat) (d : Fin 8) : Prop := n = 0 ∨ (n ≤ 8 ∧ d.val < n)

/-- The method in use has the lane counter inside its contract: the unit's candidate in the scan, `sel` in the full passes,
where `sel` names a candidate (R123, R95). -/
def methodFits (s : State) : Prop :=
  match s.phase, s.stage with
  | .scan, .unit _ _ => laneFits (candAt s.cand).n s.dp.d
  | .commit, .entry => s.sel.toNat < 15
  | .commit, .header => s.sel.toNat < 15 ∧ s.dp.d = 0
  | .commit, _ => ∃ k : Fin 15, s.sel = headerOf k ∧ laneFits (candAt k).n s.dp.d
  | .decBody, _ => ∃ k : Fin 15, s.sel = headerOf k ∧ laneFits (candAt k).n s.dp.d
  | _, _ => True

/-- The weight is in its range whenever a filter step can begin (R147). -/
def weightFits (s : State) : Prop :=
  match s.phase, s.stage with
  | .scan, .entry => True
  | .commit, .entry => True
  | .scan, _ => -Config.wmax ≤ s.dp.weight ∧ s.dp.weight ≤ Config.wmax
  | .commit, _ => -Config.wmax ≤ s.dp.weight ∧ s.dp.weight ≤ Config.wmax
  | .decBody, _ => -Config.wmax ≤ s.dp.weight ∧ s.dp.weight ≤ Config.wmax
  | _, _ => True

/-- Bytes of the current block that candidate `k` has not counted yet (R162). -/
def uncounted (s : State) (k : Fin 15) : Nat :=
  match s.stage with
  | .unit block todo => if k < s.cand then 0 else if k = s.cand then todo.length else block.length
  | _ => 0

/-- Every histogram of the scan totals `sampled`, but for the bytes of the current block still to be counted; it stays so
through the selection and the commit pass (R162, R185). -/
def totalsFit (s : State) : Prop :=
  match s.phase with
  | .scan => ∀ k : Fin 15, histTotal s.hist[k] + uncounted s k = s.sampled
  | .select => ∀ k : Fin 15, histTotal s.hist[k] = s.sampled
  | .commit => ∀ k : Fin 15, histTotal s.hist[k] = s.sampled
  | _ => True

/-- Bytes of the current block not yet written (R208). -/
def unwritten (s : State) : Nat :=
  match s.stage with
  | .xform todo rdone => todo.length + rdone.length
  | .write todo => todo.length
  | _ => 0

/-- The lengths of R205 inside a pass: `COMMIT` has written one byte more than it has consumed, the decode pass one less,
but for the bytes of the block in progress. Before the header write nothing has been written (R62). -/
def lengthsFit (s : State) : Prop :=
  match s.phase, s.stage with
  | .scan, _ => s.opos = 0
  | .select, _ => s.opos = 0
  | .decHdr, _ => s.opos = 0
  | .commit, .entry => s.opos = 0
  | .commit, .header => s.opos = 0 ∧ s.ipos = 0
  | .commit, _ => s.opos + unwritten s = s.ipos + 1
  | .decBody, _ => s.opos + unwritten s + 1 = s.ipos
  | _, _ => True

/-- The invariant of the machine. -/
structure Consistent (s : State) : Prop where
  /-- `IN` is in canonical form. -/
  inWf : Memory.wf s.inMem = true
  /-- `OUT` is in canonical form. -/
  outWf : Memory.wf s.outMem = true
  /-- `ECODE` is non-zero exactly when `PHASE` is `ERROR` (R42). -/
  errPhase : s.err ≠ .none ↔ s.phase = .error
  /-- The engine stands at a place its phase has. -/
  placed : stageFits s = true
  /-- `ipos` never exceeds `IN_LEN` while a command runs (R32). -/
  position : busy s = true → s.ipos ≤ s.inLen
  /-- The block in progress lies inside the input. -/
  block : blockFits s
  /-- The router is inside its contract (R123). -/
  method : methodFits s
  /-- The weight is in its range (R147). -/
  weight : weightFits s
  /-- The histograms' totals (R162). -/
  totals : totalsFit s
  /-- The lengths (R205). -/
  lengths : lengthsFit s

/-! ### The tables of the spec that claims are stated over -/

/-- The delta methods with their index and channel count (R226 to R234). -/
def deltaMethods : List (Instr × Fin 15 × Nat) :=
  [(.d1, 1, 1), (.d2, 2, 2), (.d3, 3, 3), (.d4, 4, 4), (.d5, 5, 5), (.d6, 6, 6), (.d7, 7, 7), (.d8, 8, 8),
   (.d1b, 9, 1)]

/-- The adaptive methods with their index and channel count (R235 to R239). -/
def adaptiveMethods : List (Instr × Fin 15 × Nat) :=
  [(.a2, 10, 2), (.a3, 11, 3), (.a4, 12, 4), (.a6, 13, 6), (.a8, 14, 8)]

/-- All 15 methods with their index (R92). -/
def methods : List (Instr × Fin 15) :=
  [(.id, 0), (.d1, 1), (.d2, 2), (.d3, 3), (.d4, 4), (.d5, 5), (.d6, 6), (.d7, 7), (.d8, 8), (.d1b, 9),
   (.a2, 10), (.a3, 11), (.a4, 12), (.a6, 13), (.a8, 14)]

/-- The transitions of `phase` that the engine or a `CMD` write makes (R207). The hardware reset, to `IDLE` from any
phase, is not in the list. -/
def phaseTable : List (Phase × Phase) :=
  [(.idle, .scan), (.idle, .decHdr), (.idle, .error), (.done, .scan), (.done, .decHdr), (.done, .error),
   (.error, .scan), (.error, .decHdr), (.error, .error), (.scan, .select), (.scan, .error), (.select, .commit),
   (.commit, .done), (.commit, .error), (.decHdr, .decBody), (.decHdr, .error), (.decBody, .done),
   (.decBody, .error)]

/-- The lane of byte number `i` of a pass or unit (R121): the `i + 1`-st call of `ROUTE(n)` from `d = 0`. -/
def laneOf (n i : Nat) : Option (Fin 8) :=
  match i with
  | 0 => route n 0
  | i + 1 => (laneOf n i).bind (route n)

/-- The value of `sampled` after the scan of an input of length `len` (R186): full blocks of 24576 bytes at multiples of
614400 below the last such multiple, then everything. -/
def sampledCount (len : Nat) : Nat :=
  if len = 0 then 0 else (len - 1) / 614400 * 24576 + (len - (len - 1) / 614400 * 614400)

/-- The host lets the engine run: no access is pending, or it polls `STATUS` (R112). -/
def EngineFree (s : State) : Prop := s.host = [] ∨ ∃ rest, s.host = .wait :: rest

/-- `n` steps of the machine. -/
def stepN (n : Nat) (s : State) : Result :=
  match n with
  | 0 => .next s
  | n + 1 => Result.andThen (step s) (stepN n)

end Sys2Proof.Machine
end

