-- ==== Sys2Proof/Certificates/Slice0/Obligations.lean ====
section
/-! DEFINITION. The statements for the provers. Each names in its docstring the rules of spec/ it comes from. A statement
about single transitions has the engine at pace `.steps 0`: one transition, and the host's next access; a statement about
whole commands has it at `.toRest`, the reading of spec 92_eei_decisions.md D31 (log entry 7). Where the spec marks a rule as
its own derivation or decision, the docstring says so; Dn is a decision of 92_eei_decisions.md. The place `stage` inside a pass is the
model's own (log entry 6). -/

open Sys2Proof Sys2Proof.Machine

/-! ## Encodings -/

/-- R90, R91, R92, R96: the decoder of a format and the encoder agree, in both directions. -/
def Obligations.DecodeIffEncode : Prop :=
  ∀ (f : Format) (b : Byte) (i : Instr), decode f b = .ok i ↔ i.format = f ∧ b = encode i

/-- R91, R95, R96, R97: which bytes are legal, and the reserved ones are rejected by name. -/
def Obligations.LegalBytes : Prop :=
  (∀ h : Byte, (∃ i, decode .hdr h = .ok i) ↔ h.extractLsb 7 4 = 0#4 ∧ h.extractLsb 3 0 ≠ 15#4) ∧
  (∀ h : Byte, 15 ≤ h.toNat → decode .hdr h = .error (.badHeader h)) ∧
  (∀ op : Byte, op ≠ 0x01#8 → op ≠ 0x02#8 → decode .cmd op = .error (.unknownMode op))

/-- R92, R96: words written out from the tables of the spec, one of each family, and both commands. -/
def Obligations.DecodeReadsSpecWords : Prop :=
  decode .hdr 0b00000000#8 = .ok .id ∧ decode .hdr 0b00000101#8 = .ok .d5 ∧ decode .hdr 0b00001001#8 = .ok .d1b ∧
  decode .hdr 0b00001101#8 = .ok .a6 ∧ decode .cmd 0b00000001#8 = .ok .encode ∧
  decode .cmd 0b00000010#8 = .ok .decode

/-- R92, R93, R94: the candidate table, duplicate included; the header byte of an index names its method. -/
def Obligations.CandidateTable : Prop :=
  (List.finRange 15).map (fun k => ((candAt k).n, (candAt k).fam)) =
    [(0, .identity), (1, .delta), (2, .delta), (3, .delta), (4, .delta), (5, .delta), (6, .delta), (7, .delta),
     (8, .delta), (1, .delta), (2, .adaptive), (3, .adaptive), (4, .adaptive), (6, .adaptive), (8, .adaptive)] ∧
  ∀ m ∈ methods, decode .hdr (BitVec.ofNat 8 m.2.val) = .ok m.1

/-! ## A step runs what it fetches -/

/-- R41, R96: a pending write of a legal opcode to `CMD` is run as the instruction its low 8 bits name. That a wider
value is cut to 8 bits is the model's choice (log entry 8). -/
def Obligations.StepRunsCommandByte : Prop :=
  ∀ (s : State) (v : Nat) (rest : List HostMove) (i : Instr),
    s.host = .write 0 v :: rest → decode .cmd (BitVec.ofNat 8 v) = .ok i → step s = exec i { s with host := rest }

/-- R203: in `DEC_HDR` the byte at `IN[0]` is read (counted, log entry 21; `ipos` 1, kept in `sel`) and run as the method it
names. -/
def Obligations.StepRunsHeaderByte : Prop :=
  ∀ (s : State) (i : Instr), EngineFree s → s.phase = .decHdr → s.inLen ≠ 0 → rdFault s.plat s.rdCount 0 = false →
    decode .hdr (Memory.read s.inMem 0) = .ok i →
    step s = exec i { s with rdCount := s.rdCount + 1, ipos := 1, sel := Memory.read s.inMem 0 }

/-- R178, R208, R240: where a filter step is next, the method in use is run: the unit's candidate in the scan, `sel` in a
full pass. -/
def Obligations.StepRunsMethodInUse : Prop :=
  ∀ (s : State) (i : Instr) (b : Byte) (todo : List Byte), EngineFree s →
    (s.phase = .scan → (∃ block, s.stage = .unit block (b :: todo)) →
      decode .hdr (headerOf s.cand) = .ok i → step s = exec i s) ∧
    (s.phase = .commit ∨ s.phase = .decBody → (∃ rdone, s.stage = .xform (b :: todo) rdone) →
      decode .hdr s.sel = .ok i → step s = exec i s)

/-! ## The lane router -/

/-- R120, R123: `ROUTE(n)` inside its contract returns the incremented and wrapped counter; outside it there is
no lane, which is the spec's decision D35 (log entry 20). The lane goes to the filter and is the new `d`. -/
def Obligations.RouteReturnsNextLane : Prop :=
  (∀ (n : Nat) (d : Fin 8), 1 ≤ n → n ≤ 8 → d.val < n →
    ∃ l, route n d = some l ∧ l.val = (if d.val + 1 = n then 0 else d.val + 1) ∧
      ∀ f b p, p.d = d → routed n f b p = some (f l b { p with d := l })) ∧
  (∀ (n : Nat) (d : Fin 8), ¬ (1 ≤ n ∧ n ≤ 8 ∧ d.val < n) → route n d = none)

/-- R121, which the spec derives from R120: the closed form of the lane sequence, and which bytes a lane receives. -/
def Obligations.RouteClosedForm : Prop :=
  ∀ n i : Nat, 1 ≤ n → n ≤ 8 →
    ∃ l, laneOf n i = some l ∧ l.val = (i + 1) % n ∧
      ∀ j : Nat, j < n → (l.val = j ↔ i % n = (j + n - 1) % n)

/-! ## The filters -/

/-- R131, R133: `DELTA.FWD`, with its frame. -/
def Obligations.DeltaForwardStep : Prop :=
  ∀ (l : Fin 8) (b : Byte) (p : Datapath),
    ((deltaFwd l b p).1.toNat : Int) = ((p.previous[l].toNat : Int) - b.toNat) % 256 ∧
    (deltaFwd l b p).2.previous[l] = b ∧
    (∀ l' : Fin 8, l' ≠ l → (deltaFwd l b p).2.previous[l'] = p.previous[l']) ∧
    (deltaFwd l b p).2.sample1 = p.sample1 ∧ (deltaFwd l b p).2.sample2 = p.sample2 ∧
    (deltaFwd l b p).2.weight = p.weight ∧ (deltaFwd l b p).2.d = p.d

/-- R132, R133: `DELTA.INV`, with its frame. The register takes the reconstructed byte. -/
def Obligations.DeltaInverseStep : Prop :=
  ∀ (l : Fin 8) (r : Byte) (p : Datapath),
    ((deltaInv l r p).1.toNat : Int) = ((p.previous[l].toNat : Int) - r.toNat) % 256 ∧
    (deltaInv l r p).2.previous[l] = (deltaInv l r p).1 ∧
    (∀ l' : Fin 8, l' ≠ l → (deltaInv l r p).2.previous[l'] = p.previous[l']) ∧
    (deltaInv l r p).2.sample1 = p.sample1 ∧ (deltaInv l r p).2.sample2 = p.sample2 ∧
    (deltaInv l r p).2.weight = p.weight ∧ (deltaInv l r p).2.d = p.d

/-- R143, R147: the effective weight is the floor of a 64th of the weight, in -20 to 20. The floor is the
spec's general-knowledge passage G1 (R9; log entry 1). -/
def Obligations.EffectiveWeight : Prop :=
  ∀ p : Datapath, -1280 ≤ p.weight → p.weight ≤ 1280 →
    64 * effectiveWeight p ≤ p.weight ∧ p.weight < 64 * (effectiveWeight p + 1) ∧
    -20 ≤ effectiveWeight p ∧ effectiveWeight p ≤ 20

/-- R142, R143, R144: `ADAPT.FWD` in integers, with its frame. The `w` of the history update is the one from before the
weight update, the spec's decision D16; the floor is log entry 1. -/
def Obligations.AdaptiveForwardStep : Prop :=
  ∀ (l : Fin 8) (b : Byte) (p : Datapath),
    ((adaptFwd l b p).1.toNat : Int) =
      (p.weight / 64 + (2 * (p.sample1[l].toNat : Int) - p.sample2[l].toNat) % 256 - b.toNat) % 256 ∧
    (adaptFwd l b p).2.weight = wupd (adaptFwd l b p).1 p.weight ∧
    (adaptFwd l b p).2.sample2[l] = p.sample1[l] ∧
    ((adaptFwd l b p).2.sample1[l].toNat : Int) = (p.weight / 64 + b.toNat) % 256 ∧
    (∀ l' : Fin 8, l' ≠ l → (adaptFwd l b p).2.sample1[l'] = p.sample1[l'] ∧
      (adaptFwd l b p).2.sample2[l'] = p.sample2[l']) ∧
    (adaptFwd l b p).2.previous = p.previous ∧ (adaptFwd l b p).2.d = p.d

/-- R145: `ADAPT.INV` in integers, with its frame. The weight moves by the residual, not by the byte. D16 and log
entry 1 as in the forward step. -/
def Obligations.AdaptiveInverseStep : Prop :=
  ∀ (l : Fin 8) (e : Byte) (p : Datapath),
    ((adaptInv l e p).1.toNat : Int) =
      (p.weight / 64 + (2 * (p.sample1[l].toNat : Int) - p.sample2[l].toNat) % 256 - e.toNat) % 256 ∧
    (adaptInv l e p).2.weight = wupd e p.weight ∧
    (adaptInv l e p).2.sample2[l] = p.sample1[l] ∧
    ((adaptInv l e p).2.sample1[l].toNat : Int) = (p.weight / 64 + (adaptInv l e p).1.toNat) % 256 ∧
    (∀ l' : Fin 8, l' ≠ l → (adaptInv l e p).2.sample1[l'] = p.sample1[l'] ∧
      (adaptInv l e p).2.sample2[l'] = p.sample2[l']) ∧
    (adaptInv l e p).2.previous = p.previous ∧ (adaptInv l e p).2.d = p.d

/-- R146, R147: the weight update on every weight a filter step can begin with, and that it keeps the range, which
the spec derives. -/
def Obligations.WeightUpdate : Prop :=
  ∀ (e : Byte) (w : Int), -1280 ≤ w → w ≤ 1280 →
    (e.toNat < 127 → wupd e w = min (w + 1) 1280) ∧
    (e.toNat = 127 → wupd e w = w) ∧
    (127 < e.toNat → wupd e w = max (w - 1) (-1280)) ∧
    -1280 ≤ wupd e w ∧ wupd e w ≤ 1280

/-- R148, which the spec derives from R146: a run of residuals on one side of 127, from weight 0. -/
def Obligations.WeightSaturates : Prop :=
  ∀ es : List Byte,
    ((∀ e ∈ es, e.toNat < 127) → es.foldl (fun w e => wupd e w) 0 = ((min es.length 1280 : Nat) : Int)) ∧
    ((∀ e ∈ es, 127 < e.toNat) → es.foldl (fun w e => wupd e w) 0 = -((min es.length 1280 : Nat) : Int))

/-- R134, which the spec derives: the delta filter is inverted step by step, and a forward and an inverse pass from the same lanes and the same
`d` recover the bytes and end in the same registers. -/
def Obligations.DeltaInverse : Prop :=
  (∀ (l : Fin 8) (b : Byte) (p : Datapath), deltaInv l (deltaFwd l b p).1 p = (b, (deltaFwd l b p).2)) ∧
  (∀ (n : Nat) (bs : List Byte) (p : Datapath), 1 ≤ n → n ≤ 8 → p.d.val < n →
    ∃ rs q, runBytes (routed n deltaFwd) bs p = some (rs, q) ∧ runBytes (routed n deltaInv) rs p = some (bs, q))

/-- R149, which the spec derives: the same of the adaptive filter, weight and history included. -/
def Obligations.AdaptiveInverse : Prop :=
  (∀ (l : Fin 8) (b : Byte) (p : Datapath), adaptInv l (adaptFwd l b p).1 p = (b, (adaptFwd l b p).2)) ∧
  (∀ (n : Nat) (bs : List Byte) (p : Datapath), 1 ≤ n → n ≤ 8 → p.d.val < n →
    ∃ rs q, runBytes (routed n adaptFwd) bs p = some (rs, q) ∧ runBytes (routed n adaptInv) rs p = some (bs, q))

/-- R241, which the spec derives: the closed form of the delta methods over a full pass, in both directions. -/
def Obligations.DeltaClosedForm : Prop :=
  ∀ m ∈ deltaMethods, ∀ (data out : List Byte) (q : Datapath),
    (xformFwd m.2.1 data = some (out, q) → ∀ i, i < data.length →
      out.getD i 0 = (if i < m.2.2 then 0 else data.getD (i - m.2.2) 0) - data.getD i 0) ∧
    (xformInv m.2.1 data = some (out, q) → ∀ i, i < data.length →
      out.getD i 0 = (if i < m.2.2 then 0 else out.getD (i - m.2.2) 0) - data.getD i 0)

/-- R135, which the spec derives: under a delta method with `n` channels, a constant at every `n`-th position gives, on that lane, residual 0 after
the first occurrence, whatever the other bytes are. -/
def Obligations.ConstantLaneGivesZeros : Prop :=
  ∀ m ∈ deltaMethods, ∀ (data out : List Byte) (q : Datapath) (j : Nat) (c : Byte), j < m.2.2 →
    (∀ i, i < data.length → i % m.2.2 = j → data.getD i 0 = c) → xformFwd m.2.1 data = some (out, q) →
    ∀ i, i < data.length → i % m.2.2 = j → out.getD i 0 = if i < m.2.2 then 0 - c else 0

/-- R206, which the spec derives: every method is a bijection on byte sequences, length kept, from reset state. -/
def Obligations.TransformRoundTrip : Prop :=
  ∀ (k : Fin 15) (data : List Byte),
    (∃ out q, xformFwd k data = some (out, q) ∧ out.length = data.length ∧ xformInv k out = some (data, q)) ∧
    (∃ out q, xformInv k data = some (out, q) ∧ out.length = data.length ∧ xformFwd k out = some (data, q))

/-- R24, D36: a full pass of a method with `n` channels leaves lanes `n` to 7 at 0; a delta method leaves the adaptive
registers and the weight at 0, an adaptive method `previous`; the identity touches nothing. -/
def Obligations.FullPassTouchesOwnLanes : Prop :=
  ∀ (k : Fin 15) (data out : List Byte) (q : Datapath),
    xformFwd k data = some (out, q) ∨ xformInv k data = some (out, q) →
    (∀ l : Fin 8, (candAt k).n ≤ l.val → q.previous[l] = 0 ∧ q.sample1[l] = 0 ∧ q.sample2[l] = 0) ∧
    ((candAt k).fam = .delta → q.sample1 = Vector.replicate 8 0 ∧ q.sample2 = Vector.replicate 8 0 ∧ q.weight = 0) ∧
    ((candAt k).fam = .adaptive → q.previous = Vector.replicate 8 0) ∧
    ((candAt k).fam = .identity → q = Datapath.zero ∧ out = data)

/-! ## The entropy estimator and the selection -/

/-- R160, R161: `HIST.CLR` and `HIST.ACC`, each with its frame. -/
def Obligations.HistogramCounts : Prop :=
  (∀ s : State, (∀ (k : Fin 15) (v : Byte), histAt (histClr s).hist k v = 0) ∧
    ∃ h, histClr s = { s with hist := h }) ∧
  (∀ (k : Fin 15) (v : Byte) (h : Hist), histAt (histAcc k v h) k v = histAt h k v + 1) ∧
  (∀ (k k' : Fin 15) (v v' : Byte) (h : Hist), k' ≠ k ∨ v' ≠ v → histAt (histAcc k v h) k' v' = histAt h k' v')

/-- R163, and R164, which the spec derives: the Shannon entropy lies between 0 and 8, is `log2 j` for `j` equal counters (0
for a single one), and depends on the non-zero counters only. -/
def Obligations.EntropyRange : Prop :=
  (∀ row : Vector Nat 256, 0 ≤ entropy row (histTotal row) ∧ entropy row (histTotal row) ≤ 8) ∧
  (∀ (row : Vector Nat 256) (j c : Nat), 1 ≤ j → 1 ≤ c →
    row.toList.filter (fun x => x != 0) = List.replicate j c → entropy row (histTotal row) = Real.logb 2 j) ∧
  (∀ row row' : Vector Nat 256,
    (row.toList.filter (fun x => x != 0)).Perm (row'.toList.filter (fun x => x != 0)) →
      entropy row (histTotal row) = entropy row' (histTotal row'))

/-- R165 and R166, which the spec derives: at equal totals the order of the entropies is the reverse order of the integer scores. -/
def Obligations.EntropyOrder : Prop :=
  ∀ a b : Vector Nat 256, histTotal a = histTotal b →
    (entropy a (histTotal a) < entropy b (histTotal b) ↔ score b < score a) ∧
    (entropy a (histTotal a) = entropy b (histTotal b) ↔ score a = score b)

/-- R183, R184: with equal totals the selection is the least index of least entropy; exact by the spec's decision D15 (log
entry 14). -/
def Obligations.SelectsLeastEntropy : Prop :=
  ∀ (h : Hist) (total : Nat), (∀ k : Fin 15, histTotal h[k] = total) →
    (∀ j : Fin 15, entropy h[selectBest h] total ≤ entropy h[j] total) ∧
    (∀ j : Fin 15, j < selectBest h → entropy h[selectBest h] total < entropy h[j] total)

/-- R162 and R186, which the spec derives, with its decision D14: the scan reads the number of bytes R186 gives, every histogram totals it, and no counter exceeds it. -/
def Obligations.ScanSamples : Prop :=
  ∀ (mem : Memory) (len : Nat), ∃ p h, scanPass mem len = some (p, h, sampledCount len) ∧
    ∀ k : Fin 15, histTotal h[k] = sampledCount len ∧ ∀ v : Byte, histAt h k v ≤ sampledCount len

/-! ## Transitions of the engine -/

/-- R176, R202, R282, R286: the entry of the scan and of the commit pass is a pass reset and a seek to position 0. -/
def Obligations.PassEntry : Prop :=
  ∀ s : State, EngineFree s → s.pace = .steps 0 → s.stage = .entry →
    (s.phase = .scan → step s = .next { s with
      dp := { previous := Vector.replicate 8 0, sample1 := Vector.replicate 8 0, sample2 := Vector.replicate 8 0
              weight := 0, d := 0 }
      ipos := 0, stage := .loop }) ∧
    (s.phase = .commit → step s = .next { s with
      dp := { previous := Vector.replicate 8 0, sample1 := Vector.replicate 8 0, sample2 := Vector.replicate 8 0
              weight := 0, d := 0 }
      ipos := 0, stage := .header })

/-- R176, R202, R204, R207: the block loop goes on with `min(24576, IN_LEN - ipos)` bytes, or the pass ends. -/
def Obligations.BlockLoop : Prop :=
  ∀ s : State, EngineFree s → s.pace = .steps 0 → s.stage = .loop →
    s.phase = .scan ∨ s.phase = .commit ∨ s.phase = .decBody →
    (s.ipos < s.inLen → step s = .next { s with stage := .read 0 (min 24576 (s.inLen - s.ipos)) [] }) ∧
    (s.inLen ≤ s.ipos → s.phase = .scan → step s = .next { s with phase := .select, stage := .idle }) ∧
    (s.inLen ≤ s.ipos → s.phase ≠ .scan → step s = .next { s with phase := .done, stage := .idle })

/-- R64, R177, R208, R248: one read of a block, at `ipos + j`. A fault leaves the block without effect (D23);
the last read moves `ipos` by the block length, and in the scan `sampled` too. That a read is counted, a failing one too,
is the model's reading (log entry 21). -/
def Obligations.BlockRead : Prop :=
  ∀ (s : State) (j m : Nat) (rbuf : List Byte), EngineFree s → s.pace = .steps 0 → s.stage = .read j m rbuf →
    s.phase = .scan ∨ s.phase = .commit ∨ s.phase = .decBody → s.ipos + j < s.inLen →
    (rdFault s.plat s.rdCount (s.ipos + j) = true → step s = .next { s with
      rdCount := s.rdCount + 1, err := .readError, phase := .error, stage := .idle }) ∧
    (rdFault s.plat s.rdCount (s.ipos + j) = false → j + 1 < m → step s = .next { s with
      rdCount := s.rdCount + 1, stage := .read (j + 1) m (Memory.read s.inMem (s.ipos + j) :: rbuf) }) ∧
    (rdFault s.plat s.rdCount (s.ipos + j) = false → m ≤ j + 1 → s.phase = .scan → step s = .next { s with
      rdCount := s.rdCount + 1, ipos := s.ipos + m, sampled := s.sampled + m, cand := 0, dp := { s.dp with d := 0 }
      stage := .unit (Memory.read s.inMem (s.ipos + j) :: rbuf).reverse
        (Memory.read s.inMem (s.ipos + j) :: rbuf).reverse }) ∧
    (rdFault s.plat s.rdCount (s.ipos + j) = false → m ≤ j + 1 → s.phase ≠ .scan → step s = .next { s with
      rdCount := s.rdCount + 1, ipos := s.ipos + m
      stage := .xform (Memory.read s.inMem (s.ipos + j) :: rbuf).reverse [] })

/-- R176, R178, R180: the end of a unit. The next candidate starts at lane counter 0 with the lanes and the weight as they
are; after candidate 14 the stride skips 589824 bytes if at least one byte is left after them. The spec's decisions
D11 to D14 (log entry 15). -/
def Obligations.UnitEnd : Prop :=
  ∀ (s : State) (block : List Byte), EngineFree s → s.pace = .steps 0 → s.phase = .scan → s.stage = .unit block [] →
    (∀ c : Fin 15, c.val = s.cand.val + 1 → step s = .next { s with
      cand := c, dp := { s.dp with d := 0 }, stage := .unit block block }) ∧
    (s.cand = 14 → step s = .next { s with
      ipos := if s.ipos + 589824 < s.inLen then s.ipos + 589824 else s.ipos, stage := .loop })

/-- R183: `SELECT` writes the selected index to `sel` and goes on to `COMMIT`. -/
def Obligations.SelectStep : Prop :=
  ∀ s : State, EngineFree s → s.pace = .steps 0 → s.phase = .select → step s = .next { s with
    sel := BitVec.ofNat 8 (selectBest s.hist).val, phase := .commit, stage := .entry }

/-- R62, R65, R202, R208, R249: the header write and one write of a block, at `opos`. A fault leaves `OUT` and `opos` as
they are. That a write is counted, a failing one too, is the model's reading (log entry 21). -/
def Obligations.OutputWrite : Prop :=
  ∀ (s : State) (v : Byte) (next : Stage), EngineFree s → s.pace = .steps 0 →
    (s.phase = .commit ∧ s.stage = .header ∧ v = s.sel ∧ next = .loop) ∨
      ((s.phase = .commit ∨ s.phase = .decBody) ∧ ∃ todo, s.stage = .write (v :: todo) ∧ next = .write todo) →
    (wrFault s.plat s.wrCount s.opos = false → step s = .next { s with
      wrCount := s.wrCount + 1, outMem := Memory.write s.outMem s.opos v, opos := s.opos + 1, stage := next }) ∧
    (wrFault s.plat s.wrCount s.opos = true → step s = .next { s with
      wrCount := s.wrCount + 1, err := .writeError, phase := .error, stage := .idle })

/-! ## The methods, in each place they are used -/

/-- R130, R225: `ID` in a scan unit counts the raw byte; in a full pass it passes the byte on. Nothing else changes.
That `exec` does not ask whether `cand` or `sel` names the method is the model's choice (log entry 23). -/
def Obligations.IdentityMethod : Prop :=
  ∀ (s : State) (b : Byte) (todo : List Byte), s.pace = .steps 0 →
    (∀ block, s.phase = .scan → s.stage = .unit block (b :: todo) →
      exec .id s = .next { s with hist := histAcc 0 b s.hist, stage := .unit block todo }) ∧
    (∀ rdone, s.phase = .commit ∨ s.phase = .decBody → s.stage = .xform (b :: todo) rdone →
      exec .id s = .next { s with stage := .xform todo (b :: rdone) })

/-- R226 to R234 (`D1` to `D8`, `D1B`): the byte goes to the next lane; forward in the scan and in `COMMIT`, inverse in
`DEC_BODY`. Nothing else changes. That `exec` does not ask whether `cand` or `sel` names the method is the model's choice
(log entry 23). -/
def Obligations.DeltaMethods : Prop :=
  ∀ m ∈ deltaMethods, ∀ (s : State) (b : Byte) (todo : List Byte) (l : Fin 8), s.pace = .steps 0 →
    s.dp.d.val < m.2.2 → l.val = (s.dp.d.val + 1) % m.2.2 →
    (∀ block, s.phase = .scan → s.stage = .unit block (b :: todo) →
      exec m.1 s = .next { s with
        dp := { s.dp with d := l, previous := s.dp.previous.set l b }
        hist := histAcc m.2.1 (s.dp.previous[l] - b) s.hist, stage := .unit block todo }) ∧
    (∀ rdone, s.phase = .commit → s.stage = .xform (b :: todo) rdone →
      exec m.1 s = .next { s with
        dp := { s.dp with d := l, previous := s.dp.previous.set l b }
        stage := .xform todo ((s.dp.previous[l] - b) :: rdone) }) ∧
    (∀ rdone, s.phase = .decBody → s.stage = .xform (b :: todo) rdone →
      exec m.1 s = .next { s with
        dp := { s.dp with d := l, previous := s.dp.previous.set l (s.dp.previous[l] - b) }
        stage := .xform todo ((s.dp.previous[l] - b) :: rdone) })

/-- R235 to R239 (`A2`, `A3`, `A4`, `A6`, `A8`): the adaptive step on the next lane; forward in the scan and in `COMMIT`,
inverse in `DEC_BODY`. Nothing else changes. D16 and log entry 1 as in `AdaptiveForwardStep`. That `exec` does not ask
whether `cand` or `sel` names the method is the model's choice (log entry 23). -/
def Obligations.AdaptiveMethods : Prop :=
  ∀ m ∈ adaptiveMethods, ∀ (s : State) (b : Byte) (todo : List Byte) (l : Fin 8) (w r : Byte), s.pace = .steps 0 →
    s.dp.d.val < m.2.2 → l.val = (s.dp.d.val + 1) % m.2.2 → w = BitVec.ofInt 8 (s.dp.weight / 64) →
    r = w + (2 * s.dp.sample1[l] - s.dp.sample2[l]) - b →
    (∀ block, s.phase = .scan → s.stage = .unit block (b :: todo) →
      exec m.1 s = .next { s with
        dp := { s.dp with
          d := l, weight := wupd r s.dp.weight, sample2 := s.dp.sample2.set l s.dp.sample1[l]
          sample1 := s.dp.sample1.set l (w + b) }
        hist := histAcc m.2.1 r s.hist, stage := .unit block todo }) ∧
    (∀ rdone, s.phase = .commit → s.stage = .xform (b :: todo) rdone →
      exec m.1 s = .next { s with
        dp := { s.dp with
          d := l, weight := wupd r s.dp.weight, sample2 := s.dp.sample2.set l s.dp.sample1[l]
          sample1 := s.dp.sample1.set l (w + b) }
        stage := .xform todo (r :: rdone) }) ∧
    (∀ rdone, s.phase = .decBody → s.stage = .xform (b :: todo) rdone →
      exec m.1 s = .next { s with
        dp := { s.dp with
          d := l, weight := wupd b s.dp.weight, sample2 := s.dp.sample2.set l s.dp.sample1[l]
          sample1 := s.dp.sample1.set l (w + r) }
        stage := .xform todo (r :: rdone) })

/-- R203, R282: a method that a header selects: `sel` is its index, the pass reset, `DEC_BODY`. All 15 methods. That
`exec` does not ask whether the header names the method is the model's choice (log entry 23). -/
def Obligations.HeaderSelectsMethod : Prop :=
  ∀ m ∈ methods, ∀ s : State, s.pace = .steps 0 → s.phase = .decHdr →
    exec m.1 s = .next { s with
      sel := BitVec.ofNat 8 m.2.val
      dp := { previous := Vector.replicate 8 0, sample1 := Vector.replicate 8 0, sample2 := Vector.replicate 8 0
              weight := 0, d := 0 }
      phase := .decBody, stage := .loop }

/-- R203, R204, R209: the method that a header selects decodes the rest of the stream, whatever its length, block
boundaries included. All 15 methods. The access counts are log entry 21. That `exec` does not ask whether the header names the
method is the model's choice (log entry 23). -/
def Obligations.HeaderMethodDecodesStream : Prop :=
  ∀ m ∈ methods, ∀ s : State, s.pace = .toRest → s.phase = .decHdr → s.ipos = 1 → 1 ≤ s.inLen →
    NoReadFault s.plat → NoWriteFault s.plat (s.opos + (s.inLen - 1)) →
    ∃ data q, xformInv m.2 (Memory.slice s.inMem 1 (s.inLen - 1)) = some (data, q) ∧
      exec m.1 s = .next { s with
        sel := BitVec.ofNat 8 m.2.val, dp := q, phase := .done, stage := .idle, ipos := s.inLen
        opos := s.opos + (s.inLen - 1), outMem := Memory.writeAll s.outMem s.opos data
        rdCount := s.rdCount + (s.inLen - 1), wrCount := s.wrCount + (s.inLen - 1) }

/-- R90, R240, and the model's choice of log entry 12: a method is refused in the rest phases, in `SELECT`, and at every place
of the scan and of the full passes where no filter step is next. Where one is next, `exec` runs the method it is given (log
entry 23). -/
def Obligations.MethodElsewhereRefused : Prop :=
  ∀ m ∈ methods, ∀ s : State,
    (s.phase = .idle ∨ s.phase = .select ∨ s.phase = .done ∨ s.phase = .error) ∨
      (s.phase = .scan ∧ ∀ block b todo, s.stage ≠ .unit block (b :: todo)) ∨
      ((s.phase = .commit ∨ s.phase = .decBody) ∧ ∀ b todo rdone, s.stage ≠ .xform (b :: todo) rdone) →
    exec m.1 s = .refused .methodNotInUse

/-! ## The commands -/

/-- R196, R247, R281: what an accepted `CMD` write does first, and that one is ignored while busy: the spec's decisions D8,
D19 and D28; the low 8 bits are log entry 8, the access counts log entry 21. -/
def Obligations.CommandLaunch : Prop :=
  ∀ s : State, s.pace = .steps 0 →
    (busy s = false → exec .encode s = .next { s with
      opos := 0, ipos := 0, err := .none, sel := 0, rdCount := 0, wrCount := 0
      hist := Vector.replicate 15 (Vector.replicate 256 0), sampled := 0, phase := .scan, stage := .entry }) ∧
    (busy s = false → exec .decode s = .next { s with
      opos := 0, ipos := 0, err := .none, sel := 0, rdCount := 0, wrCount := 0, phase := .decHdr, stage := .idle }) ∧
    (busy s = true → exec .encode s = .next s ∧ exec .decode s = .next s) ∧
    (∀ v rest, s.host = .write 0 v :: rest → v % 256 ≠ 1 → v % 256 ≠ 2 →
      (busy s = false → step s = .next { s with
        host := rest, opos := 0, ipos := 0, err := .unknownMode, sel := 0, rdCount := 0, wrCount := 0
        phase := .error, stage := .idle }) ∧
      (busy s = true → step s = .next { s with host := rest }))

/-- R201, R202, R205: `ENCODE` without a fault, from any state that accepts it: the whole state it ends in, and the encoded
stream `[sel] ++ XFORM.FWD(sel, IN)`. Which index `sel` is rests on the spec's decisions D11 to D15;
the access counts are log entry 21. -/
def Obligations.EncodeCompletes : Prop :=
  ∀ s : State, s.pace = .toRest → busy s = false → NoReadFault s.plat → NoWriteFault s.plat (s.inLen + 1) →
    ∃ p h smp out q, scanPass s.inMem s.inLen = some (p, h, smp) ∧
      xformFwd (selectBest h) (inputBytes s) = some (out, q) ∧
      exec .encode s = .next { s with
        dp := q, hist := h, sampled := smp, sel := headerOf (selectBest h), phase := .done, stage := .idle
        ipos := s.inLen, opos := s.inLen + 1, cand := if s.inLen = 0 then s.cand else 14, err := .none
        outMem := Memory.writeAll s.outMem 0 (headerOf (selectBest h) :: out)
        rdCount := smp + s.inLen, wrCount := s.inLen + 1 } ∧
      (Memory.wf s.outMem = true →
        Memory.slice (Memory.writeAll s.outMem 0 (headerOf (selectBest h) :: out)) 0 (s.inLen + 1) =
          headerOf (selectBest h) :: out)

/-- R203, R204, R205: `DECODE` without a fault of a stream with a legal header, from any state that accepts it: the whole
state it ends in, and the plain stream `XFORM.INV(IN[0], IN[1..])`. The access counts are log entry 21. -/
def Obligations.DecodeCompletes : Prop :=
  ∀ (s : State) (k : Fin 15), s.pace = .toRest → busy s = false → NoReadFault s.plat →
    NoWriteFault s.plat (s.inLen - 1) → 1 ≤ s.inLen → Memory.read s.inMem 0 = BitVec.ofNat 8 k.val →
    ∃ data q, xformInv k (Memory.slice s.inMem 1 (s.inLen - 1)) = some (data, q) ∧
      exec .decode s = .next { s with
        dp := q, sel := BitVec.ofNat 8 k.val, phase := .done, stage := .idle, ipos := s.inLen
        opos := s.inLen - 1, err := .none, outMem := Memory.writeAll s.outMem 0 data
        rdCount := s.inLen, wrCount := s.inLen - 1 } ∧
      (Memory.wf s.outMem = true →
        Memory.slice (Memory.writeAll s.outMem 0 data) 0 (s.inLen - 1) = data)

/-- R203, R248, R251, R252, R253: the errors of `DECODE` in `DEC_HDR`, in the order they are tested; nothing is written and
the lanes, the weight and `d` keep their values. The first and the last are the spec's decisions D17 and D18. That
the read is counted, the failing one too, is the model's reading (log entry 21). -/
def Obligations.DecodeHeaderErrors : Prop :=
  ∀ s : State, s.pace = .toRest → busy s = false →
    (s.inLen = 0 → exec .decode s = .next { s with
      opos := 0, ipos := 0, err := .headerMissing, sel := 0, rdCount := 0, wrCount := 0, phase := .error
      stage := .idle }) ∧
    (s.inLen ≠ 0 → rdFault s.plat 0 0 = true → exec .decode s = .next { s with
      opos := 0, ipos := 0, err := .readError, sel := 0, rdCount := 1, wrCount := 0, phase := .error
      stage := .idle }) ∧
    (s.inLen ≠ 0 → rdFault s.plat 0 0 = false → 15 ≤ (Memory.read s.inMem 0).toNat →
      exec .decode s = .next { s with
        opos := 0, ipos := 1, err := .badHeader, sel := Memory.read s.inMem 0, rdCount := 1, wrCount := 0
        phase := .error, stage := .idle })

/-- R188, R201: `ENCODE` of an empty input and of one byte selects the identity. -/
def Obligations.ShortestInputs : Prop :=
  ∀ s : State, s.pace = .toRest → busy s = false → NoReadFault s.plat → NoWriteFault s.plat (s.inLen + 1) →
    Memory.wf s.outMem = true → s.inLen ≤ 1 →
    ∃ t, exec .encode s = .next t ∧ t.phase = .done ∧ t.sel = 0 ∧ t.sampled = s.inLen ∧
      outputBytes t = 0 :: inputBytes s

/-- R206, which the spec derives: `ENCODE`, the output copied to the input, `DECODE`: three accesses of the host, and `OUT` holds the original
bytes. -/
def Obligations.EncodeThenDecode : Prop :=
  ∀ s : State, s.host = [.write 0 1, .copyOut, .write 0 2] → s.pace = .toRest → busy s = false →
    NoReadFault s.plat → (∀ n, NoWriteFault s.plat n) → s.plat.posw = none →
    Memory.wf s.inMem = true → Memory.wf s.outMem = true →
    ∃ t, stepN 3 s = .next t ∧ t.phase = .done ∧ outputBytes t = inputBytes s

/-- The frame of every instruction at every pace, in every state: `IN`, `IN_LEN`, the platform, the host's side and the free
values are untouched, and of `OUT` only positions from the first one written (0 where a command is accepted, `opos`
otherwise) up to the new `opos` can change (R61, R62, R76). -/
def Obligations.InstructionFrame : Prop :=
  ∀ (i : Instr) (s t : State), exec i s = .next t → Memory.wf s.outMem = true →
    t.inMem = s.inMem ∧ t.inLen = s.inLen ∧ t.plat = s.plat ∧ t.host = s.host ∧ t.rdata = s.rdata ∧
    t.pace = s.pace ∧ t.free = s.free ∧
    ∀ a, (a < if i.format = .cmd ∧ busy s = false then 0 else s.opos) ∨ t.opos ≤ a →
      Memory.read t.outMem a = Memory.read s.outMem a

/-- R28, R29, R160, D28: an accepted `DECODE`, however it ends and at whatever pace, leaves the histograms, `sampled` and
`cand`. -/
def Obligations.DecodeLeavesHistograms : Prop :=
  ∀ s t : State, busy s = false → exec .decode s = .next t →
    t.hist = s.hist ∧ t.sampled = s.sampled ∧ t.cand = s.cand

/-- R187, and R283, which the spec derives: the result of a command is a function of `IN`, `IN_LEN`, the opcode and the platform alone, whatever the
faults: two machines that agree on these end alike, whatever earlier commands left. `OUT` is in canonical form
before (log entry 4); the access counts are log entry 21. -/
def Obligations.ResultIndependentOfHistory : Prop :=
  ∀ (i : Instr) (s s' t t' : State), i.format = .cmd → s.pace = .toRest → s'.pace = .toRest →
    busy s = false → busy s' = false → s.plat = s'.plat → s.inLen = s'.inLen → inputBytes s = inputBytes s' →
    Memory.wf s.outMem = true → Memory.wf s'.outMem = true → exec i s = .next t → exec i s' = .next t' →
    t.phase = t'.phase ∧ t.err = t'.err ∧ t.sel = t'.sel ∧ t.opos = t'.opos ∧ outputBytes t = outputBytes t' ∧
    t.rdCount = t'.rdCount ∧ t.wrCount = t'.wrCount ∧ (i = .encode → t.sampled = t'.sampled ∧ t.hist = t'.hist)

/-! ## The whole machine -/

/-- R48, R280, the spec's decision D20: the host sees zeros in every register after hardware reset, and the engine is idle;
that no host access is pending is the model's choice (log entry 7). -/
def Obligations.ResetState : Prop :=
  State.reset.phase = .idle ∧ State.reset.err = .none ∧ statusByte State.reset = 0 ∧
  (∀ reg, readReg reg State.reset = 0) ∧ step State.reset = .next State.reset

/-- The invariant of the model holds right after reset, at the values the model chose (log entries 3, 4). -/
def Obligations.ResetConsistent : Prop := Consistent State.reset

/-- Every step keeps the invariant of the model: canonical memories (log entry 4), R32, R42, R61, R95, R123, R147, R162,
R205 and R207 in every state a run can reach, and in every other state that meets them. -/
def Obligations.StepKeepsConsistent : Prop :=
  ∀ s t : State, Consistent s → step s = .next t → Consistent t

/-- R7, R286 to R293, and the model's refusals of log entries 10 and 11: from a state that meets the invariant a step has a
next state, except where the host breaks a duty or writes a length beyond `POSW`. No fault. -/
def Obligations.StepStopsOnlyOnHostDuty : Prop :=
  ∀ s : State, Consistent s →
    (∃ t, step s = .next t) ∨
    (busy s = true ∧ step s = .refused .inChangedWhileBusy ∧
      ((∃ bs rest, s.host = .fillIn bs :: rest) ∨ ∃ rest, s.host = .copyOut :: rest)) ∨
    (busy s = true ∧ step s = .refused .outChangedWhileBusy ∧ ∃ size rest, s.host = .provideOut size :: rest) ∨
    (busy s = false ∧ step s = .refused .lengthBeyondPosw ∧
      ((∃ n rest, s.host = .write 3 n :: rest ∧ lengthFits s.plat n = false) ∨
       (∃ rest, s.host = .copyOut :: rest ∧ lengthFits s.plat s.opos = false)))

/-- R207: `phase` changes only as the table says, in every state, one transition at a time; only the hardware reset leads to
`IDLE`. -/
def Obligations.PhaseTransitions : Prop :=
  ∀ s t : State, s.pace = .steps 0 → (∀ p rest, s.host ≠ .setPace p :: rest) → step s = .next t →
    t.phase = s.phase ∨ (s.phase, t.phase) ∈ phaseTable ∨
    (t.phase = .idle ∧ ∃ rest, s.host = .hwReset :: rest)

/-- R284, which the spec derives: every command terminates: the engine left alone gets to a rest phase, one transition at a time or at once, and
stays there (R207). -/
def Obligations.CommandsTerminate : Prop :=
  ∀ s : State, Consistent s → s.host = [] →
    (s.pace = .steps 0 → ∃ n t, stepN n s = .next t ∧ busy t = false) ∧
    (s.pace = .toRest → busy s = true → ∃ t, step s = .next t ∧ (t.phase = .done ∨ t.phase = .error)) ∧
    (busy s = false → step s = .next s)

/-- R62, R65, R72: one transition of the engine writes nothing, or one byte at `opos`, which then grows by 1; it never reads
or writes back. Every write is counted (log entry 21). -/
def Obligations.OutputInOrder : Prop :=
  ∀ s t : State, EngineFree s → s.pace = .steps 0 → step s = .next t →
    (t.outMem = s.outMem ∧ t.opos = s.opos) ∨
    (∃ v, t.outMem = Memory.write s.outMem s.opos v ∧ t.opos = s.opos + 1 ∧ t.wrCount = s.wrCount + 1)

/-- R280, the spec's decision D20: the hardware reset at any moment: the registers the spec gives are 0 and `IDLE`, `IN` and `OUT` are untouched; the
others hold free values, of which nothing is said (log entry 5). That the platform's parameters, the host's side, the read
latch and the pace stay is the model's choice (log entry 17). -/
def Obligations.HardwareReset : Prop :=
  ∀ (s : State) (rest : List HostMove), s.host = .hwReset :: rest →
    ∃ t, step s = .next t ∧ t.phase = .idle ∧ t.err = .none ∧ t.sel = 0 ∧ t.opos = 0 ∧ t.sampled = 0 ∧ t.inLen = 0 ∧
      t.inMem = s.inMem ∧ t.outMem = s.outMem ∧ t.plat = s.plat ∧ t.host = rest ∧ t.rdata = s.rdata ∧
      t.pace = s.pace ∧ statusByte t = 0

/-! ## The host registers -/

/-- R42, the spec's decisions D7, D9, D10: the layout of `STATUS`; `ECODE` is non-zero exactly in `ERROR`. -/
def Obligations.StatusLayout : Prop :=
  ∀ s : State,
    (statusByte s).extractLsb 2 0 = phaseCode s.phase ∧ (statusByte s).getLsbD 3 = false ∧
    (statusByte s).extractLsb 7 4 = errCode s.err ∧
    (Consistent s → (errCode s.err ≠ 0 ↔ phaseCode s.phase = 7))

/-- R40 to R46, the spec's decision D7: what the host reads in each register; a read changes nothing else. That the value is
latched in `rdata` is the model's choice (log entry 8). While busy the value is the one at that moment, the model's reading
of R210 (log entry 16); but `SEL` then reads as a byte of which nothing is said (R13, D31; log entries 5, 16). R112: `WAIT`
is done at `DONE` and `ERROR`, having read `STATUS`; in `IDLE` it stays pending, the model's choice (log entry 19). -/
def Obligations.HostReads : Prop :=
  ∀ (s : State) (rest : List HostMove), s.pace = .steps 0 →
    (∀ reg, s.host = .read reg :: rest →
      (reg ≠ 2 ∨ busy s = false → step s = .next { s with
        host := rest
        rdata := if reg = 1 then (phaseCode s.phase).toNat + 16 * (errCode s.err).toNat
          else if reg = 2 then s.sel.toNat else if reg = 3 then s.inLen else if reg = 4 then s.opos
          else if reg = 5 then s.sampled else 0 }) ∧
      (reg = 2 → busy s = true →
        ∃ v : Byte, step s = .next { s with host := rest, rdata := v.toNat, free := s.free + 1 })) ∧
    (s.host = .wait :: rest →
      (s.phase = .done ∨ s.phase = .error → step s = .next { s with
        host := rest, rdata := (phaseCode s.phase).toNat + 16 * (errCode s.err).toNat }) ∧
      (s.phase = .idle → step s = .next s))

/-- R40, R44, U4, U20, the spec's decisions D7 and D19: `IN_LEN` takes what the host writes unless the engine is busy; writes
of the read-only and the reserved registers are ignored. R7, U11, D5: a length that `POSW` does not allow is refused (log
entry 11). R112, R285: the host places bytes at `IN[0..]`, copies `OUT[0 .. OUT_LEN-1]` with its length, and provides an
`OUT`, of which the model changes the size only (log entry 22). R285, R290, U18: each of the three is refused while busy (log
entry 10). -/
def Obligations.HostWrites : Prop :=
  ∀ (s : State) (rest : List HostMove), s.pace = .steps 0 →
    (∀ reg v, s.host = .write reg v :: rest →
      (reg = 3 → busy s = false → lengthFits s.plat v = true → step s = .next { s with host := rest, inLen := v }) ∧
      (reg = 3 → busy s = false → lengthFits s.plat v = false → step s = .refused .lengthBeyondPosw) ∧
      (reg = 3 → busy s = true → step s = .next { s with host := rest }) ∧
      (reg ≠ 0 → reg ≠ 3 → step s = .next { s with host := rest })) ∧
    (∀ bs, s.host = .fillIn bs :: rest →
      (busy s = false → ∃ m, step s = .next { s with host := rest, inMem := m } ∧
        (Memory.wf s.inMem = true → Memory.wf m = true ∧ Memory.slice m 0 bs.length = bs ∧
          ∀ a, bs.length ≤ a → Memory.read m a = Memory.read s.inMem a)) ∧
      (busy s = true → step s = .refused .inChangedWhileBusy)) ∧
    (s.host = .copyOut :: rest →
      (busy s = false → lengthFits s.plat s.opos = true →
        ∃ m, step s = .next { s with host := rest, inMem := m, inLen := s.opos } ∧
          (Memory.wf s.inMem = true → Memory.wf m = true ∧ Memory.slice m 0 s.opos = outputBytes s ∧
            ∀ a, s.opos ≤ a → Memory.read m a = Memory.read s.inMem a)) ∧
      (busy s = false → lengthFits s.plat s.opos = false → step s = .refused .lengthBeyondPosw) ∧
      (busy s = true → step s = .refused .inChangedWhileBusy)) ∧
    (∀ size, s.host = .provideOut size :: rest →
      (busy s = false → step s = .next { s with host := rest, plat := { s.plat with outSize := size } }) ∧
      (busy s = true → step s = .refused .outChangedWhileBusy))

/-- R62, R293: the host reads a byte of the result after the command has ended; any other position, or while busy, gives a
value of which nothing is said, and changes nothing else (log entry 5; the latch is log entry 8). After another
`OUT` has been provided, that the earlier result is still read below `OUT_LEN` is the model's choice (log entry 22). -/
def Obligations.HostReadsOutput : Prop :=
  ∀ (s : State) (a : Nat) (rest : List HostMove), s.host = .readOut a :: rest → s.pace = .steps 0 →
    (busy s = false → a < s.opos →
      step s = .next { s with host := rest, rdata := (Memory.read s.outMem a).toNat }) ∧
    (busy s = true ∨ s.opos ≤ a →
      ∃ v : Byte, step s = .next { s with host := rest, rdata := v.toNat, free := s.free + 1 })
end

