-- ==== Sys2Proof/Laws/State.lean ====
section
/-! SUPPORT. What each shared update of the state does to each field, so that no later proof unfolds a record update. The
registers a hardware reset leaves unspecified (spec 70_reset_and_hazards.md R280) have no lemma: nothing is known of
them. -/

namespace Sys2Proof.Machine

variable (s : State)

@[simp] theorem raise_dp (e : ErrCode) : (raise e s).dp = s.dp := rfl
@[simp] theorem raise_hist (e : ErrCode) : (raise e s).hist = s.hist := rfl
@[simp] theorem raise_sampled (e : ErrCode) : (raise e s).sampled = s.sampled := rfl
@[simp] theorem raise_sel (e : ErrCode) : (raise e s).sel = s.sel := rfl
@[simp] theorem raise_phase (e : ErrCode) : (raise e s).phase = .error := rfl
@[simp] theorem raise_ipos (e : ErrCode) : (raise e s).ipos = s.ipos := rfl
@[simp] theorem raise_opos (e : ErrCode) : (raise e s).opos = s.opos := rfl
@[simp] theorem raise_cand (e : ErrCode) : (raise e s).cand = s.cand := rfl
@[simp] theorem raise_err (e : ErrCode) : (raise e s).err = e := rfl
@[simp] theorem raise_inLen (e : ErrCode) : (raise e s).inLen = s.inLen := rfl
@[simp] theorem raise_inMem (e : ErrCode) : (raise e s).inMem = s.inMem := rfl
@[simp] theorem raise_outMem (e : ErrCode) : (raise e s).outMem = s.outMem := rfl
@[simp] theorem raise_rdCount (e : ErrCode) : (raise e s).rdCount = s.rdCount := rfl
@[simp] theorem raise_wrCount (e : ErrCode) : (raise e s).wrCount = s.wrCount := rfl
@[simp] theorem raise_stage (e : ErrCode) : (raise e s).stage = .idle := rfl
@[simp] theorem raise_plat (e : ErrCode) : (raise e s).plat = s.plat := rfl
@[simp] theorem raise_host (e : ErrCode) : (raise e s).host = s.host := rfl
@[simp] theorem raise_rdata (e : ErrCode) : (raise e s).rdata = s.rdata := rfl
@[simp] theorem raise_pace (e : ErrCode) : (raise e s).pace = s.pace := rfl
@[simp] theorem raise_free (e : ErrCode) : (raise e s).free = s.free := rfl

@[simp] theorem passReset_dp : (passReset s).dp = Datapath.zero := rfl
@[simp] theorem passReset_hist : (passReset s).hist = s.hist := rfl
@[simp] theorem passReset_sampled : (passReset s).sampled = s.sampled := rfl
@[simp] theorem passReset_sel : (passReset s).sel = s.sel := rfl
@[simp] theorem passReset_phase : (passReset s).phase = s.phase := rfl
@[simp] theorem passReset_ipos : (passReset s).ipos = s.ipos := rfl
@[simp] theorem passReset_opos : (passReset s).opos = s.opos := rfl
@[simp] theorem passReset_cand : (passReset s).cand = s.cand := rfl
@[simp] theorem passReset_err : (passReset s).err = s.err := rfl
@[simp] theorem passReset_inLen : (passReset s).inLen = s.inLen := rfl
@[simp] theorem passReset_inMem : (passReset s).inMem = s.inMem := rfl
@[simp] theorem passReset_outMem : (passReset s).outMem = s.outMem := rfl
@[simp] theorem passReset_rdCount : (passReset s).rdCount = s.rdCount := rfl
@[simp] theorem passReset_wrCount : (passReset s).wrCount = s.wrCount := rfl
@[simp] theorem passReset_stage : (passReset s).stage = s.stage := rfl
@[simp] theorem passReset_plat : (passReset s).plat = s.plat := rfl
@[simp] theorem passReset_host : (passReset s).host = s.host := rfl
@[simp] theorem passReset_rdata : (passReset s).rdata = s.rdata := rfl
@[simp] theorem passReset_pace : (passReset s).pace = s.pace := rfl
@[simp] theorem passReset_free : (passReset s).free = s.free := rfl

@[simp] theorem histClr_dp : (histClr s).dp = s.dp := rfl
@[simp] theorem histClr_hist : (histClr s).hist = Hist.zero := rfl
@[simp] theorem histClr_sampled : (histClr s).sampled = s.sampled := rfl
@[simp] theorem histClr_sel : (histClr s).sel = s.sel := rfl
@[simp] theorem histClr_phase : (histClr s).phase = s.phase := rfl
@[simp] theorem histClr_ipos : (histClr s).ipos = s.ipos := rfl
@[simp] theorem histClr_opos : (histClr s).opos = s.opos := rfl
@[simp] theorem histClr_cand : (histClr s).cand = s.cand := rfl
@[simp] theorem histClr_err : (histClr s).err = s.err := rfl
@[simp] theorem histClr_inLen : (histClr s).inLen = s.inLen := rfl
@[simp] theorem histClr_inMem : (histClr s).inMem = s.inMem := rfl
@[simp] theorem histClr_outMem : (histClr s).outMem = s.outMem := rfl
@[simp] theorem histClr_rdCount : (histClr s).rdCount = s.rdCount := rfl
@[simp] theorem histClr_wrCount : (histClr s).wrCount = s.wrCount := rfl
@[simp] theorem histClr_stage : (histClr s).stage = s.stage := rfl
@[simp] theorem histClr_plat : (histClr s).plat = s.plat := rfl
@[simp] theorem histClr_host : (histClr s).host = s.host := rfl
@[simp] theorem histClr_rdata : (histClr s).rdata = s.rdata := rfl
@[simp] theorem histClr_pace : (histClr s).pace = s.pace := rfl
@[simp] theorem histClr_free : (histClr s).free = s.free := rfl

@[simp] theorem invocationReset_dp : (invocationReset s).dp = s.dp := rfl
@[simp] theorem invocationReset_hist : (invocationReset s).hist = s.hist := rfl
@[simp] theorem invocationReset_sampled : (invocationReset s).sampled = s.sampled := rfl
@[simp] theorem invocationReset_sel : (invocationReset s).sel = 0 := rfl
@[simp] theorem invocationReset_phase : (invocationReset s).phase = s.phase := rfl
@[simp] theorem invocationReset_ipos : (invocationReset s).ipos = 0 := rfl
@[simp] theorem invocationReset_opos : (invocationReset s).opos = 0 := rfl
@[simp] theorem invocationReset_cand : (invocationReset s).cand = s.cand := rfl
@[simp] theorem invocationReset_err : (invocationReset s).err = .none := rfl
@[simp] theorem invocationReset_inLen : (invocationReset s).inLen = s.inLen := rfl
@[simp] theorem invocationReset_inMem : (invocationReset s).inMem = s.inMem := rfl
@[simp] theorem invocationReset_outMem : (invocationReset s).outMem = s.outMem := rfl
@[simp] theorem invocationReset_rdCount : (invocationReset s).rdCount = 0 := rfl
@[simp] theorem invocationReset_wrCount : (invocationReset s).wrCount = 0 := rfl
@[simp] theorem invocationReset_stage : (invocationReset s).stage = .idle := rfl
@[simp] theorem invocationReset_plat : (invocationReset s).plat = s.plat := rfl
@[simp] theorem invocationReset_host : (invocationReset s).host = s.host := rfl
@[simp] theorem invocationReset_rdata : (invocationReset s).rdata = s.rdata := rfl
@[simp] theorem invocationReset_pace : (invocationReset s).pace = s.pace := rfl
@[simp] theorem invocationReset_free : (invocationReset s).free = s.free := rfl

@[simp] theorem launchEncode_dp : (launchEncode s).dp = s.dp := rfl
@[simp] theorem launchEncode_hist : (launchEncode s).hist = Hist.zero := rfl
@[simp] theorem launchEncode_sampled : (launchEncode s).sampled = 0 := rfl
@[simp] theorem launchEncode_sel : (launchEncode s).sel = 0 := rfl
@[simp] theorem launchEncode_phase : (launchEncode s).phase = .scan := rfl
@[simp] theorem launchEncode_ipos : (launchEncode s).ipos = 0 := rfl
@[simp] theorem launchEncode_opos : (launchEncode s).opos = 0 := rfl
@[simp] theorem launchEncode_cand : (launchEncode s).cand = s.cand := rfl
@[simp] theorem launchEncode_err : (launchEncode s).err = .none := rfl
@[simp] theorem launchEncode_inLen : (launchEncode s).inLen = s.inLen := rfl
@[simp] theorem launchEncode_inMem : (launchEncode s).inMem = s.inMem := rfl
@[simp] theorem launchEncode_outMem : (launchEncode s).outMem = s.outMem := rfl
@[simp] theorem launchEncode_rdCount : (launchEncode s).rdCount = 0 := rfl
@[simp] theorem launchEncode_wrCount : (launchEncode s).wrCount = 0 := rfl
@[simp] theorem launchEncode_stage : (launchEncode s).stage = .entry := rfl
@[simp] theorem launchEncode_plat : (launchEncode s).plat = s.plat := rfl
@[simp] theorem launchEncode_host : (launchEncode s).host = s.host := rfl
@[simp] theorem launchEncode_rdata : (launchEncode s).rdata = s.rdata := rfl
@[simp] theorem launchEncode_pace : (launchEncode s).pace = s.pace := rfl
@[simp] theorem launchEncode_free : (launchEncode s).free = s.free := rfl

@[simp] theorem launchDecode_dp : (launchDecode s).dp = s.dp := rfl
@[simp] theorem launchDecode_hist : (launchDecode s).hist = s.hist := rfl
@[simp] theorem launchDecode_sampled : (launchDecode s).sampled = s.sampled := rfl
@[simp] theorem launchDecode_sel : (launchDecode s).sel = 0 := rfl
@[simp] theorem launchDecode_phase : (launchDecode s).phase = .decHdr := rfl
@[simp] theorem launchDecode_ipos : (launchDecode s).ipos = 0 := rfl
@[simp] theorem launchDecode_opos : (launchDecode s).opos = 0 := rfl
@[simp] theorem launchDecode_cand : (launchDecode s).cand = s.cand := rfl
@[simp] theorem launchDecode_err : (launchDecode s).err = .none := rfl
@[simp] theorem launchDecode_inLen : (launchDecode s).inLen = s.inLen := rfl
@[simp] theorem launchDecode_inMem : (launchDecode s).inMem = s.inMem := rfl
@[simp] theorem launchDecode_outMem : (launchDecode s).outMem = s.outMem := rfl
@[simp] theorem launchDecode_rdCount : (launchDecode s).rdCount = 0 := rfl
@[simp] theorem launchDecode_wrCount : (launchDecode s).wrCount = 0 := rfl
@[simp] theorem launchDecode_stage : (launchDecode s).stage = .idle := rfl
@[simp] theorem launchDecode_plat : (launchDecode s).plat = s.plat := rfl
@[simp] theorem launchDecode_host : (launchDecode s).host = s.host := rfl
@[simp] theorem launchDecode_rdata : (launchDecode s).rdata = s.rdata := rfl
@[simp] theorem launchDecode_pace : (launchDecode s).pace = s.pace := rfl
@[simp] theorem launchDecode_free : (launchDecode s).free = s.free := rfl

@[simp] theorem launchUnknown_dp : (launchUnknown s).dp = s.dp := rfl
@[simp] theorem launchUnknown_hist : (launchUnknown s).hist = s.hist := rfl
@[simp] theorem launchUnknown_sampled : (launchUnknown s).sampled = s.sampled := rfl
@[simp] theorem launchUnknown_sel : (launchUnknown s).sel = 0 := rfl
@[simp] theorem launchUnknown_phase : (launchUnknown s).phase = .error := rfl
@[simp] theorem launchUnknown_ipos : (launchUnknown s).ipos = 0 := rfl
@[simp] theorem launchUnknown_opos : (launchUnknown s).opos = 0 := rfl
@[simp] theorem launchUnknown_cand : (launchUnknown s).cand = s.cand := rfl
@[simp] theorem launchUnknown_err : (launchUnknown s).err = .unknownMode := rfl
@[simp] theorem launchUnknown_inLen : (launchUnknown s).inLen = s.inLen := rfl
@[simp] theorem launchUnknown_inMem : (launchUnknown s).inMem = s.inMem := rfl
@[simp] theorem launchUnknown_outMem : (launchUnknown s).outMem = s.outMem := rfl
@[simp] theorem launchUnknown_rdCount : (launchUnknown s).rdCount = 0 := rfl
@[simp] theorem launchUnknown_wrCount : (launchUnknown s).wrCount = 0 := rfl
@[simp] theorem launchUnknown_stage : (launchUnknown s).stage = .idle := rfl
@[simp] theorem launchUnknown_plat : (launchUnknown s).plat = s.plat := rfl
@[simp] theorem launchUnknown_host : (launchUnknown s).host = s.host := rfl
@[simp] theorem launchUnknown_rdata : (launchUnknown s).rdata = s.rdata := rfl
@[simp] theorem launchUnknown_pace : (launchUnknown s).pace = s.pace := rfl
@[simp] theorem launchUnknown_free : (launchUnknown s).free = s.free := rfl

@[simp] theorem selectStep_dp : (selectStep s).dp = s.dp := rfl
@[simp] theorem selectStep_hist : (selectStep s).hist = s.hist := rfl
@[simp] theorem selectStep_sampled : (selectStep s).sampled = s.sampled := rfl
@[simp] theorem selectStep_sel : (selectStep s).sel = headerOf (selectBest s.hist) := rfl
@[simp] theorem selectStep_phase : (selectStep s).phase = .commit := rfl
@[simp] theorem selectStep_ipos : (selectStep s).ipos = s.ipos := rfl
@[simp] theorem selectStep_opos : (selectStep s).opos = s.opos := rfl
@[simp] theorem selectStep_cand : (selectStep s).cand = s.cand := rfl
@[simp] theorem selectStep_err : (selectStep s).err = s.err := rfl
@[simp] theorem selectStep_inLen : (selectStep s).inLen = s.inLen := rfl
@[simp] theorem selectStep_inMem : (selectStep s).inMem = s.inMem := rfl
@[simp] theorem selectStep_outMem : (selectStep s).outMem = s.outMem := rfl
@[simp] theorem selectStep_rdCount : (selectStep s).rdCount = s.rdCount := rfl
@[simp] theorem selectStep_wrCount : (selectStep s).wrCount = s.wrCount := rfl
@[simp] theorem selectStep_stage : (selectStep s).stage = .entry := rfl
@[simp] theorem selectStep_plat : (selectStep s).plat = s.plat := rfl
@[simp] theorem selectStep_host : (selectStep s).host = s.host := rfl
@[simp] theorem selectStep_rdata : (selectStep s).rdata = s.rdata := rfl
@[simp] theorem selectStep_pace : (selectStep s).pace = s.pace := rfl
@[simp] theorem selectStep_free : (selectStep s).free = s.free := rfl

@[simp] theorem passDone_dp : (passDone s).dp = s.dp := rfl
@[simp] theorem passDone_hist : (passDone s).hist = s.hist := rfl
@[simp] theorem passDone_sampled : (passDone s).sampled = s.sampled := rfl
@[simp] theorem passDone_sel : (passDone s).sel = s.sel := rfl
@[simp] theorem passDone_phase : (passDone s).phase = .done := rfl
@[simp] theorem passDone_ipos : (passDone s).ipos = s.ipos := rfl
@[simp] theorem passDone_opos : (passDone s).opos = s.opos := rfl
@[simp] theorem passDone_cand : (passDone s).cand = s.cand := rfl
@[simp] theorem passDone_err : (passDone s).err = s.err := rfl
@[simp] theorem passDone_inLen : (passDone s).inLen = s.inLen := rfl
@[simp] theorem passDone_inMem : (passDone s).inMem = s.inMem := rfl
@[simp] theorem passDone_outMem : (passDone s).outMem = s.outMem := rfl
@[simp] theorem passDone_rdCount : (passDone s).rdCount = s.rdCount := rfl
@[simp] theorem passDone_wrCount : (passDone s).wrCount = s.wrCount := rfl
@[simp] theorem passDone_stage : (passDone s).stage = .idle := rfl
@[simp] theorem passDone_plat : (passDone s).plat = s.plat := rfl
@[simp] theorem passDone_host : (passDone s).host = s.host := rfl
@[simp] theorem passDone_rdata : (passDone s).rdata = s.rdata := rfl
@[simp] theorem passDone_pace : (passDone s).pace = s.pace := rfl
@[simp] theorem passDone_free : (passDone s).free = s.free := rfl

@[simp] theorem beginUnits_dp (m : Nat) (block : List Byte) : (beginUnits m block s).dp = { s.dp with d := 0 } := rfl
@[simp] theorem beginUnits_hist (m : Nat) (block : List Byte) : (beginUnits m block s).hist = s.hist := rfl
@[simp] theorem beginUnits_sampled (m : Nat) (block : List Byte) : (beginUnits m block s).sampled = s.sampled + m := rfl
@[simp] theorem beginUnits_sel (m : Nat) (block : List Byte) : (beginUnits m block s).sel = s.sel := rfl
@[simp] theorem beginUnits_phase (m : Nat) (block : List Byte) : (beginUnits m block s).phase = s.phase := rfl
@[simp] theorem beginUnits_ipos (m : Nat) (block : List Byte) : (beginUnits m block s).ipos = s.ipos := rfl
@[simp] theorem beginUnits_opos (m : Nat) (block : List Byte) : (beginUnits m block s).opos = s.opos := rfl
@[simp] theorem beginUnits_cand (m : Nat) (block : List Byte) : (beginUnits m block s).cand = 0 := rfl
@[simp] theorem beginUnits_err (m : Nat) (block : List Byte) : (beginUnits m block s).err = s.err := rfl
@[simp] theorem beginUnits_inLen (m : Nat) (block : List Byte) : (beginUnits m block s).inLen = s.inLen := rfl
@[simp] theorem beginUnits_inMem (m : Nat) (block : List Byte) : (beginUnits m block s).inMem = s.inMem := rfl
@[simp] theorem beginUnits_outMem (m : Nat) (block : List Byte) : (beginUnits m block s).outMem = s.outMem := rfl
@[simp] theorem beginUnits_rdCount (m : Nat) (block : List Byte) : (beginUnits m block s).rdCount = s.rdCount := rfl
@[simp] theorem beginUnits_wrCount (m : Nat) (block : List Byte) : (beginUnits m block s).wrCount = s.wrCount := rfl
@[simp] theorem beginUnits_stage (m : Nat) (block : List Byte) : (beginUnits m block s).stage = .unit block block := rfl
@[simp] theorem beginUnits_plat (m : Nat) (block : List Byte) : (beginUnits m block s).plat = s.plat := rfl
@[simp] theorem beginUnits_host (m : Nat) (block : List Byte) : (beginUnits m block s).host = s.host := rfl
@[simp] theorem beginUnits_rdata (m : Nat) (block : List Byte) : (beginUnits m block s).rdata = s.rdata := rfl
@[simp] theorem beginUnits_pace (m : Nat) (block : List Byte) : (beginUnits m block s).pace = s.pace := rfl
@[simp] theorem beginUnits_free (m : Nat) (block : List Byte) : (beginUnits m block s).free = s.free := rfl

@[simp] theorem hwReset_sampled : (hwReset s).sampled = 0 := rfl
@[simp] theorem hwReset_sel : (hwReset s).sel = 0 := rfl
@[simp] theorem hwReset_phase : (hwReset s).phase = .idle := rfl
@[simp] theorem hwReset_opos : (hwReset s).opos = 0 := rfl
@[simp] theorem hwReset_err : (hwReset s).err = .none := rfl
@[simp] theorem hwReset_inLen : (hwReset s).inLen = 0 := rfl
@[simp] theorem hwReset_inMem : (hwReset s).inMem = s.inMem := rfl
@[simp] theorem hwReset_outMem : (hwReset s).outMem = s.outMem := rfl
@[simp] theorem hwReset_rdCount : (hwReset s).rdCount = 0 := rfl
@[simp] theorem hwReset_wrCount : (hwReset s).wrCount = 0 := rfl
@[simp] theorem hwReset_stage : (hwReset s).stage = .idle := rfl
@[simp] theorem hwReset_plat : (hwReset s).plat = s.plat := rfl
@[simp] theorem hwReset_host : (hwReset s).host = s.host := rfl
@[simp] theorem hwReset_rdata : (hwReset s).rdata = s.rdata := rfl
@[simp] theorem hwReset_pace : (hwReset s).pace = s.pace := rfl
@[simp] theorem hwReset_free : (hwReset s).free = s.free + 1 := rfl

@[simp] theorem afterRead_dp : (afterRead s).dp = s.dp := rfl
@[simp] theorem afterRead_hist : (afterRead s).hist = s.hist := rfl
@[simp] theorem afterRead_sampled : (afterRead s).sampled = s.sampled := rfl
@[simp] theorem afterRead_sel : (afterRead s).sel = s.sel := rfl
@[simp] theorem afterRead_phase : (afterRead s).phase = s.phase := rfl
@[simp] theorem afterRead_ipos : (afterRead s).ipos = s.ipos := rfl
@[simp] theorem afterRead_opos : (afterRead s).opos = s.opos := rfl
@[simp] theorem afterRead_cand : (afterRead s).cand = s.cand := rfl
@[simp] theorem afterRead_err : (afterRead s).err = s.err := rfl
@[simp] theorem afterRead_inLen : (afterRead s).inLen = s.inLen := rfl
@[simp] theorem afterRead_inMem : (afterRead s).inMem = s.inMem := rfl
@[simp] theorem afterRead_outMem : (afterRead s).outMem = s.outMem := rfl
@[simp] theorem afterRead_rdCount : (afterRead s).rdCount = s.rdCount + 1 := rfl
@[simp] theorem afterRead_wrCount : (afterRead s).wrCount = s.wrCount := rfl
@[simp] theorem afterRead_stage : (afterRead s).stage = s.stage := rfl
@[simp] theorem afterRead_plat : (afterRead s).plat = s.plat := rfl
@[simp] theorem afterRead_host : (afterRead s).host = s.host := rfl
@[simp] theorem afterRead_rdata : (afterRead s).rdata = s.rdata := rfl
@[simp] theorem afterRead_pace : (afterRead s).pace = s.pace := rfl
@[simp] theorem afterRead_free : (afterRead s).free = s.free := rfl

@[simp] theorem afterWrite_dp (v : Byte) : (afterWrite v s).dp = s.dp := rfl
@[simp] theorem afterWrite_hist (v : Byte) : (afterWrite v s).hist = s.hist := rfl
@[simp] theorem afterWrite_sampled (v : Byte) : (afterWrite v s).sampled = s.sampled := rfl
@[simp] theorem afterWrite_sel (v : Byte) : (afterWrite v s).sel = s.sel := rfl
@[simp] theorem afterWrite_phase (v : Byte) : (afterWrite v s).phase = s.phase := rfl
@[simp] theorem afterWrite_ipos (v : Byte) : (afterWrite v s).ipos = s.ipos := rfl
@[simp] theorem afterWrite_opos (v : Byte) : (afterWrite v s).opos = s.opos + 1 := rfl
@[simp] theorem afterWrite_cand (v : Byte) : (afterWrite v s).cand = s.cand := rfl
@[simp] theorem afterWrite_err (v : Byte) : (afterWrite v s).err = s.err := rfl
@[simp] theorem afterWrite_inLen (v : Byte) : (afterWrite v s).inLen = s.inLen := rfl
@[simp] theorem afterWrite_inMem (v : Byte) : (afterWrite v s).inMem = s.inMem := rfl
@[simp] theorem afterWrite_outMem (v : Byte) : (afterWrite v s).outMem = Memory.write s.outMem s.opos v := rfl
@[simp] theorem afterWrite_rdCount (v : Byte) : (afterWrite v s).rdCount = s.rdCount := rfl
@[simp] theorem afterWrite_wrCount (v : Byte) : (afterWrite v s).wrCount = s.wrCount + 1 := rfl
@[simp] theorem afterWrite_stage (v : Byte) : (afterWrite v s).stage = s.stage := rfl
@[simp] theorem afterWrite_plat (v : Byte) : (afterWrite v s).plat = s.plat := rfl
@[simp] theorem afterWrite_host (v : Byte) : (afterWrite v s).host = s.host := rfl
@[simp] theorem afterWrite_rdata (v : Byte) : (afterWrite v s).rdata = s.rdata := rfl
@[simp] theorem afterWrite_pace (v : Byte) : (afterWrite v s).pace = s.pace := rfl
@[simp] theorem afterWrite_free (v : Byte) : (afterWrite v s).free = s.free := rfl

@[simp] theorem afterWriteFault_dp : (afterWriteFault s).dp = s.dp := rfl
@[simp] theorem afterWriteFault_hist : (afterWriteFault s).hist = s.hist := rfl
@[simp] theorem afterWriteFault_sampled : (afterWriteFault s).sampled = s.sampled := rfl
@[simp] theorem afterWriteFault_sel : (afterWriteFault s).sel = s.sel := rfl
@[simp] theorem afterWriteFault_phase : (afterWriteFault s).phase = .error := rfl
@[simp] theorem afterWriteFault_ipos : (afterWriteFault s).ipos = s.ipos := rfl
@[simp] theorem afterWriteFault_opos : (afterWriteFault s).opos = s.opos := rfl
@[simp] theorem afterWriteFault_cand : (afterWriteFault s).cand = s.cand := rfl
@[simp] theorem afterWriteFault_err : (afterWriteFault s).err = .writeError := rfl
@[simp] theorem afterWriteFault_inLen : (afterWriteFault s).inLen = s.inLen := rfl
@[simp] theorem afterWriteFault_inMem : (afterWriteFault s).inMem = s.inMem := rfl
@[simp] theorem afterWriteFault_outMem : (afterWriteFault s).outMem = s.outMem := rfl
@[simp] theorem afterWriteFault_rdCount : (afterWriteFault s).rdCount = s.rdCount := rfl
@[simp] theorem afterWriteFault_wrCount : (afterWriteFault s).wrCount = s.wrCount + 1 := rfl
@[simp] theorem afterWriteFault_stage : (afterWriteFault s).stage = .idle := rfl
@[simp] theorem afterWriteFault_plat : (afterWriteFault s).plat = s.plat := rfl
@[simp] theorem afterWriteFault_host : (afterWriteFault s).host = s.host := rfl
@[simp] theorem afterWriteFault_rdata : (afterWriteFault s).rdata = s.rdata := rfl
@[simp] theorem afterWriteFault_pace : (afterWriteFault s).pace = s.pace := rfl
@[simp] theorem afterWriteFault_free : (afterWriteFault s).free = s.free := rfl

/-- `STATUS` as a number (R42). -/
theorem statusByte_toNat (s : State) :
    (statusByte s).toNat = (phaseCode s.phase).toNat + 16 * (errCode s.err).toNat := by
  unfold statusByte
  cases s.phase <;> cases s.err <;> rfl

end Sys2Proof.Machine
end

