-- ==== Sys2Proof/Laws/Filters.lean ====
section
/-! SUPPORT. The laws of the router, the filters and the byte steps made of them. -/

namespace Sys2Proof.Machine

/-! ### The router -/

/-- Inside its contract the router returns the counter's successor modulo `n` (spec 40_lane_router.md R120). -/
theorem route_of_contract {n : Nat} {d : Fin 8} (h1 : 1 ≤ n) (h8 : n ≤ 8) (hd : d.val < n) :
    ∃ l, route n d = some l ∧ l.val = (d.val + 1) % n := by
  unfold route
  rw [dif_pos ⟨h1, h8, hd⟩]
  by_cases h : d.val + 1 = n
  · exact ⟨0, by rw [dif_pos h], by rw [h, Nat.mod_self]; rfl⟩
  · refine ⟨⟨d.val + 1, by omega⟩, by rw [dif_neg h], ?_⟩
    rw [Nat.mod_eq_of_lt (by omega)]

/-- A lane the router returns is below the channel count. -/
theorem route_lt {n : Nat} {d l : Fin 8} (h : route n d = some l) : l.val < n ∧ 1 ≤ n ∧ n ≤ 8 := by
  unfold route at h
  split at h
  · rename_i hc
    split at h
    · cases h; exact ⟨hc.1, hc.1, hc.2.1⟩
    · cases h; exact ⟨by simp only; omega, hc.1, hc.2.1⟩
  · cases h

/-! ### The filters touch the lane counter not at all -/

@[simp] theorem deltaFwd_d (l : Fin 8) (b : Byte) (p : Datapath) : (deltaFwd l b p).2.d = p.d := rfl
@[simp] theorem deltaInv_d (l : Fin 8) (b : Byte) (p : Datapath) : (deltaInv l b p).2.d = p.d := rfl
@[simp] theorem adaptFwd_d (l : Fin 8) (b : Byte) (p : Datapath) : (adaptFwd l b p).2.d = p.d := rfl
@[simp] theorem adaptInv_d (l : Fin 8) (b : Byte) (p : Datapath) : (adaptInv l b p).2.d = p.d := rfl
@[simp] theorem deltaFwd_weight (l : Fin 8) (b : Byte) (p : Datapath) :
    (deltaFwd l b p).2.weight = p.weight := rfl
@[simp] theorem deltaInv_weight (l : Fin 8) (b : Byte) (p : Datapath) :
    (deltaInv l b p).2.weight = p.weight := rfl
@[simp] theorem adaptFwd_weight (l : Fin 8) (b : Byte) (p : Datapath) :
    (adaptFwd l b p).2.weight = wupd (adaptFwd l b p).1 p.weight := rfl
@[simp] theorem adaptInv_weight (l : Fin 8) (e : Byte) (p : Datapath) :
    (adaptInv l e p).2.weight = wupd e p.weight := rfl

/-- The range of the weight is kept (R147). -/
theorem wupd_range (e : Byte) {w : Int} (h : -Config.wmax ≤ w ∧ w ≤ Config.wmax) :
    -Config.wmax ≤ wupd e w ∧ wupd e w ≤ Config.wmax := by
  unfold wupd
  simp only [Config.wmax, Config.centre] at *
  split_ifs <;> omega

/-! ### One byte through a method -/

theorem routed_eq {n : Nat} {l : Fin 8} (f : Fin 8 → Byte → Datapath → Byte × Datapath) (b : Byte) {p : Datapath}
    (h : route n p.d = some l) : routed n f b p = some (f l b { p with d := l }) := by
  unfold routed
  rw [h]

/-- A filter that leaves the lane counter alone. -/
def KeepsLane (f : Fin 8 → Byte → Datapath → Byte × Datapath) : Prop :=
  ∀ l b p, (f l b p).2.d = p.d

/-- A filter that keeps the range of the weight. -/
def KeepsWeight (f : Fin 8 → Byte → Datapath → Byte × Datapath) : Prop :=
  ∀ l b p, (-Config.wmax ≤ p.weight ∧ p.weight ≤ Config.wmax) →
    -Config.wmax ≤ (f l b p).2.weight ∧ (f l b p).2.weight ≤ Config.wmax

/-- What one byte step guarantees where the lane counter fits: it succeeds, the counter still fits, and the weight
stays in range. -/
def StepOk (n : Nat) (f : ByteStep) : Prop :=
  ∀ b p, laneFits n p.d → ∃ r p', f b p = some (r, p') ∧ laneFits n p'.d ∧
    ((-Config.wmax ≤ p.weight ∧ p.weight ≤ Config.wmax) →
      -Config.wmax ≤ p'.weight ∧ p'.weight ≤ Config.wmax)

theorem plainStep_ok : StepOk 0 plainStep := by
  intro b p h
  exact ⟨b, p, rfl, h, id⟩

theorem routed_ok {n : Nat} {f : Fin 8 → Byte → Datapath → Byte × Datapath} (h1 : 1 ≤ n) (hl : KeepsLane f)
    (hw : KeepsWeight f) : StepOk n (routed n f) := by
  intro b p h
  rcases h with h | ⟨h8, hd⟩
  · omega
  · obtain ⟨l, hr, -⟩ := route_of_contract h1 h8 hd
    refine ⟨_, _, routed_eq f b hr, Or.inr ⟨h8, ?_⟩, hw l b { p with d := l }⟩
    rw [hl]
    exact (route_lt hr).1

theorem deltaFwd_keeps : KeepsLane deltaFwd ∧ KeepsWeight deltaFwd :=
  ⟨fun _ _ _ => rfl, fun _ _ _ h => h⟩
theorem deltaInv_keeps : KeepsLane deltaInv ∧ KeepsWeight deltaInv :=
  ⟨fun _ _ _ => rfl, fun _ _ _ h => h⟩
theorem adaptFwd_keeps : KeepsLane adaptFwd ∧ KeepsWeight adaptFwd :=
  ⟨fun _ _ _ => rfl, fun _ _ _ h => wupd_range _ h⟩
theorem adaptInv_keeps : KeepsLane adaptInv ∧ KeepsWeight adaptInv :=
  ⟨fun _ _ _ => rfl, fun _ _ _ h => wupd_range _ h⟩

/-- The channel count of a method with a filter is at least 1 (R92). -/
theorem candAt_channels (k : Fin 15) : (candAt k).fam ≠ .identity → 1 ≤ (candAt k).n := by
  revert k; decide

theorem candAt_identity (k : Fin 15) : (candAt k).fam = .identity → (candAt k).n = 0 := by
  revert k; decide

theorem candAt_le (k : Fin 15) : (candAt k).n ≤ 8 := by revert k; decide

theorem xbyteFwd_ok (k : Fin 15) : StepOk (candAt k).n (xbyteFwd k) := by
  unfold xbyteFwd
  split
  · rename_i h
    rw [candAt_identity k h]
    exact plainStep_ok
  · rename_i h
    exact routed_ok (candAt_channels k (by simp [h])) deltaFwd_keeps.1 deltaFwd_keeps.2
  · rename_i h
    exact routed_ok (candAt_channels k (by simp [h])) adaptFwd_keeps.1 adaptFwd_keeps.2

theorem xbyteInv_ok (k : Fin 15) : StepOk (candAt k).n (xbyteInv k) := by
  unfold xbyteInv
  split
  · rename_i h
    rw [candAt_identity k h]
    exact plainStep_ok
  · rename_i h
    exact routed_ok (candAt_channels k (by simp [h])) deltaInv_keeps.1 deltaInv_keeps.2
  · rename_i h
    exact routed_ok (candAt_channels k (by simp [h])) adaptInv_keeps.1 adaptInv_keeps.2

/-- A lane counter at 0 fits every method. -/
theorem laneFits_zero (k : Fin 15) : laneFits (candAt k).n 0 := by
  rcases Nat.eq_zero_or_pos (candAt k).n with h | h
  · exact Or.inl h
  · exact Or.inr ⟨candAt_le k, h⟩

/-! ### A byte sequence through a method -/

theorem runBytes_cons {f : ByteStep} {b r : Byte} {rest rs : List Byte} {p p' p'' : Datapath}
    (h : f b p = some (r, p')) (hs : runBytes f rest p' = some (rs, p'')) :
    runBytes f (b :: rest) p = some (r :: rs, p'') := by
  simp only [runBytes, h, hs]

/-- A byte sequence through a step that succeeds: one result for each byte, and what the step keeps is kept. -/
theorem runBytes_ok {n : Nat} {f : ByteStep} (hf : StepOk n f) (bs : List Byte) (p : Datapath)
    (h : laneFits n p.d) :
    ∃ rs p', runBytes f bs p = some (rs, p') ∧ rs.length = bs.length ∧ laneFits n p'.d ∧
      ((-Config.wmax ≤ p.weight ∧ p.weight ≤ Config.wmax) →
        -Config.wmax ≤ p'.weight ∧ p'.weight ≤ Config.wmax) := by
  induction bs generalizing p with
  | nil => exact ⟨[], p, rfl, rfl, h, id⟩
  | cons b rest ih =>
    obtain ⟨r, p', h1, h2, h3⟩ := hf b p h
    obtain ⟨rs, p'', h4, h5, h6, h7⟩ := ih p' h2
    exact ⟨r :: rs, p'', runBytes_cons h1 h4, by simp [h5], h6, fun hw => h7 (h3 hw)⟩

/-- The result of a sequence does not depend on where it is cut (R209). -/
theorem runBytes_append {f : ByteStep} {xs ys rs rs' : List Byte} {p p' p'' : Datapath}
    (h : runBytes f xs p = some (rs, p')) (h' : runBytes f ys p' = some (rs', p'')) :
    runBytes f (xs ++ ys) p = some (rs ++ rs', p'') := by
  induction xs generalizing p rs with
  | nil =>
    simp only [runBytes, Option.some.injEq, Prod.mk.injEq] at h
    obtain ⟨rfl, rfl⟩ := h
    exact h'
  | cons x xs ih =>
    simp only [runBytes] at h
    split at h
    · cases h
    · rename_i r q hq
      split at h
      · cases h
      · rename_i ts q' hq'
        simp only [Option.some.injEq, Prod.mk.injEq] at h
        obtain ⟨rfl, rfl⟩ := h
        exact runBytes_cons hq (ih hq')

theorem runBytes_length {f : ByteStep} {bs rs : List Byte} {p p' : Datapath}
    (h : runBytes f bs p = some (rs, p')) : rs.length = bs.length := by
  induction bs generalizing p rs with
  | nil =>
    simp only [runBytes, Option.some.injEq, Prod.mk.injEq] at h
    simp [← h.1]
  | cons b rest ih =>
    simp only [runBytes] at h
    split at h
    · cases h
    · rename_i r q hq
      split at h
      · cases h
      · rename_i ts q' hq'
        simp only [Option.some.injEq, Prod.mk.injEq] at h
        obtain ⟨rfl, rfl⟩ := h
        simp [ih hq']

end Sys2Proof.Machine
end

