-- ==== Sys2Proof/Laws/Histogram.lean ====
section
/-! SUPPORT. The laws of the histogram store and of the selection's scan. -/

namespace Sys2Proof.Machine

/-- A list's sum after one entry is replaced. -/
theorem sum_set_add (l : List Nat) (i : Nat) (h : i < l.length) (x : Nat) :
    (l.set i x).sum + l[i] = l.sum + x := by
  induction l generalizing i with
  | nil => simp at h
  | cons a rest ih =>
    cases i with
    | zero => simp only [List.set_cons_zero, List.sum_cons, List.getElem_cons_zero]; omega
    | succ i =>
      simp only [List.set_cons_succ, List.sum_cons, List.getElem_cons_succ]
      have := ih i (by simpa using h)
      omega

/-- Counting a byte adds 1 to the total of the one histogram and leaves the others alone (R161, R162). -/
theorem histTotal_acc (k j : Fin 15) (v : Byte) (h : Hist) :
    histTotal (histAcc k v h)[j] = histTotal h[j] + if j = k then 1 else 0 := by
  unfold histAcc
  by_cases hjk : j = k
  · subst hjk
    have hs := sum_set_add (h[j]).toList v.toNat (by simpa using v.isLt) (histAt h j v + 1)
    simp only [Vector.getElem_toList] at hs
    simp only [Fin.getElem_fin, Vector.getElem_set_self, if_true, histTotal, Vector.toList_set]
    unfold histAt at hs ⊢
    simp only [Fin.getElem_fin] at hs ⊢
    omega
  · have hne : k.val ≠ j.val := fun e => hjk (Fin.ext e.symm)
    simp only [Fin.getElem_fin, Vector.getElem_set_ne _ _ hne, if_neg hjk, Nat.add_zero]

theorem histTotal_zero (k : Fin 15) : histTotal Hist.zero[k] = 0 := by
  unfold histTotal Hist.zero
  rw [Fin.getElem_fin, Vector.getElem_replicate, Vector.toList_replicate, List.sum_replicate]
  rfl

/-- The counter of one symbol after a count (R161). -/
theorem histAt_acc (k j : Fin 15) (v u : Byte) (h : Hist) :
    histAt (histAcc k v h) j u = histAt h j u + if j = k ∧ u = v then 1 else 0 := by
  unfold histAt histAcc
  by_cases hjk : j = k
  · subst hjk
    by_cases huv : u = v
    · subst huv
      simp [histAt]
    · have hne : v.toNat ≠ u.toNat := fun e => huv (BitVec.eq_of_toNat_eq e.symm)
      simp [hne, huv]
  · have hne : k.val ≠ j.val := fun e => hjk (Fin.ext e.symm)
    simp [hne, hjk]

/-- What the scan of `SELECT` returns: no candidate it looked at, nor the best before, has a greater score; and it is the
best before, or a later candidate that beats strictly everything before it (R183, R184). -/
theorem selectFrom_ge (h : Hist) (best : Fin 15) (ks : List (Fin 15)) :
    score h[best] ≤ score h[selectFrom h best (score h[best]) ks] ∧
      ∀ k ∈ ks, score h[k] ≤ score h[selectFrom h best (score h[best]) ks] := by
  induction ks generalizing best with
  | nil => simp [selectFrom]
  | cons k rest ih =>
    unfold selectFrom
    split
    · rename_i hlt
      obtain ⟨h1, h2⟩ := ih k
      refine ⟨by omega, ?_⟩
      intro j hj
      rcases List.mem_cons.mp hj with rfl | hj
      · exact h1
      · exact h2 j hj
    · rename_i hge
      obtain ⟨h1, h2⟩ := ih best
      refine ⟨h1, ?_⟩
      intro j hj
      rcases List.mem_cons.mp hj with rfl | hj
      · omega
      · exact h2 j hj

end Sys2Proof.Machine
end

