-- ==== Sys2Proof/Laws/Engine.lean ====
section
/-! SUPPORT. One equation for each place the engine can stand at, the bound on how long a command still runs, and how runs
compose. Later proofs cite these instead of unfolding the engine. -/

namespace Sys2Proof.Machine

/-! ### Results -/

@[simp] theorem andThen_next (s : State) (k : State → Result) : Result.andThen (.next s) k = k s := rfl
@[simp] theorem andThen_fault (f : Fault) (k : State → Result) : Result.andThen (.fault f) k = .fault f := rfl
@[simp] theorem andThen_refused (r : Refusal) (k : State → Result) :
    Result.andThen (.refused r) k = .refused r := rfl

theorem andThen_assoc (r : Result) (f g : State → Result) :
    Result.andThen (Result.andThen r f) g = Result.andThen r (fun s => Result.andThen (f s) g) := by
  cases r <;> rfl

/-- If a sequence has a next state, its first part has one. -/
theorem andThen_eq_next {r : Result} {k : State → Result} {t : State} (h : Result.andThen r k = .next t) :
    ∃ s, r = .next s ∧ k s = .next t := by
  cases r with
  | next s => exact ⟨s, rfl, h⟩
  | fault f => cases h
  | refused f => cases h

/-! ### The method in use -/

/-- The header byte of a candidate is decoded to an instruction whose use is the table-driven one (R93, R199, R200). -/
theorem use_header (k : Fin 15) :
    ∃ i, decode .hdr (headerOf k) = .ok i ∧
      ∀ s, useInstr i s = useMethod k (xbyteFwd k) (xbyteInv k) s := by
  fin_cases k
  · exact ⟨.id, rfl, fun _ => rfl⟩
  · exact ⟨.d1, rfl, fun _ => rfl⟩
  · exact ⟨.d2, rfl, fun _ => rfl⟩
  · exact ⟨.d3, rfl, fun _ => rfl⟩
  · exact ⟨.d4, rfl, fun _ => rfl⟩
  · exact ⟨.d5, rfl, fun _ => rfl⟩
  · exact ⟨.d6, rfl, fun _ => rfl⟩
  · exact ⟨.d7, rfl, fun _ => rfl⟩
  · exact ⟨.d8, rfl, fun _ => rfl⟩
  · exact ⟨.d1b, rfl, fun _ => rfl⟩
  · exact ⟨.a2, rfl, fun _ => rfl⟩
  · exact ⟨.a3, rfl, fun _ => rfl⟩
  · exact ⟨.a4, rfl, fun _ => rfl⟩
  · exact ⟨.a6, rfl, fun _ => rfl⟩
  · exact ⟨.a8, rfl, fun _ => rfl⟩

@[simp] theorem headerOf_toNat (k : Fin 15) : (headerOf k).toNat = k.val := by
  revert k; decide

/-- A byte decodes as a header exactly when it is below 15, and then it is the header of the candidate it names (R91). -/
theorem decode_header (h : Byte) :
    (∃ k : Fin 15, h = headerOf k) ∨ (15 ≤ h.toNat ∧ decode .hdr h = .error (.badHeader h)) := by
  by_cases hlt : h.toNat < 15
  · left
    exact ⟨⟨h.toNat, hlt⟩, by simp [headerOf]⟩
  · right
    refine ⟨by omega, ?_⟩
    show decodeHeader h = _
    unfold decodeHeader
    split <;> first | omega | rfl

/-! ### The places of the engine -/

section Places

variable {s : State}

theorem engineStep_scan_entry (hp : s.phase = .scan) (hs : s.stage = .entry) :
    engineStep s = .next { passReset s with ipos := 0, stage := .loop } := by
  simp [engineStep, engineFetch, methodInUse, sequence, scanStep, hp, hs]

theorem engineStep_scan_loop (hp : s.phase = .scan) (hs : s.stage = .loop) :
    engineStep s = loopHead s { s with phase := .select, stage := .idle } := by
  simp [engineStep, engineFetch, methodInUse, sequence, scanStep, hp, hs]

theorem engineStep_scan_read {j m : Nat} {rbuf : List Byte} (hp : s.phase = .scan)
    (hs : s.stage = .read j m rbuf) :
    engineStep s = readOne j m rbuf s fun block s' => .next (beginUnits m block s') := by
  simp [engineStep, engineFetch, methodInUse, sequence, scanStep, hp, hs]

theorem engineStep_scan_unit_nil {block : List Byte} (hp : s.phase = .scan) (hs : s.stage = .unit block []) :
    engineStep s = .next (endUnit block s) := by
  simp [engineStep, engineFetch, methodInUse, sequence, scanStep, hp, hs]

theorem engineStep_scan_unit {block todo : List Byte} {b : Byte} (hp : s.phase = .scan)
    (hs : s.stage = .unit block (b :: todo)) :
    engineStep s = applyByte (xbyteFwd s.cand) b s fun r p =>
      .next { s with dp := p, hist := histAcc s.cand r s.hist, stage := .unit block todo } := by
  obtain ⟨i, hd, hu⟩ := use_header s.cand
  have hm : methodInUse s = some (headerOf s.cand) := by simp [methodInUse, hp, hs]
  simp only [engineStep, engineFetch, hm, hd, hu, useMethod, hp, hs]

theorem engineStep_select (hp : s.phase = .select) : engineStep s = .next (selectStep s) := by
  have hm : methodInUse s = none := by simp [methodInUse, hp]
  simp [engineStep, engineFetch, hm, sequence, hp]

theorem engineStep_commit_entry (hp : s.phase = .commit) (hs : s.stage = .entry) :
    engineStep s = .next { passReset s with ipos := 0, stage := .header } := by
  simp [engineStep, engineFetch, methodInUse, sequence, commitStep, hp, hs]

theorem engineStep_commit_header (hp : s.phase = .commit) (hs : s.stage = .header) :
    engineStep s = memWrite s.sel s fun s' => .next { s' with stage := .loop } := by
  simp [engineStep, engineFetch, methodInUse, sequence, commitStep, hp, hs]

theorem engineStep_xfer_loop (hp : s.phase = .commit ∨ s.phase = .decBody) (hs : s.stage = .loop) :
    engineStep s = loopHead s (passDone s) := by
  rcases hp with hp | hp <;>
    simp [engineStep, engineFetch, methodInUse, sequence, commitStep, transferStep, hp, hs]

theorem engineStep_xfer_read {j m : Nat} {rbuf : List Byte} (hp : s.phase = .commit ∨ s.phase = .decBody)
    (hs : s.stage = .read j m rbuf) :
    engineStep s = readOne j m rbuf s fun block s' => .next { s' with stage := .xform block [] } := by
  rcases hp with hp | hp <;>
    simp [engineStep, engineFetch, methodInUse, sequence, commitStep, transferStep, hp, hs]

theorem engineStep_xfer_xform_nil {rdone : List Byte} (hp : s.phase = .commit ∨ s.phase = .decBody)
    (hs : s.stage = .xform [] rdone) : engineStep s = .next { s with stage := .write rdone.reverse } := by
  rcases hp with hp | hp <;>
    simp [engineStep, engineFetch, methodInUse, sequence, commitStep, transferStep, hp, hs]

theorem engineStep_xfer_write {b : Byte} {todo : List Byte} (hp : s.phase = .commit ∨ s.phase = .decBody)
    (hs : s.stage = .write (b :: todo)) :
    engineStep s = memWrite b s fun s' => .next { s' with stage := .write todo } := by
  rcases hp with hp | hp <;>
    simp [engineStep, engineFetch, methodInUse, sequence, commitStep, transferStep, hp, hs]

theorem engineStep_xfer_write_nil (hp : s.phase = .commit ∨ s.phase = .decBody) (hs : s.stage = .write []) :
    engineStep s = .next { s with stage := .loop } := by
  rcases hp with hp | hp <;>
    simp [engineStep, engineFetch, methodInUse, sequence, commitStep, transferStep, hp, hs]

theorem engineStep_commit_xform {k : Fin 15} {b : Byte} {todo rdone : List Byte} (hp : s.phase = .commit)
    (hs : s.stage = .xform (b :: todo) rdone) (hk : s.sel = headerOf k) :
    engineStep s = applyByte (xbyteFwd k) b s fun r p =>
      .next { s with dp := p, stage := .xform todo (r :: rdone) } := by
  obtain ⟨i, hd, hu⟩ := use_header k
  have hm : methodInUse s = some (headerOf k) := by simp [methodInUse, hp, hs, hk]
  simp only [engineStep, engineFetch, hm, hd, hu, useMethod, hp, hs]

theorem engineStep_decBody_xform {k : Fin 15} {b : Byte} {todo rdone : List Byte} (hp : s.phase = .decBody)
    (hs : s.stage = .xform (b :: todo) rdone) (hk : s.sel = headerOf k) :
    engineStep s = applyByte (xbyteInv k) b s fun r p =>
      .next { s with dp := p, stage := .xform todo (r :: rdone) } := by
  obtain ⟨i, hd, hu⟩ := use_header k
  have hm : methodInUse s = some (headerOf k) := by simp [methodInUse, hp, hs, hk]
  simp only [engineStep, engineFetch, hm, hd, hu, useMethod, hp, hs]

/-- `DEC_HDR` as one transition (R203). -/
theorem engineStep_decHdr (hp : s.phase = .decHdr) :
    engineStep s =
      if s.inLen = 0 then .next (raise .headerMissing s)
      else if rdFault s.plat s.rdCount 0 then .next (raise .readError (afterRead s))
      else
        let s' := { afterRead s with ipos := 1, sel := Memory.read s.inMem 0 }
        if (Memory.read s.inMem 0).toNat < 15 then .next { passReset s' with phase := .decBody, stage := .loop }
        else .next (raise .badHeader s') := by
  have hm : methodInUse s = none := by simp [methodInUse, hp]
  unfold engineStep engineFetch
  rw [hm]
  simp only [hp, if_true]
  unfold fetchHeader
  by_cases hl : s.inLen = 0
  · simp only [if_pos hl]
  · rw [if_neg hl, if_neg hl]
    by_cases hf : rdFault s.plat s.rdCount 0 = true
    · simp only [if_pos hf]
    · rw [if_neg hf, if_neg hf]
      rcases decode_header (Memory.read s.inMem 0) with ⟨k, hk⟩ | ⟨hge, he⟩
      · obtain ⟨i, hd, hu⟩ := use_header k
        have hlt : (Memory.read s.inMem 0).toNat < 15 := by rw [hk]; simp
        simp only [hk] at hd hlt ⊢
        simp only [hd, hu, if_pos hlt]
        unfold useMethod
        simp only [afterRead, hp]
      · simp only [he]
        rw [if_neg (by omega)]

end Places

end Sys2Proof.Machine
end

