-- ==== Sys2Proof/Laws/Moves.lean ====
section
/-! SUPPORT. Everything one transition of the engine can do, said once as an inductive relation, and what follows for runs:
the work bound falls with every transition (spec 44_method_selector.md R182, 70_reset_and_hazards.md R284), and a run of
that length ends in a rest phase. -/

namespace Sys2Proof.Machine

/-- A full pass is in progress. -/
def inTransfer (s : State) : Prop := s.phase = .commit ∨ s.phase = .decBody

/-- A pass with a block loop is in progress. -/
def inLoop (s : State) : Prop := s.phase = .scan ∨ inTransfer s

/-- The transitions of the engine. -/
inductive EngineMove (s : State) : State → Prop where
  | scanEntry (hp : s.phase = .scan) (hs : s.stage = .entry) :
      EngineMove s { passReset s with ipos := 0, stage := .loop }
  | scanEnd (hp : s.phase = .scan) (hs : s.stage = .loop) (h0 : blockLength s = 0) :
      EngineMove s { s with phase := .select, stage := .idle }
  | passEnd (hp : inTransfer s) (hs : s.stage = .loop) (h0 : blockLength s = 0) :
      EngineMove s (passDone s)
  | blockBegin (hp : inLoop s) (hs : s.stage = .loop) (h0 : blockLength s ≠ 0) :
      EngineMove s { s with stage := .read 0 (blockLength s) [] }
  | readFault (j m : Nat) (rbuf : List Byte) (hp : inLoop s) (hs : s.stage = .read j m rbuf)
      (ha : s.ipos + j < s.inLen) (hf : rdFault s.plat s.rdCount (s.ipos + j) = true) :
      EngineMove s (raise .readError (afterRead s))
  | readMore (j m : Nat) (rbuf : List Byte) (hp : inLoop s) (hs : s.stage = .read j m rbuf)
      (ha : s.ipos + j < s.inLen) (hf : rdFault s.plat s.rdCount (s.ipos + j) = false) (hj : j + 1 < m) :
      EngineMove s { afterRead s with stage := .read (j + 1) m (Memory.read s.inMem (s.ipos + j) :: rbuf) }
  | unitsBegin (j m : Nat) (rbuf : List Byte) (hp : s.phase = .scan) (hs : s.stage = .read j m rbuf)
      (ha : s.ipos + j < s.inLen) (hf : rdFault s.plat s.rdCount (s.ipos + j) = false) (hj : ¬ j + 1 < m) :
      EngineMove s (beginUnits m (Memory.read s.inMem (s.ipos + j) :: rbuf).reverse
        { afterRead s with ipos := s.ipos + m })
  | xformBegin (j m : Nat) (rbuf : List Byte) (hp : inTransfer s) (hs : s.stage = .read j m rbuf)
      (ha : s.ipos + j < s.inLen) (hf : rdFault s.plat s.rdCount (s.ipos + j) = false) (hj : ¬ j + 1 < m) :
      EngineMove s { afterRead s with
        ipos := s.ipos + m, stage := .xform (Memory.read s.inMem (s.ipos + j) :: rbuf).reverse [] }
  | unitByte (block todo : List Byte) (b r : Byte) (p : Datapath) (hp : s.phase = .scan)
      (hs : s.stage = .unit block (b :: todo)) (hx : xbyteFwd s.cand b s.dp = some (r, p)) :
      EngineMove s { s with dp := p, hist := histAcc s.cand r s.hist, stage := .unit block todo }
  | unitEnd (block : List Byte) (hp : s.phase = .scan) (hs : s.stage = .unit block []) :
      EngineMove s (endUnit block s)
  | select (hp : s.phase = .select) : EngineMove s (selectStep s)
  | commitEntry (hp : s.phase = .commit) (hs : s.stage = .entry) :
      EngineMove s { passReset s with ipos := 0, stage := .header }
  | headerFault (hp : s.phase = .commit) (hs : s.stage = .header)
      (hf : wrFault s.plat s.wrCount s.opos = true) : EngineMove s (afterWriteFault s)
  | headerWrite (hp : s.phase = .commit) (hs : s.stage = .header)
      (hf : wrFault s.plat s.wrCount s.opos = false) :
      EngineMove s { afterWrite s.sel s with stage := .loop }
  | fwdByte (k : Fin 15) (todo rdone : List Byte) (b r : Byte) (p : Datapath) (hp : s.phase = .commit)
      (hs : s.stage = .xform (b :: todo) rdone) (hk : s.sel = headerOf k)
      (hx : xbyteFwd k b s.dp = some (r, p)) :
      EngineMove s { s with dp := p, stage := .xform todo (r :: rdone) }
  | invByte (k : Fin 15) (todo rdone : List Byte) (b r : Byte) (p : Datapath) (hp : s.phase = .decBody)
      (hs : s.stage = .xform (b :: todo) rdone) (hk : s.sel = headerOf k)
      (hx : xbyteInv k b s.dp = some (r, p)) :
      EngineMove s { s with dp := p, stage := .xform todo (r :: rdone) }
  | xformEnd (rdone : List Byte) (hp : inTransfer s) (hs : s.stage = .xform [] rdone) :
      EngineMove s { s with stage := .write rdone.reverse }
  | writeFault (b : Byte) (todo : List Byte) (hp : inTransfer s) (hs : s.stage = .write (b :: todo))
      (hf : wrFault s.plat s.wrCount s.opos = true) : EngineMove s (afterWriteFault s)
  | writeByte (b : Byte) (todo : List Byte) (hp : inTransfer s) (hs : s.stage = .write (b :: todo))
      (hf : wrFault s.plat s.wrCount s.opos = false) :
      EngineMove s { afterWrite b s with stage := .write todo }
  | writeEnd (hp : inTransfer s) (hs : s.stage = .write []) : EngineMove s { s with stage := .loop }
  | headerMissing (hp : s.phase = .decHdr) (h0 : s.inLen = 0) : EngineMove s (raise .headerMissing s)
  | headerReadFault (hp : s.phase = .decHdr) (h0 : s.inLen ≠ 0) (hf : rdFault s.plat s.rdCount 0 = true) :
      EngineMove s (raise .readError (afterRead s))
  | badHeader (hp : s.phase = .decHdr) (h0 : s.inLen ≠ 0) (hf : rdFault s.plat s.rdCount 0 = false)
      (hh : 15 ≤ (Memory.read s.inMem 0).toNat) :
      EngineMove s (raise .badHeader { afterRead s with ipos := 1, sel := Memory.read s.inMem 0 })
  | bodyBegin (k : Fin 15) (hp : s.phase = .decHdr) (h0 : s.inLen ≠ 0)
      (hf : rdFault s.plat s.rdCount 0 = false) (hk : Memory.read s.inMem 0 = headerOf k) :
      EngineMove s { passReset { afterRead s with ipos := 1, sel := headerOf k } with
        phase := .decBody, stage := .loop }

/-! ### The shared operations, inverted -/

theorem loopHead_next {s e t : State} (h : loopHead s e = .next t) :
    (blockLength s = 0 ∧ t = e) ∨
      (blockLength s ≠ 0 ∧ t = { s with stage := .read 0 (blockLength s) [] }) := by
  unfold loopHead at h
  split at h
  · exact Or.inl ⟨‹_›, by simpa using h.symm⟩
  · exact Or.inr ⟨‹_›, by simpa using h.symm⟩

theorem memRead_next {a : Nat} {s t : State} {k : Byte → State → Result} (h : memRead a s k = .next t) :
    a < s.inLen ∧ ((rdFault s.plat s.rdCount a = true ∧ t = raise .readError (afterRead s)) ∨
      (rdFault s.plat s.rdCount a = false ∧ k (Memory.read s.inMem a) (afterRead s) = .next t)) := by
  unfold memRead at h
  split at h
  · cases h
  · refine ⟨by omega, ?_⟩
    split at h
    · rename_i hf
      exact Or.inl ⟨hf, by cases h; rfl⟩
    · rename_i hf
      exact Or.inr ⟨by simpa using hf, h⟩

theorem memWrite_next {v : Byte} {s t : State} {k : State → Result} (h : memWrite v s k = .next t) :
    (wrFault s.plat s.wrCount s.opos = true ∧ t = afterWriteFault s) ∨
      (wrFault s.plat s.wrCount s.opos = false ∧ k (afterWrite v s) = .next t) := by
  unfold memWrite at h
  split at h
  · rename_i hf
    exact Or.inl ⟨hf, by cases h; rfl⟩
  · rename_i hf
    exact Or.inr ⟨by simpa using hf, h⟩

theorem readOne_next {j m : Nat} {rbuf : List Byte} {s t : State} {w : List Byte → State → Result}
    (h : readOne j m rbuf s w = .next t) :
    s.ipos + j < s.inLen ∧
      ((rdFault s.plat s.rdCount (s.ipos + j) = true ∧ t = raise .readError (afterRead s)) ∨
       (rdFault s.plat s.rdCount (s.ipos + j) = false ∧ j + 1 < m ∧
          t = { afterRead s with stage := .read (j + 1) m (Memory.read s.inMem (s.ipos + j) :: rbuf) }) ∨
       (rdFault s.plat s.rdCount (s.ipos + j) = false ∧ ¬ j + 1 < m ∧
          w (Memory.read s.inMem (s.ipos + j) :: rbuf).reverse { afterRead s with ipos := s.ipos + m }
            = .next t)) := by
  unfold readOne at h
  obtain ⟨ha, h⟩ := memRead_next h
  refine ⟨ha, ?_⟩
  rcases h with h | ⟨hf, h⟩
  · exact Or.inl h
  · right
    split at h
    · exact Or.inl ⟨hf, ‹_›, by simpa using h.symm⟩
    · exact Or.inr ⟨hf, ‹_›, h⟩

theorem applyByte_next {f : ByteStep} {b : Byte} {s t : State} {k : Byte → Datapath → Result}
    (h : applyByte f b s k = .next t) : ∃ r p, f b s.dp = some (r, p) ∧ k r p = .next t := by
  unfold applyByte at h
  split at h
  · exact ⟨_, _, ‹_›, h⟩
  · cases h

/-! ### A transition is one of the moves -/

theorem engineMove_scan {s t : State} (hp : s.phase = .scan) (h : engineStep s = .next t) : EngineMove s t := by
  cases hs : s.stage with
  | entry =>
    rw [engineStep_scan_entry hp hs] at h
    cases h
    exact .scanEntry hp hs
  | loop =>
    rw [engineStep_scan_loop hp hs] at h
    rcases loopHead_next h with ⟨h0, rfl⟩ | ⟨h0, rfl⟩
    · exact .scanEnd hp hs h0
    · exact .blockBegin (Or.inl hp) hs h0
  | read j m rbuf =>
    rw [engineStep_scan_read hp hs] at h
    obtain ⟨ha, ⟨hf, rfl⟩ | ⟨hf, hj, rfl⟩ | ⟨hf, hj, h⟩⟩ := readOne_next h
    · exact .readFault j m rbuf (Or.inl hp) hs ha hf
    · exact .readMore j m rbuf (Or.inl hp) hs ha hf hj
    · cases h
      exact .unitsBegin j m rbuf hp hs ha hf hj
  | unit block todo =>
    cases todo with
    | nil =>
      rw [engineStep_scan_unit_nil hp hs] at h
      cases h
      exact .unitEnd block hp hs
    | cons b todo =>
      rw [engineStep_scan_unit hp hs] at h
      obtain ⟨r, p, hx, h⟩ := applyByte_next h
      cases h
      exact .unitByte block todo b r p hp hs hx
  | _ => simp [engineStep, engineFetch, methodInUse, sequence, scanStep, hp, hs] at h

theorem engineMove_transfer {s t : State} (hp : inTransfer s) (hb : s.stage ≠ .entry ∨ s.phase = .decBody)
    (hh : s.stage ≠ .header ∨ s.phase = .decBody) (h : engineStep s = .next t) : EngineMove s t := by
  cases hs : s.stage with
  | loop =>
    rw [engineStep_xfer_loop hp hs] at h
    rcases loopHead_next h with ⟨h0, rfl⟩ | ⟨h0, rfl⟩
    · exact .passEnd hp hs h0
    · exact .blockBegin (Or.inr hp) hs h0
  | read j m rbuf =>
    rw [engineStep_xfer_read hp hs] at h
    obtain ⟨ha, ⟨hf, rfl⟩ | ⟨hf, hj, rfl⟩ | ⟨hf, hj, h⟩⟩ := readOne_next h
    · exact .readFault j m rbuf (Or.inr hp) hs ha hf
    · exact .readMore j m rbuf (Or.inr hp) hs ha hf hj
    · cases h
      exact .xformBegin j m rbuf hp hs ha hf hj
  | xform todo rdone =>
    cases todo with
    | nil =>
      rw [engineStep_xfer_xform_nil hp hs] at h
      cases h
      exact .xformEnd rdone hp hs
    | cons b todo =>
      rcases decode_header s.sel with ⟨k, hk⟩ | ⟨-, he⟩
      · rcases hp with hp | hp
        · rw [engineStep_commit_xform hp hs hk] at h
          obtain ⟨r, p, hx, h⟩ := applyByte_next h
          cases h
          exact .fwdByte k todo rdone b r p hp hs hk hx
        · rw [engineStep_decBody_xform hp hs hk] at h
          obtain ⟨r, p, hx, h⟩ := applyByte_next h
          cases h
          exact .invByte k todo rdone b r p hp hs hk hx
      · rcases hp with hp | hp <;> simp [engineStep, engineFetch, methodInUse, hp, hs, he] at h
  | write todo =>
    cases todo with
    | nil =>
      rw [engineStep_xfer_write_nil hp hs] at h
      cases h
      exact .writeEnd hp hs
    | cons b todo =>
      rw [engineStep_xfer_write hp hs] at h
      rcases memWrite_next h with ⟨hf, rfl⟩ | ⟨hf, h⟩
      · exact .writeFault b todo hp hs hf
      · cases h
        exact .writeByte b todo hp hs hf
  | idle =>
    rcases hp with hp | hp <;>
      simp [engineStep, engineFetch, methodInUse, sequence, commitStep, transferStep, hp, hs] at h
  | unit block todo =>
    rcases hp with hp | hp <;>
      simp [engineStep, engineFetch, methodInUse, sequence, commitStep, transferStep, hp, hs] at h
  | entry =>
    rcases hb with hb | hp
    · exact absurd hs hb
    · simp [engineStep, engineFetch, methodInUse, sequence, transferStep, hp, hs] at h
  | header =>
    rcases hh with hh | hp
    · exact absurd hs hh
    · simp [engineStep, engineFetch, methodInUse, sequence, transferStep, hp, hs] at h

/-- Every transition the engine makes is one of the moves. -/
theorem engineMove_of_step {s t : State} (hb : busy s = true) (h : engineStep s = .next t) :
    EngineMove s t := by
  cases hp : s.phase with
  | scan => exact engineMove_scan hp h
  | select =>
    rw [engineStep_select hp] at h
    cases h
    exact .select hp
  | commit =>
    by_cases he : s.stage = .entry
    · rw [engineStep_commit_entry hp he] at h
      cases h
      exact .commitEntry hp he
    · by_cases hh : s.stage = .header
      · rw [engineStep_commit_header hp hh] at h
        rcases memWrite_next h with ⟨hf, rfl⟩ | ⟨hf, h⟩
        · exact .headerFault hp hh hf
        · cases h
          exact .headerWrite hp hh hf
      · exact engineMove_transfer (Or.inl hp) (Or.inl he) (Or.inl hh) h
  | decHdr =>
    rw [engineStep_decHdr hp] at h
    split at h
    · cases h
      exact .headerMissing hp ‹_›
    · rename_i h0
      split at h
      · cases h
        exact .headerReadFault hp h0 (by simpa using ‹_›)
      · rename_i hf
        split at h
        · rename_i hlt
          cases h
          rcases decode_header (Memory.read s.inMem 0) with ⟨k, hk⟩ | ⟨hge, -⟩
          · rw [hk]
            exact .bodyBegin k hp h0 (by simpa using hf) hk
          · omega
        · cases h
          exact .badHeader hp h0 (by simpa using hf) (by omega)
  | decBody => exact engineMove_transfer (Or.inr hp) (Or.inr hp) (Or.inr hp) h
  | _ => simp [busy, hp] at hb

end Sys2Proof.Machine
end

