-- ==== Sys2Proof/Laws/Runs.lean ====
section
/-! SUPPORT. Runs of the engine: the bound on how long a command still runs falls with every transition (spec
44_method_selector.md R182, 70_reset_and_hazards.md R284), runs compose, and a run as long as the bound ends in a rest
phase. -/

namespace Sys2Proof.Machine

theorem busy_of_inLoop {s : State} (h : inLoop s) : busy s = true := by
  rcases h with h | h | h <;> simp [busy, h]

@[simp] theorem work_error (s : State) (e : ErrCode) : work (raise e s) = 0 := rfl

/-- The engine is at rest exactly in the three rest phases (R207). -/
theorem busy_eq_false {s : State} :
    busy s = false ↔ s.phase = .idle ∨ s.phase = .done ∨ s.phase = .error := by
  cases h : s.phase <;> simp [busy, h]

theorem stride_le {len pos : Nat} : pos ≤ stride len pos := by
  unfold stride; split <;> omega

theorem stride_lt {len pos : Nat} (h : pos ≤ len) : stride len pos ≤ len := by
  unfold stride; split <;> omega

/-- Something is still to be done while the engine is busy. -/
theorem work_pos {s : State} (hb : busy s = true) : 0 < work s := by
  cases hp : s.phase <;> simp [busy, hp] at hb <;> cases hs : s.stage <;>
    simp [work, hp, hs, scanWork, afterScanWork, passWork]

theorem blockLength_le (s : State) : blockLength s ≤ s.inLen - s.ipos := by
  unfold blockLength; omega

/-- Every transition takes the bound down. -/
theorem work_decreases {s t : State} (h : EngineMove s t) : work t < work s := by
  cases h with
  | scanEntry hp hs => simp [work, hp, hs, scanWork, afterScanWork, passWork]
  | scanEnd hp hs h0 => simp [work, hp, hs, scanWork, afterScanWork, passWork]
  | passEnd hp hs h0 =>
    rcases hp with hp | hp <;> simp [work, hp, hs, passWork]
  | blockBegin hp hs h0 =>
    have := blockLength_le s
    rcases hp with hp | hp | hp <;>
      simp [work, hp, hs, scanWork, afterScanWork, passWork] <;> omega
  | readFault j m rbuf hp hs ha hf => simp [work_pos (busy_of_inLoop hp)]
  | readMore j m rbuf hp hs ha hf hj =>
    rcases hp with hp | hp | hp <;>
      simp [work, hp, hs, scanWork, afterScanWork, passWork] <;> omega
  | unitsBegin j m rbuf hp hs ha hf hj =>
    simp [work, hp, hs, scanWork, afterScanWork, passWork]; omega
  | xformBegin j m rbuf hp hs ha hf hj =>
    rcases hp with hp | hp <;> simp [work, hp, hs, passWork] <;> omega
  | unitByte block todo b r p hp hs hx =>
    simp [work, hp, hs, scanWork, afterScanWork, passWork]
  | unitEnd block hp hs =>
    unfold endUnit
    split
    · rename_i hc
      simp only [work, hp, hs, List.length_nil, scanWork, afterScanWork]
      have h14 : 14 - s.cand.val = (14 - (s.cand.val + 1)) + 1 := by omega
      rw [h14, Nat.add_mul]
      omega
    · have := @stride_le s.inLen s.ipos
      simp only [work, hp, hs, List.length_nil, scanWork, afterScanWork]
      omega
  | select hp => simp [work, hp, afterScanWork]
  | commitEntry hp hs => simp [work, hp, hs, passWork]
  | headerFault hp hs hf => exact work_pos (by simp [busy, hp])
  | headerWrite hp hs hf => simp [work, hp, hs, passWork]
  | fwdByte k todo rdone b r p hp hs hk hx => simp [work, hp, hs, passWork]; omega
  | invByte k todo rdone b r p hp hs hk hx => simp [work, hp, hs, passWork]; omega
  | xformEnd rdone hp hs => rcases hp with hp | hp <;> simp [work, hp, hs, passWork]
  | writeFault b todo hp hs hf => exact work_pos (busy_of_inLoop (Or.inr hp))
  | writeByte b todo hp hs hf => rcases hp with hp | hp <;> simp [work, hp, hs, passWork]
  | writeEnd hp hs => rcases hp with hp | hp <;> simp [work, hp, hs, passWork]
  | headerMissing hp h0 => simp [work, hp]
  | headerReadFault hp h0 hf => simp [work_pos (s := s) (by simp [busy, hp])]
  | badHeader hp h0 hf hh => simp [work_pos (s := s) (by simp [busy, hp])]
  | bodyBegin k hp h0 hf hk => simp [work, hp, passWork]; omega

/-! ### Runs -/

@[simp] theorem engineRun_zero (s : State) : engineRun 0 s = .next s := rfl

theorem engineRun_succ {s : State} (n : Nat) (hb : busy s = true) :
    engineRun (n + 1) s = Result.andThen (engineStep s) (engineRun n) := by
  unfold engineRun
  rw [if_pos hb]
  cases engineStep s <;> rfl

/-- At rest a run does nothing (R207). -/
theorem engineRun_rest {s : State} (n : Nat) (hb : busy s = false) : engineRun n s = .next s := by
  cases n with
  | zero => rfl
  | succ n => unfold engineRun; simp [hb]

/-- One transition, then the rest of the run. -/
theorem engineRun_step {s t : State} (n : Nat) (hb : busy s = true) (h : engineStep s = .next t) :
    engineRun (n + 1) s = engineRun n t := by
  rw [engineRun_succ n hb, h]
  rfl

/-- A run is its first part, then the rest. -/
theorem engineRun_add (m n : Nat) (s : State) :
    engineRun (m + n) s = Result.andThen (engineRun m s) (engineRun n) := by
  induction m generalizing s with
  | zero => simp
  | succ m ih =>
    cases hb : busy s with
    | false => rw [engineRun_rest _ hb, engineRun_rest _ hb, andThen_next, engineRun_rest _ hb]
    | true =>
      rw [Nat.succ_add, engineRun_succ _ hb, engineRun_succ _ hb, andThen_assoc]
      congr 1
      funext t
      exact ih t

/-- What every transition keeps, a run keeps. -/
theorem engineRun_induction {P : State → Prop} (hstep : ∀ s t, P s → EngineMove s t → P t) (n : Nat) {s t : State}
    (hs : P s) (h : engineRun n s = .next t) : P t := by
  induction n generalizing s with
  | zero => cases h; exact hs
  | succ n ih =>
    cases hb : busy s with
    | false => rw [engineRun_rest _ hb] at h; cases h; exact hs
    | true =>
      rw [engineRun_succ _ hb] at h
      obtain ⟨u, hu, h⟩ := andThen_eq_next h
      exact ih (hstep s u hs (engineMove_of_step hb hu)) h

/-- A run as long as the bound ends at rest, if it has a next state (R284). -/
theorem engineRun_ends {n : Nat} {s t : State} (hn : work s ≤ n) (h : engineRun n s = .next t) :
    busy t = false := by
  induction n generalizing s with
  | zero =>
    cases h
    by_contra hb
    have := work_pos (s := t) (by simpa using hb)
    omega
  | succ n ih =>
    cases hb : busy s with
    | false => rw [engineRun_rest _ hb] at h; cases h; exact hb
    | true =>
      rw [engineRun_succ _ hb] at h
      obtain ⟨u, hu, h⟩ := andThen_eq_next h
      have := work_decreases (engineMove_of_step hb hu)
      exact ih (by omega) h

/-- A run that reaches a rest phase in `n` transitions is the run to rest. -/
theorem engineRun_toRest {n : Nat} {s t : State} (h : engineRun n s = .next t) (ht : busy t = false) :
    engineRun (work s) s = .next t := by
  induction n generalizing s with
  | zero => cases h; exact engineRun_rest _ ht
  | succ n ih =>
    cases hb : busy s with
    | false => rw [engineRun_rest _ hb] at h ⊢; exact h
    | true =>
      rw [engineRun_succ _ hb] at h
      obtain ⟨u, hu, h⟩ := andThen_eq_next h
      have hlt := work_decreases (engineMove_of_step hb hu)
      have hr := ih h
      have hw : work s = (work s - work u - 1) + 1 + work u := by omega
      have hstep : engineRun (1 + work u) s = .next t := by
        rw [Nat.add_comm, engineRun_step _ hb hu]; exact hr
      have : work s = (1 + work u) + (work s - work u - 1) := by omega
      rw [this, engineRun_add, hstep, andThen_next, engineRun_rest _ ht]

theorem paced_toRest {s : State} (hp : s.pace = .toRest) : paced s = engineRun (work s) s := by
  unfold paced; rw [hp]

theorem paced_steps {s : State} {n : Nat} (hp : s.pace = .steps n) : paced s = engineRun n s := by
  unfold paced; rw [hp]

/-- At rest the engine stays where it is, whatever the pace (R207). -/
theorem paced_rest {s : State} (hb : busy s = false) : paced s = .next s := by
  unfold paced
  split <;> exact engineRun_rest _ hb

/-- Whatever the pace, what every transition keeps is kept. -/
theorem paced_induction {P : State → Prop} (hstep : ∀ s t, P s → EngineMove s t → P t) {s t : State} (hs : P s)
    (h : paced s = .next t) : P t := by
  unfold paced at h
  split at h <;> exact engineRun_induction hstep _ hs h

end Sys2Proof.Machine
end

