-- ==== Sys2Proof/Laws/Blocks.lean ====
section
/-! SUPPORT. Runs of many transitions without a fault: a block read, transformed and written, a whole full pass (spec
45_transcoder.md R202, R204, R208), the units of a block and the whole scan (44_method_selector.md R176 to R178). -/

namespace Sys2Proof.Machine

/-- The engine gets from `s` to `t` by transitions. -/
def Reaches (s t : State) : Prop := ∃ n, engineRun n s = .next t

theorem Reaches.refl (s : State) : Reaches s s := ⟨0, rfl⟩

theorem Reaches.trans {s t u : State} (h : Reaches s t) (h' : Reaches t u) : Reaches s u := by
  obtain ⟨m, hm⟩ := h
  obtain ⟨n, hn⟩ := h'
  exact ⟨m + n, by rw [engineRun_add, hm, andThen_next, hn]⟩

theorem Reaches.step {s t : State} (hb : busy s = true) (h : engineStep s = .next t) : Reaches s t :=
  ⟨1, by rw [engineRun_step 0 hb h]; rfl⟩

/-- The engine that runs to rest ends where any run at rest has got to. -/
theorem Reaches.paced {s t : State} (h : Reaches s t) (ht : busy t = false) (hp : s.pace = .toRest) :
    paced s = .next t := by
  obtain ⟨n, hn⟩ := h
  rw [paced_toRest hp]
  exact engineRun_toRest hn ht

theorem busy_of_transfer {s : State} (h : inTransfer s) : busy s = true := busy_of_inLoop (Or.inr h)

/-! ### A block read -/

/-- One read that does not fail. -/
theorem readOne_ok {j m : Nat} {rbuf : List Byte} {s : State} (w : List Byte → State → Result)
    (ha : s.ipos + j < s.inLen) (hf : NoReadFault s.plat) :
    readOne j m rbuf s w =
      if j + 1 < m then
        .next { afterRead s with stage := .read (j + 1) m (Memory.read s.inMem (s.ipos + j) :: rbuf) }
      else w (Memory.read s.inMem (s.ipos + j) :: rbuf).reverse { afterRead s with ipos := s.ipos + m } := by
  unfold readOne memRead
  rw [if_neg (by omega), hf]
  rfl

/-- The reads of a block: `whole` takes over with the block, whatever place it is told. -/
theorem reads_reach {whole : List Byte → State → State} (n : Nat) :
    ∀ (j m : Nat) (rbuf : List Byte) (s : State), m = j + (n + 1) → inLoop s →
      (∀ b v st, whole b { v with stage := st } = whole b v) →
      (∀ u, u.phase = s.phase → ∀ j rbuf, u.stage = .read j m rbuf →
        engineStep u = readOne j m rbuf u fun b v => .next (whole b v)) →
      s.stage = .read j m rbuf → s.ipos + m ≤ s.inLen → NoReadFault s.plat →
      Reaches s (whole (rbuf.reverse ++ Memory.slice s.inMem (s.ipos + j) (m - j))
        { s with rdCount := s.rdCount + (m - j), ipos := s.ipos + m }) := by
  induction n with
  | zero =>
    intro j m rbuf s hm hl _ hw hs hb hf
    refine Reaches.step (busy_of_inLoop hl) ?_
    rw [hw s rfl j rbuf hs, readOne_ok _ (by omega) hf, if_neg (by omega)]
    have h1 : m - j = 1 := by omega
    rw [h1, Memory.slice, Memory.slice, List.reverse_cons]
    rfl
  | succ n ih =>
    intro j m rbuf s hm hl hst hw hs hb hf
    refine Reaches.trans (Reaches.step (busy_of_inLoop hl)
      (by rw [hw s rfl j rbuf hs, readOne_ok _ (by omega) hf, if_pos (by omega)])) ?_
    have h := ih (j + 1) m (Memory.read s.inMem (s.ipos + j) :: rbuf)
      { afterRead s with stage := .read (j + 1) m (Memory.read s.inMem (s.ipos + j) :: rbuf) }
      (by omega) hl hst hw rfl hb hf
    have h1 : m - j = (m - (j + 1)) + 1 := by omega
    have h4 : s.rdCount + (m - j) = s.rdCount + 1 + (m - (j + 1)) := by omega
    have h5 : Memory.slice s.inMem (s.ipos + j) (m - j) =
        Memory.read s.inMem (s.ipos + j) :: Memory.slice s.inMem (s.ipos + (j + 1)) (m - (j + 1)) := by
      rw [h1, Memory.slice, Nat.add_assoc]
    rw [List.reverse_cons, List.append_assoc, List.cons_append, List.nil_append] at h
    rw [h5, h4, ← hst _ _ (.read (j + 1) m (Memory.read s.inMem (s.ipos + j) :: rbuf))]
    exact h

/-! ### A block of a full pass (R208) -/

/-- `XBYTE` in the direction of the pass (R199, R200). -/
def passByte (s : State) (k : Fin 15) : ByteStep := if s.phase = .commit then xbyteFwd k else xbyteInv k

theorem passByte_ok (s : State) (k : Fin 15) : StepOk (candAt k).n (passByte s k) := by
  unfold passByte
  split
  · exact xbyteFwd_ok k
  · exact xbyteInv_ok k

theorem engineStep_pass_xform {s : State} {k : Fin 15} {b : Byte} {todo rdone : List Byte} (hp : inTransfer s)
    (hs : s.stage = .xform (b :: todo) rdone) (hk : s.sel = headerOf k) :
    engineStep s = applyByte (passByte s k) b s fun r p =>
      .next { s with dp := p, stage := .xform todo (r :: rdone) } := by
  rcases hp with hp | hp
  · rw [engineStep_commit_xform hp hs hk]
    simp [passByte, hp]
  · rw [engineStep_decBody_xform hp hs hk]
    simp [passByte, hp]

theorem block_read {s : State} (m : Nat) (hp : inTransfer s) (hs : s.stage = .read 0 m []) (hm : 1 ≤ m)
    (hb : s.ipos + m ≤ s.inLen) (hf : NoReadFault s.plat) :
    Reaches s { s with
      rdCount := s.rdCount + m, ipos := s.ipos + m, stage := .xform (Memory.slice s.inMem s.ipos m) [] } := by
  have h := reads_reach (whole := fun block v => { v with stage := .xform block [] }) (m - 1) 0 m [] s (by omega)
    (Or.inr hp) (fun _ _ _ => rfl)
    (fun u hu j rbuf hr => engineStep_xfer_read (by rw [hu]; exact hp) hr) hs hb hf
  simpa using h

theorem block_xform {k : Fin 15} (todo : List Byte) :
    ∀ (s : State) (rdone rs : List Byte) (p : Datapath), inTransfer s → s.stage = .xform todo rdone →
      s.sel = headerOf k → runBytes (passByte s k) todo s.dp = some (rs, p) →
      Reaches s { s with dp := p, stage := .xform [] (rs.reverse ++ rdone) } := by
  induction todo with
  | nil =>
    intro s rdone rs p _ hs _ hr
    simp only [runBytes, Option.some.injEq, Prod.mk.injEq] at hr
    obtain ⟨rfl, rfl⟩ := hr
    rw [List.reverse_nil, List.nil_append, ← hs]
    exact Reaches.refl s
  | cons b todo ih =>
    intro s rdone rs p hp hs hk hr
    simp only [runBytes] at hr
    split at hr
    · cases hr
    · rename_i r p' hx
      split at hr
      · cases hr
      · rename_i rs' p'' hr'
        simp only [Option.some.injEq, Prod.mk.injEq] at hr
        obtain ⟨rfl, rfl⟩ := hr
        have h1 : engineStep s = .next { s with dp := p', stage := .xform todo (r :: rdone) } := by
          rw [engineStep_pass_xform hp hs hk, applyByte, hx]
        have h2 := ih { s with dp := p', stage := .xform todo (r :: rdone) } (r :: rdone) rs' p'' hp rfl hk hr'
        refine Reaches.trans (Reaches.step (busy_of_transfer hp) h1) ?_
        simpa using h2

theorem block_write (todo : List Byte) :
    ∀ s : State, inTransfer s → s.stage = .write todo → NoWriteFault s.plat (s.opos + todo.length) →
      Reaches s { s with
        wrCount := s.wrCount + todo.length, outMem := Memory.writeAll s.outMem s.opos todo
        opos := s.opos + todo.length, stage := .write [] } := by
  induction todo with
  | nil =>
    intro s _ hs _
    rw [← hs]
    exact Reaches.refl s
  | cons b todo ih =>
    intro s hp hs hf
    have h1 : engineStep s = .next { afterWrite b s with stage := .write todo } := by
      rw [engineStep_xfer_write hp hs, memWrite, if_neg]
      rw [hf _ _ (by simp)]
      simp
    have h2 := ih { afterWrite b s with stage := .write todo } hp rfl
      (by intro t a ha; exact hf t a (by simp at ha ⊢; omega))
    refine Reaches.trans (Reaches.step (busy_of_transfer hp) h1) ?_
    have h3 : ∀ n, n + 1 + todo.length = n + (b :: todo).length := by intro n; simp; omega
    simp only [afterWrite, h3] at h2
    exact h2

/-- One block: from loop head to loop head. -/
theorem block_reach {s : State} {k : Fin 15} {rs : List Byte} {p : Datapath} (hp : inTransfer s)
    (hs : s.stage = .loop) (hk : s.sel = headerOf k) (h0 : blockLength s ≠ 0) (hb : s.ipos ≤ s.inLen)
    (hr : runBytes (passByte s k) (Memory.slice s.inMem s.ipos (blockLength s)) s.dp = some (rs, p))
    (hrd : NoReadFault s.plat) (hwr : NoWriteFault s.plat (s.opos + blockLength s)) :
    Reaches s { s with
      dp := p, ipos := s.ipos + blockLength s, rdCount := s.rdCount + blockLength s
      wrCount := s.wrCount + blockLength s, outMem := Memory.writeAll s.outMem s.opos rs
      opos := s.opos + blockLength s } := by
  have hlen : rs.length = blockLength s := by simpa using runBytes_length hr
  have hle := blockLength_le s
  have h1 : engineStep s = .next { s with stage := .read 0 (blockLength s) [] } := by
    rw [engineStep_xfer_loop hp hs, loopHead, if_neg h0]
  have h2 := block_read (s := { s with stage := .read 0 (blockLength s) [] }) (blockLength s) hp rfl (by omega)
    (by simp only; omega) hrd
  have h3 := block_xform _ { s with
      rdCount := s.rdCount + blockLength s, ipos := s.ipos + blockLength s
      stage := .xform (Memory.slice s.inMem s.ipos (blockLength s)) [] } [] rs p hp rfl hk hr
  rw [List.append_nil] at h3
  have h4 : engineStep { s with
      rdCount := s.rdCount + blockLength s, ipos := s.ipos + blockLength s, dp := p, stage := .xform [] rs.reverse }
      = .next { s with
      rdCount := s.rdCount + blockLength s, ipos := s.ipos + blockLength s, dp := p, stage := .write rs } := by
    rw [engineStep_xfer_xform_nil (by exact hp) rfl, List.reverse_reverse]
  have h5 := block_write rs { s with
      rdCount := s.rdCount + blockLength s, ipos := s.ipos + blockLength s, dp := p, stage := .write rs } hp rfl
    (by rw [hlen]; exact hwr)
  simp only [hlen] at h5
  have h6 : engineStep { s with
      rdCount := s.rdCount + blockLength s, ipos := s.ipos + blockLength s, dp := p
      wrCount := s.wrCount + blockLength s, outMem := Memory.writeAll s.outMem s.opos rs
      opos := s.opos + blockLength s, stage := .write [] } = .next { s with
      rdCount := s.rdCount + blockLength s, ipos := s.ipos + blockLength s, dp := p
      wrCount := s.wrCount + blockLength s, outMem := Memory.writeAll s.outMem s.opos rs
      opos := s.opos + blockLength s, stage := .loop } := by
    rw [engineStep_xfer_write_nil (by exact hp) rfl]
  have h7 := (Reaches.step (busy_of_transfer hp) h1).trans (h2.trans (h3.trans
    ((Reaches.step (busy_of_transfer (by exact hp)) h4).trans
      (h5.trans (Reaches.step (busy_of_transfer (by exact hp)) h6)))))
  rw [← hs] at h7
  exact h7

/-- A whole full pass from its loop head (R202, R204, R209): every byte to the end of `IN` is transformed and written, and
the engine is done. -/
theorem pass_reach {k : Fin 15} (n : Nat) :
    ∀ (s : State) (rs : List Byte) (p : Datapath), s.inLen - s.ipos ≤ n → inTransfer s → s.stage = .loop →
      s.sel = headerOf k → s.ipos ≤ s.inLen →
      runBytes (passByte s k) (Memory.slice s.inMem s.ipos (s.inLen - s.ipos)) s.dp = some (rs, p) →
      NoReadFault s.plat → NoWriteFault s.plat (s.opos + (s.inLen - s.ipos)) → laneFits (candAt k).n s.dp.d →
      Reaches s { s with
        dp := p, phase := .done, stage := .idle, ipos := s.inLen, rdCount := s.rdCount + (s.inLen - s.ipos)
        wrCount := s.wrCount + (s.inLen - s.ipos), outMem := Memory.writeAll s.outMem s.opos rs
        opos := s.opos + (s.inLen - s.ipos) } := by
  induction n with
  | zero =>
    intro s rs p hn hp hs _ hb hr _ _ _
    have h0 : s.inLen - s.ipos = 0 := by omega
    have h1 : s.ipos = s.inLen := by omega
    rw [h0] at hr
    simp only [Memory.slice, runBytes, Option.some.injEq, Prod.mk.injEq] at hr
    obtain ⟨rfl, rfl⟩ := hr
    have hbl : blockLength s = 0 := by unfold blockLength; omega
    have hd : passDone s = { passDone s with ipos := s.inLen } := by rw [← h1]; rfl
    refine Reaches.step (busy_of_transfer hp) ?_
    rw [engineStep_xfer_loop hp hs, loopHead, if_pos hbl, h0, hd]
    rfl
  | succ n ih =>
    intro s rs p hn hp hs hk hb hr hrd hwr hl
    by_cases hbl : blockLength s = 0
    · have h1 : s.ipos = s.inLen := by simp only [blockLength, Config.block] at hbl; omega
      exact ih s rs p (by omega) hp hs hk hb hr hrd hwr hl
    · have hle := blockLength_le s
      obtain ⟨rs₁, p₁, hr₁, hlen₁, hl₁, -⟩ :=
        runBytes_ok (passByte_ok s k) (Memory.slice s.inMem s.ipos (blockLength s)) s.dp hl
      obtain ⟨rs₂, p₂, hr₂, hlen₂, -, -⟩ :=
        runBytes_ok (passByte_ok s k)
          (Memory.slice s.inMem (s.ipos + blockLength s) (s.inLen - (s.ipos + blockLength s))) p₁ hl₁
      have hsum : s.inLen - s.ipos = blockLength s + (s.inLen - (s.ipos + blockLength s)) := by omega
      rw [hsum, Memory.slice_add, runBytes_append hr₁ hr₂] at hr
      simp only [Option.some.injEq, Prod.mk.injEq] at hr
      obtain ⟨rfl, rfl⟩ := hr
      have hlen : rs₁.length = blockLength s := by simpa using hlen₁
      refine (block_reach hp hs hk hbl hb hr₁ hrd
        (fun t a ha => hwr t a (by omega))).trans ?_
      have h := ih { s with
        dp := p₁, ipos := s.ipos + blockLength s, rdCount := s.rdCount + blockLength s
        wrCount := s.wrCount + blockLength s, outMem := Memory.writeAll s.outMem s.opos rs₁
        opos := s.opos + blockLength s } rs₂ p₂ (by simp only; omega) hp hs hk (by simp only; omega) hr₂ hrd
        (fun t a ha => hwr t a (by simp only at ha; omega)) hl₁
      rw [Memory.writeAll_append, hlen]
      simp only [Nat.add_assoc, ← hsum] at h
      exact h

end Sys2Proof.Machine
end

