-- ==== Sys2Proof/Laws/ScanRuns.lean ====
section
/-! SUPPORT. The scan without a fault, run by the engine: the units of a block and the block loop (spec
44_method_selector.md R176 to R180), against the whole-pass functions of Machine/Passes.lean. -/

namespace Sys2Proof.Machine

/-! ### The whole-pass functions succeed -/

theorem scanBytes_ok (k : Fin 15) (bs : List Byte) (p : Datapath) (h : Hist) (hl : laneFits (candAt k).n p.d) :
    ∃ p' h', scanBytes k bs p h = some (p', h') ∧
      (∀ j : Fin 15, histTotal h'[j] = histTotal h[j] + if j = k then bs.length else 0) := by
  induction bs generalizing p h with
  | nil => exact ⟨p, h, rfl, fun j => by simp⟩
  | cons b rest ih =>
    obtain ⟨r, p₁, hx, hl₁, -⟩ := xbyteFwd_ok k b p hl
    obtain ⟨p', h', hs, ht⟩ := ih p₁ (histAcc k r h) hl₁
    refine ⟨p', h', by simp only [scanBytes, scanByte, hx]; exact hs, fun j => ?_⟩
    rw [ht, histTotal_acc]
    split
    · rw [List.length_cons]; omega
    · omega

theorem scanUnits_ok (ks : List (Fin 15)) (block : List Byte) (p : Datapath) (h : Hist) :
    ∃ p' h', scanUnits ks block p h = some (p', h') ∧
      (∀ j : Fin 15, histTotal h'[j] = histTotal h[j] + ks.count j * block.length) := by
  induction ks generalizing p h with
  | nil => exact ⟨p, h, rfl, fun j => by simp⟩
  | cons k rest ih =>
    obtain ⟨p₁, h₁, hs₁, ht₁⟩ := scanBytes_ok k block { p with d := 0 } h (laneFits_zero k)
    obtain ⟨p', h', hs, ht⟩ := ih p₁ h₁
    refine ⟨p', h', by simp only [scanUnits, hs₁]; exact hs, fun j => ?_⟩
    rw [ht, ht₁, List.count_cons]
    by_cases hj : j = k
    · subst hj
      simp only [if_true, beq_self_eq_true, Nat.add_mul, Nat.one_mul]
      omega
    · have hk : (k == j) = false := by simpa using fun e => hj e.symm
      simp [hj, hk]

theorem scanFrom_ok (fuel : Nat) (mem : Memory) (len pos : Nat) (p : Datapath) (h : Hist) (smp : Nat) :
    ∃ p' h' smp', scanFrom fuel mem len pos p h smp = some (p', h', smp') ∧
      (∀ j : Fin 15, histTotal h'[j] + smp = histTotal h[j] + smp') := by
  induction fuel generalizing pos p h smp with
  | zero => exact ⟨p, h, smp, rfl, fun _ => rfl⟩
  | succ fuel ih =>
    unfold scanFrom
    by_cases hm : min Config.block (len - pos) = 0
    · exact ⟨p, h, smp, by simp only [hm, if_true], fun _ => rfl⟩
    · obtain ⟨p₁, h₁, hs₁, ht₁⟩ :=
        scanUnits_ok (List.finRange 15) (Memory.slice mem pos (min Config.block (len - pos))) p h
      obtain ⟨p', h', smp', hs, ht⟩ := ih (stride len (pos + min Config.block (len - pos))) p₁ h₁
        (smp + min Config.block (len - pos))
      refine ⟨p', h', smp', by simp only [hm, if_false, hs₁]; exact hs, fun j => ?_⟩
      have h1 := ht j
      have h2 := ht₁ j
      rw [List.count_eq_one_of_mem (List.nodup_finRange 15) (List.mem_finRange j), Memory.slice_length,
        Nat.one_mul] at h2
      omega

/-! ### The units of a block -/

theorem unit_reach (k : Fin 15) (block todo : List Byte) :
    ∀ (s : State) (p : Datapath) (h : Hist), s.phase = .scan → s.stage = .unit block todo → s.cand = k →
      scanBytes k todo s.dp s.hist = some (p, h) →
      Reaches s { s with dp := p, hist := h, stage := .unit block [] } := by
  induction todo with
  | nil =>
    intro s p h _ hs _ hr
    simp only [scanBytes, Option.some.injEq, Prod.mk.injEq] at hr
    obtain ⟨rfl, rfl⟩ := hr
    rw [← hs]
    exact Reaches.refl s
  | cons b todo ih =>
    intro s p h hp hs hk hr
    simp only [scanBytes, scanByte] at hr
    cases hx : xbyteFwd k b s.dp with
    | none => simp [hx] at hr
    | some rp =>
      obtain ⟨r, p₁⟩ := rp
      simp only [hx] at hr
      have h1 : engineStep s = .next { s with
          dp := p₁, hist := histAcc k r s.hist, stage := .unit block todo } := by
        rw [engineStep_scan_unit hp hs, hk, applyByte, hx]
      exact (Reaches.step (by simp [busy, hp]) h1).trans
        (ih { s with dp := p₁, hist := histAcc k r s.hist, stage := .unit block todo } p h hp rfl hk hr)

/-- The units of a block from candidate `c` on, with the stride after the last one. -/
theorem units_reach (block : List Byte) (n : Nat) :
    ∀ (c : Fin 15) (s : State) (p : Datapath) (h : Hist), c.val + n = 14 → s.phase = .scan →
      s.stage = .unit block block → s.cand = c → s.dp.d = 0 →
      scanUnits ((List.finRange 15).drop c.val) block s.dp s.hist = some (p, h) →
      Reaches s { s with dp := p, hist := h, cand := 14, ipos := stride s.inLen s.ipos, stage := .loop } := by
  have hdrop : ∀ c : Fin 15, (List.finRange 15).drop c.val = c :: (List.finRange 15).drop (c.val + 1) := by
    decide
  have hd0 : ∀ q : Datapath, q.d = 0 → { q with d := 0 } = q := by
    intro q hq
    cases q
    cases hq
    rfl
  induction n with
  | zero =>
    intro c s p h hc hp hs hk hd hr
    obtain rfl : c = 14 := Fin.ext (by simpa using hc)
    rw [hdrop] at hr
    have hnil : (List.finRange 15).drop ((14 : Fin 15).val + 1) = [] := by decide
    simp only [scanUnits, hd0 _ hd, hnil] at hr
    cases hb : scanBytes 14 block s.dp s.hist with
    | none => simp [hb] at hr
    | some ph =>
      obtain ⟨p₁, h₁⟩ := ph
      simp only [hb, Option.some.injEq, Prod.mk.injEq] at hr
      obtain ⟨rfl, rfl⟩ := hr
      refine (unit_reach 14 block block s p₁ h₁ hp hs hk hb).trans (Reaches.step (by simp [busy, hp]) ?_)
      rw [engineStep_scan_unit_nil (by exact hp) rfl, endUnit, dif_neg (by simp [hk])]
      simp [hk]
  | succ n ih =>
    intro c s p h hc hp hs hk hd hr
    have hc' : c.val + 1 < 15 := by omega
    rw [hdrop] at hr
    simp only [scanUnits, hd0 _ hd] at hr
    cases hb : scanBytes c block s.dp s.hist with
    | none => simp [hb] at hr
    | some ph =>
      obtain ⟨p₁, h₁⟩ := ph
      simp only [hb] at hr
      have h1 : engineStep { s with dp := p₁, hist := h₁, stage := .unit block [] } =
          .next { s with
            dp := { p₁ with d := 0 }, hist := h₁, cand := ⟨c.val + 1, hc'⟩, stage := .unit block block } := by
        rw [engineStep_scan_unit_nil (by exact hp) rfl, endUnit, dif_pos (by simpa [hk] using hc')]
        simp [hk]
      have h2 : scanUnits ((List.finRange 15).drop (c.val + 1)) block { p₁ with d := 0 } h₁ = some (p, h) := by
        rw [hdrop ⟨c.val + 1, hc'⟩] at hr ⊢
        exact hr
      refine (unit_reach c block block s p₁ h₁ hp hs hk hb).trans
        ((Reaches.step (by simp [busy, hp]) h1).trans ?_)
      exact ih ⟨c.val + 1, hc'⟩ { s with
        dp := { p₁ with d := 0 }, hist := h₁, cand := ⟨c.val + 1, hc'⟩, stage := .unit block block } p h
        (by simp only; omega) hp rfl rfl rfl h2

/-! ### The block loop -/

/-- One block of the scan: from loop head to loop head. -/
theorem scanBlock_reach {s : State} {p : Datapath} {h : Hist} (hp : s.phase = .scan) (hs : s.stage = .loop)
    (h0 : blockLength s ≠ 0)
    (hr : scanUnits (List.finRange 15) (Memory.slice s.inMem s.ipos (blockLength s)) s.dp s.hist = some (p, h))
    (hrd : NoReadFault s.plat) :
    Reaches s { s with
      dp := p, hist := h, cand := 14, sampled := s.sampled + blockLength s
      ipos := stride s.inLen (s.ipos + blockLength s), rdCount := s.rdCount + blockLength s } := by
  have hle := blockLength_le s
  have h1 : engineStep s = .next { s with stage := .read 0 (blockLength s) [] } := by
    rw [engineStep_scan_loop hp hs, loopHead, if_neg h0]
  have h2 := reads_reach (whole := beginUnits (blockLength s)) (blockLength s - 1) 0 (blockLength s) []
    { s with stage := .read 0 (blockLength s) [] } (by omega) (Or.inl hp) (fun _ _ _ => rfl)
    (fun u hu j rbuf hst => engineStep_scan_read (hu.trans hp) hst) rfl (by simp only; omega) hrd
  simp only [List.reverse_nil, List.nil_append, Nat.add_zero, Nat.sub_zero] at h2
  have h3 : ∀ (q : Datapath), scanUnits (List.finRange 15) (Memory.slice s.inMem s.ipos (blockLength s))
      { q with d := 0 } s.hist = scanUnits (List.finRange 15) (Memory.slice s.inMem s.ipos (blockLength s)) q
        s.hist := fun _ => rfl
  have h4 := units_reach (Memory.slice s.inMem s.ipos (blockLength s)) 14 0
    (beginUnits (blockLength s) (Memory.slice s.inMem s.ipos (blockLength s))
      { s with rdCount := s.rdCount + blockLength s, ipos := s.ipos + blockLength s })
    p h rfl hp rfl rfl rfl ((h3 s.dp).trans hr)
  have h5 := (Reaches.step (by simp [busy, hp]) h1).trans (h2.trans h4)
  rw [hs.symm] at h5
  exact h5

/-- The scan from a loop head to its end (R176): what the whole-pass function says it leaves. -/
theorem scan_reach (fuel : Nat) :
    ∀ (s : State) (p : Datapath) (h : Hist) (smp : Nat), s.inLen - s.ipos < fuel → s.phase = .scan →
      s.stage = .loop → s.ipos ≤ s.inLen → NoReadFault s.plat →
      scanFrom fuel s.inMem s.inLen s.ipos s.dp s.hist s.sampled = some (p, h, smp) →
      Reaches s { s with
        dp := p, hist := h, sampled := smp, cand := if s.ipos = s.inLen then s.cand else 14, ipos := s.inLen
        rdCount := s.rdCount + (smp - s.sampled), phase := .select, stage := .idle } ∧ s.sampled ≤ smp := by
  induction fuel with
  | zero => intro s p h smp hf; omega
  | succ fuel ih =>
    intro s p h smp hf hp hs hb hrd hr
    unfold scanFrom at hr
    by_cases hm : blockLength s = 0
    · have hm' : min Config.block (s.inLen - s.ipos) = 0 := hm
      have hend : s.ipos = s.inLen := by simp only [blockLength, Config.block] at hm; omega
      simp only [hm', if_true, Option.some.injEq, Prod.mk.injEq] at hr
      obtain ⟨rfl, rfl, rfl⟩ := hr
      refine ⟨Reaches.step (by simp [busy, hp]) ?_, le_refl _⟩
      rw [engineStep_scan_loop hp hs, loopHead, if_pos hm, if_pos hend, Nat.sub_self, ← hend]
      simp
    · have hm' : ¬ min Config.block (s.inLen - s.ipos) = 0 := hm
      have hle := blockLength_le s
      obtain ⟨p₁, h₁, hs₁, -⟩ :=
        scanUnits_ok (List.finRange 15) (Memory.slice s.inMem s.ipos (blockLength s)) s.dp s.hist
      have hr' : scanFrom fuel s.inMem s.inLen (stride s.inLen (s.ipos + blockLength s)) p₁ h₁
          (s.sampled + blockLength s) = some (p, h, smp) := by
        have hs₁' := hs₁
        unfold blockLength at hs₁' ⊢
        simpa only [hm', if_false, hs₁'] using hr
      have hst : stride s.inLen (s.ipos + blockLength s) ≤ s.inLen := stride_lt (by omega)
      have hst' := @stride_le s.inLen (s.ipos + blockLength s)
      obtain ⟨h2, h3⟩ := ih { s with
        dp := p₁, hist := h₁, cand := 14, sampled := s.sampled + blockLength s
        ipos := stride s.inLen (s.ipos + blockLength s), rdCount := s.rdCount + blockLength s } p h smp
        (by simp only; omega) hp hs hst hrd hr'
      simp only at h3
      refine ⟨(scanBlock_reach hp hs hm hs₁ hrd).trans ?_, by omega⟩
      have h4 : s.rdCount + blockLength s + (smp - (s.sampled + blockLength s)) = s.rdCount + (smp - s.sampled) := by
        omega
      have h5 : s.ipos ≠ s.inLen := by omega
      rw [if_neg h5, ← h4]
      simp only [ite_self] at h2
      exact h2

end Sys2Proof.Machine
end

