-- ==== Sys2Proof/Laws/CommandRuns.lean ====
section
/-! SUPPORT. The passes of the two commands without a fault, run by the engine: from the entry of the scan to `SELECT`, from
`SELECT` through the commit pass, from `DEC_HDR` through the decode pass (spec 45_transcoder.md R201 to R204). -/

namespace Sys2Proof.Machine

/-- The scan from its entry (R176). -/
theorem scanPass_reach {s : State} {p : Datapath} {h : Hist} {smp : Nat} (hp : s.phase = .scan)
    (hs : s.stage = .entry) (hh : s.hist = Hist.zero) (h0 : s.sampled = 0) (hr : NoReadFault s.plat)
    (hsc : scanPass s.inMem s.inLen = some (p, h, smp)) :
    Reaches s { s with
      dp := p, hist := h, sampled := smp, cand := if s.inLen = 0 then s.cand else 14, ipos := s.inLen
      rdCount := s.rdCount + smp, phase := .select, stage := .idle } := by
  have h1 := engineStep_scan_entry hp hs
  obtain ⟨h2, -⟩ := scan_reach (s.inLen + 1) { passReset s with ipos := 0, stage := .loop } p h smp
    (Nat.lt_succ_of_le (Nat.sub_le _ _)) hp rfl (Nat.zero_le _) hr
    (by
      simp only [passReset_inMem, passReset_inLen, passReset_dp, passReset_hist, passReset_sampled, hh, h0]
      exact hsc)
  have h3 : (smp - s.sampled) = smp := by omega
  have h4 : (0 = s.inLen) = (s.inLen = 0) := propext eq_comm
  simp only [passReset_sampled, passReset_inLen, h3, h4] at h2
  exact (Reaches.step (by simp [busy, hp]) h1).trans h2

/-- `SELECT` and the commit pass (R183, R202). -/
theorem commitPass_reach {s : State} {out : List Byte} {q : Datapath} (hp : s.phase = .select)
    (hr : NoReadFault s.plat) (hw : NoWriteFault s.plat (s.opos + (s.inLen + 1)))
    (hx : xformFwd (selectBest s.hist) (Memory.slice s.inMem 0 s.inLen) = some (out, q)) :
    Reaches s { s with
      sel := headerOf (selectBest s.hist), dp := q, phase := .done, stage := .idle, ipos := s.inLen
      rdCount := s.rdCount + s.inLen, wrCount := s.wrCount + (s.inLen + 1)
      outMem := Memory.writeAll s.outMem s.opos (headerOf (selectBest s.hist) :: out)
      opos := s.opos + (s.inLen + 1) } := by
  have h1 := engineStep_select hp
  have h2 := engineStep_commit_entry (s := selectStep s) rfl rfl
  have h3 : engineStep { passReset (selectStep s) with ipos := 0, stage := .header } =
      .next { afterWrite (headerOf (selectBest s.hist))
        { passReset (selectStep s) with ipos := 0, stage := .header } with stage := .loop } := by
    rw [engineStep_commit_header rfl rfl, memWrite, if_neg]
    · rfl
    · show ¬ wrFault s.plat s.wrCount s.opos = true
      rw [hw _ _ (by omega)]
      simp
  have h4 := pass_reach (k := selectBest s.hist) s.inLen { afterWrite (headerOf (selectBest s.hist))
    { passReset (selectStep s) with ipos := 0, stage := .header } with stage := .loop } out q
    (Nat.sub_le _ _) (Or.inl rfl) rfl rfl (Nat.zero_le _) hx hr
    (by
      intro t a ha
      refine hw t a ?_
      have : a < s.opos + 1 + (s.inLen - 0) := ha
      omega)
    (laneFits_zero _)
  have h5 : s.opos + (s.inLen + 1) = s.opos + 1 + (s.inLen - 0) := by omega
  have h6 : s.wrCount + (s.inLen + 1) = s.wrCount + 1 + (s.inLen - 0) := by omega
  rw [h5, h6]
  exact (Reaches.step (by simp [busy, hp]) h1).trans
    ((Reaches.step rfl h2).trans ((Reaches.step rfl h3).trans h4))

/-- The decode pass from the state the method of the header leaves (R203, R204). -/
theorem decodePass_reach {s : State} {k : Fin 15} {data : List Byte} {q : Datapath} (hp : s.phase = .decBody)
    (hs : s.stage = .loop) (hk : s.sel = headerOf k) (hd : s.dp = Datapath.zero) (hi : s.ipos ≤ s.inLen)
    (hr : NoReadFault s.plat) (hw : NoWriteFault s.plat (s.opos + (s.inLen - s.ipos)))
    (hx : xformInv k (Memory.slice s.inMem s.ipos (s.inLen - s.ipos)) = some (data, q)) :
    Reaches s { s with
      dp := q, phase := .done, stage := .idle, ipos := s.inLen, rdCount := s.rdCount + (s.inLen - s.ipos)
      wrCount := s.wrCount + (s.inLen - s.ipos), outMem := Memory.writeAll s.outMem s.opos data
      opos := s.opos + (s.inLen - s.ipos) } := by
  refine pass_reach (k := k) s.inLen s data q (Nat.sub_le _ _) (Or.inr hp) hs hk hi ?_ hr hw
    (by rw [hd]; exact laneFits_zero k)
  rw [hd]
  simpa [passByte, hp, xformInv] using hx

end Sys2Proof.Machine
end

