-- ==== Sys2Proof/Laws/Steps.lean ====
section
/-! SUPPORT. What a step of the machine is, in terms of the engine's transitions: for the methods as instructions, for the
engine left alone by the host, and for every case of `fetch`. -/

namespace Sys2Proof.Machine

variable {s t : State}

/-- What decodes in a format has that format (R90). -/
theorem decode_format {f : Format} {b : Byte} {i : Instr} (h : decode f b = .ok i) : i.format = f := by
  cases f
  · simp only [decode, decodeHeader] at h
    split at h <;> cases h <;> rfl
  · simp only [decode, decodeCommand] at h
    split at h <;> cases h <;> rfl

/-- A method is one use of it, then the engine under its pace. -/
theorem exec_method {i : Instr} (hf : i.format = .hdr) (s : State) :
    exec i s = Result.andThen (useInstr i s) paced := by
  cases i <;> first | rfl | cases hf

/-- What the engine fetches is a method, and its transition is one use of it. -/
theorem engineFetch_run {u : State} {i : Instr} (h : engineFetch s = .run i u) :
    i.format = .hdr ∧ engineStep s = useInstr i u := by
  refine ⟨?_, by unfold engineStep; rw [h]⟩
  unfold engineFetch at h
  split at h
  · split at h
    · cases h
      exact decode_format ‹_›
    · cases h
  · split at h
    · unfold fetchHeader at h
      split at h
      · cases h
      · split at h
        · cases h
        · simp only at h
          split at h
          · cases h
            exact decode_format ‹_›
          · cases h
    · cases h

/-- A host read of a register shows it, unless it is `SEL` while busy (R13). -/
theorem readHost_open {reg : Nat} (h : reg ≠ 2 ∨ busy s = false) :
    readHost reg s = { s with rdata := readReg reg s } := by
  unfold readHost
  rw [if_neg]
  rintro ⟨hr, hb⟩
  rcases h with h | h
  · exact h hr
  · rw [h] at hb
    cases hb

/-- A host read of `SEL` while busy draws a free value (R13). -/
theorem readHost_sel (hb : busy s = true) :
    readHost 2 s = { s with rdata := (Config.freeSel s.free).toNat, free := s.free + 1 } :=
  if_pos ⟨rfl, hb⟩

/-- A host read changes the latch and the count of free values, and nothing else. -/
theorem readHost_cases (reg : Nat) (s : State) : ∃ v f, readHost reg s = { s with rdata := v, free := f } := by
  unfold readHost
  split <;> exact ⟨_, _, rfl⟩

/-- The outcome of a step that fetched `f`. -/
def Fetched.outcome : Fetched → Result
  | .run i s => exec i s
  | .result r => r

theorem step_eq (s : State) : step s = (fetch s).outcome := by
  unfold step Fetched.outcome
  cases fetch s <;> rfl

/-- The engine's turn is one transition, then as many as the pace gives. -/
theorem engineTurn_outcome (hb : busy s = true) :
    (engineTurn s).outcome = Result.andThen (engineStep s) paced := by
  unfold engineTurn
  rw [if_pos hb]
  cases he : engineFetch s with
  | run i u =>
    obtain ⟨hf, hu⟩ := engineFetch_run he
    rw [hu]
    exact exec_method hf u
  | result r =>
    unfold engineStep
    rw [he]
    rfl

theorem not_resting (hb : busy s = true) : (doneFlag s || errFlag s) = false := by
  cases hp : s.phase <;> simp [busy, hp] at hb <;> simp [doneFlag, errFlag, hp]

theorem fetch_free (h : EngineFree s) (hb : busy s = true) : fetch s = engineTurn s := by
  unfold fetch
  rcases h with h | ⟨rest, h⟩ <;> rw [h]
  show waitTurn rest s = engineTurn s
  unfold waitTurn
  rw [not_resting hb]
  rfl

/-- A step in which the host lets the busy engine run. -/
theorem step_free (h : EngineFree s) (hb : busy s = true) :
    step s = Result.andThen (engineStep s) paced := by
  rw [step_eq, fetch_free h hb, engineTurn_outcome hb]

/-- At pace `.steps 0` that is one transition. -/
theorem step_one (h : EngineFree s) (hb : busy s = true) (he : engineStep s = .next t) (ht : t.pace = .steps 0) :
    step s = .next t := by
  rw [step_free h hb, he, andThen_next, paced_steps ht]
  rfl

/-- The engine keeps the pace. -/
theorem engineMove_pace (h : EngineMove s t) : t.pace = s.pace := by
  cases h with
  | unitEnd block hp hs => unfold endUnit; split <;> rfl
  | _ => rfl

/-- A step of the busy engine at pace `.steps 0`, inverted. -/
theorem step_one_next (h : EngineFree s) (hb : busy s = true) (hp : s.pace = .steps 0) (hn : step s = .next t) :
    EngineMove s t := by
  rw [step_free h hb] at hn
  obtain ⟨u, hu, hn⟩ := andThen_eq_next hn
  have hm := engineMove_of_step hb hu
  rw [paced_steps (engineMove_pace hm |>.trans hp)] at hn
  cases hn
  exact hm

end Sys2Proof.Machine
end

