-- ==== Sys2Proof/Laws/Frames.lean ====
section
/-! SUPPORT. What a transition, a use of a method, an instruction can change: the frames, said once over the moves of
Laws/Moves.lean. -/

namespace Sys2Proof.Machine

variable {s t : State}

/-- What the engine never touches: `IN`, `IN_LEN`, the platform, the host's side, the free values (R61, R49, R44). -/
structure SameOutside (s t : State) : Prop where
  inMem : t.inMem = s.inMem
  inLen : t.inLen = s.inLen
  plat : t.plat = s.plat
  host : t.host = s.host
  rdata : t.rdata = s.rdata
  pace : t.pace = s.pace
  free : t.free = s.free

theorem SameOutside.refl (s : State) : SameOutside s s := ⟨rfl, rfl, rfl, rfl, rfl, rfl, rfl⟩

theorem SameOutside.trans {u : State} (h : SameOutside s t) (h' : SameOutside t u) : SameOutside s u :=
  ⟨h'.inMem.trans h.inMem, h'.inLen.trans h.inLen, h'.plat.trans h.plat, h'.host.trans h.host,
    h'.rdata.trans h.rdata, h'.pace.trans h.pace, h'.free.trans h.free⟩

theorem engineMove_outside (h : EngineMove s t) : SameOutside s t := by
  cases h with
  | unitEnd block hp hs => unfold endUnit; split <;> exact ⟨rfl, rfl, rfl, rfl, rfl, rfl, rfl⟩
  | _ => exact ⟨rfl, rfl, rfl, rfl, rfl, rfl, rfl⟩

/-- A transition writes nothing, or one byte at `opos` (R62, R65). -/
theorem engineMove_output (h : EngineMove s t) :
    (t.outMem = s.outMem ∧ t.opos = s.opos) ∨
      ∃ v, t.outMem = Memory.write s.outMem s.opos v ∧ t.opos = s.opos + 1 ∧ t.wrCount = s.wrCount + 1 := by
  cases h with
  | headerWrite hp hs hf => exact Or.inr ⟨_, rfl, rfl, rfl⟩
  | writeByte b todo hp hs hf => exact Or.inr ⟨_, rfl, rfl, rfl⟩
  | unitEnd block hp hs => unfold endUnit; split <;> exact Or.inl ⟨rfl, rfl⟩
  | _ => exact Or.inl ⟨rfl, rfl⟩

/-- From `lo` on, `OUT` has changed at most up to the new `opos`. -/
structure WritesFrom (lo : Nat) (m : Memory) (t : State) : Prop where
  wf : Memory.wf t.outMem = true
  low : lo ≤ t.opos
  same : ∀ a, a < lo ∨ t.opos ≤ a → Memory.read t.outMem a = Memory.read m a

theorem WritesFrom.refl (hwf : Memory.wf s.outMem = true) {lo : Nat} (h : lo ≤ s.opos) :
    WritesFrom lo s.outMem s := ⟨hwf, h, fun _ _ => rfl⟩

theorem WritesFrom.move {lo : Nat} {m : Memory} (h : WritesFrom lo m s) (hm : EngineMove s t) :
    WritesFrom lo m t := by
  have hlow := h.low
  rcases engineMove_output hm with ⟨h1, h2⟩ | ⟨v, h1, h2, -⟩
  · exact ⟨h1 ▸ h.wf, h2 ▸ h.low, fun a ha => by rw [h1]; exact h.same a (h2 ▸ ha)⟩
  · refine ⟨by rw [h1]; exact Memory.write_wf _ _ h.wf, by omega, fun a ha => ?_⟩
    rw [h1, Memory.read_write _ _ _ h.wf, if_neg (by omega)]
    exact h.same a (by omega)

/-- Everything one use of a method can do (R240): a byte of a unit, of a commit block, of a decode block, or the selection
by a header. -/
theorem useMethod_next {idx : Fin 15} {fwd inv : ByteStep} (h : useMethod idx fwd inv s = .next t) :
    (∃ block b todo r p, s.phase = .scan ∧ s.stage = .unit block (b :: todo) ∧ fwd b s.dp = some (r, p) ∧
      t = { s with dp := p, hist := histAcc idx r s.hist, stage := .unit block todo }) ∨
    (∃ b todo rdone r p, s.phase = .commit ∧ s.stage = .xform (b :: todo) rdone ∧ fwd b s.dp = some (r, p) ∧
      t = { s with dp := p, stage := .xform todo (r :: rdone) }) ∨
    (∃ b todo rdone r p, s.phase = .decBody ∧ s.stage = .xform (b :: todo) rdone ∧ inv b s.dp = some (r, p) ∧
      t = { s with dp := p, stage := .xform todo (r :: rdone) }) ∨
    (s.phase = .decHdr ∧
      t = { passReset { s with sel := headerOf idx } with phase := .decBody, stage := .loop }) := by
  unfold useMethod at h
  split at h
  · obtain ⟨r, p, hx, h⟩ := applyByte_next h
    cases h
    exact Or.inl ⟨_, _, _, _, _, ‹_›, ‹_›, hx, rfl⟩
  · obtain ⟨r, p, hx, h⟩ := applyByte_next h
    cases h
    exact Or.inr (Or.inl ⟨_, _, _, _, _, ‹_›, ‹_›, hx, rfl⟩)
  · obtain ⟨r, p, hx, h⟩ := applyByte_next h
    cases h
    exact Or.inr (Or.inr (Or.inl ⟨_, _, _, _, _, ‹_›, ‹_›, hx, rfl⟩))
  · cases h
    exact Or.inr (Or.inr (Or.inr ⟨‹_›, rfl⟩))
  · cases h

/-- A method as an instruction is some use with its index. -/
theorem use_of_method {i : Instr} (hf : i.format = .hdr) :
    ∃ idx fwd inv, ∀ s, useInstr i s = useMethod idx fwd inv s := by
  cases i <;> first | exact ⟨_, _, _, fun _ => rfl⟩ | cases hf

/-- A use of a method leaves the outside and `OUT` alone. -/
theorem use_frame {i : Instr} (h : useInstr i s = .next t) :
    SameOutside s t ∧ t.outMem = s.outMem ∧ t.opos = s.opos := by
  have hf : i.format = .hdr := by cases i <;> first | rfl | cases h
  obtain ⟨idx, fwd, inv, hu⟩ := use_of_method hf
  rw [hu] at h
  rcases useMethod_next h with ⟨_, _, _, _, _, _, _, _, rfl⟩ | ⟨_, _, _, _, _, _, _, _, rfl⟩ |
    ⟨_, _, _, _, _, _, _, _, rfl⟩ | ⟨_, rfl⟩ <;> exact ⟨⟨rfl, rfl, rfl, rfl, rfl, rfl, rfl⟩, rfl, rfl⟩

/-- A command that has a next state: ignored while busy, launched otherwise, then the engine under its pace. -/
theorem command_next {launch : State → State} (h : command launch s = .next t) :
    (busy s = true ∧ paced s = .next t) ∨ (busy s = false ∧ paced (launch s) = .next t) := by
  unfold command at h
  split at h
  · exact Or.inl ⟨‹_›, h⟩
  · rename_i hb
    exact Or.inr ⟨by simpa using hb, h⟩

end Sys2Proof.Machine
end

