-- ==== Sys2Proof/Laws/Invariant.lean ====
section
/-! SUPPORT. One transition of the engine keeps `Consistent`, and from a state that meets it the engine always has a
transition while it is busy. Each move is taken on a state written out, so that a clause of the invariant that the move
does not touch is carried over as it is. -/

namespace Sys2Proof.Machine

/-- In a phase other than `ERROR` there is no error code. -/
theorem err_none {s : State} (h : s.err ≠ .none ↔ s.phase = .error) (hp : s.phase ≠ .error) : s.err = .none := by
  by_contra hn
  exact hp (h.mp hn)

/-- A state that raises an error meets the invariant. -/
theorem consistent_raise {s : State} {e : ErrCode} (hi : Memory.wf s.inMem = true) (ho : Memory.wf s.outMem = true)
    (he : e ≠ .none) : Consistent (raise e s) :=
  ⟨hi, ho, ⟨fun _ => rfl, fun _ => he⟩, rfl, fun h => (nomatch h), trivial, trivial, trivial, trivial, trivial⟩

theorem headerOf_injective {k k' : Fin 15} (h : headerOf k = headerOf k') : k = k' := by
  have := congrArg BitVec.toNat h
  rw [headerOf_toNat, headerOf_toNat] at this
  exact Fin.ext this

/-- The weight that a fresh pass begins with is in its range (R147). -/
theorem reset_weight : -Config.wmax ≤ (0 : Int) ∧ (0 : Int) ≤ Config.wmax := by decide

/-- Where a byte is at hand, the method of the pass has what it needs and leaves it (R123, R147). -/
theorem byte_keeps {n : Nat} {f : ByteStep} (hf : StepOk n f) {b r : Byte} {p q : Datapath} (hl : laneFits n p.d)
    (hx : f b p = some (r, q)) (hw : -Config.wmax ≤ p.weight ∧ p.weight ≤ Config.wmax) :
    laneFits n q.d ∧ -Config.wmax ≤ q.weight ∧ q.weight ≤ Config.wmax := by
  obtain ⟨r', q', hx', hl', hw'⟩ := hf b p hl
  rw [hx] at hx'
  simp only [Option.some.injEq, Prod.mk.injEq] at hx'
  obtain ⟨-, rfl⟩ := hx'
  exact ⟨hl', hw' hw⟩

/-- Every transition of the engine keeps the invariant. -/
theorem engineMove_consistent {s t : State} (h : Consistent s) (hm : EngineMove s t) : Consistent t := by
  obtain ⟨hi, ho, he, hpl, hpos, hb, hmt, hw, htot, hlen⟩ := h
  have hbl := blockLength_le s
  obtain ⟨dp, hist, sampled, sel, phase, ipos, opos, cand, err, inLen, inMem, outMem, rdCount, wrCount, stage, plat,
    host, rdata, pace, free⟩ := s
  cases hm with
  | scanEntry hp hs =>
    cases hp; cases hs
    exact ⟨hi, ho, he, rfl, fun _ => Nat.zero_le _, trivial, trivial, reset_weight, htot, hlen⟩
  | scanEnd hp hs h0 =>
    cases hp; cases hs
    exact ⟨hi, ho, ⟨fun hn => (nomatch he.mp hn), fun hn => nomatch hn⟩, rfl, hpos, trivial, trivial, trivial, htot,
      hlen⟩
  | passEnd hp hs h0 =>
    cases hs
    rcases hp with hp | hp <;> cases hp <;>
      exact ⟨hi, ho, ⟨fun hn => (nomatch he.mp hn), fun hn => nomatch hn⟩, rfl, fun hn => (nomatch hn), trivial, trivial,
        trivial, trivial, trivial⟩
  | blockBegin hp hs h0 =>
    cases hs
    have hb' : ∀ n, blockLength ⟨dp, hist, sampled, sel, phase, ipos, opos, cand, err, inLen, inMem, outMem, rdCount,
        wrCount, .loop, plat, host, rdata, pace, free⟩ = n → n ≠ 0 → ipos ≤ inLen →
        0 < n ∧ n ≤ Config.block ∧ ipos + n ≤ inLen ∧ ([] : List Byte).length = 0 := by
      rintro n rfl hn hle
      refine ⟨Nat.pos_of_ne_zero hn, Nat.min_le_left _ _, ?_, rfl⟩
      have : blockLength ⟨dp, hist, sampled, sel, phase, ipos, opos, cand, err, inLen, inMem, outMem, rdCount,
        wrCount, .loop, plat, host, rdata, pace, free⟩ ≤ inLen - ipos := hbl
      omega
    rcases hp with hp | hp | hp <;> cases hp <;>
      exact ⟨hi, ho, he, rfl, hpos, hb' _ rfl h0 (hpos rfl), hmt, hw, htot, hlen⟩
  | readFault j m rbuf hp hs ha hf => exact consistent_raise hi ho (by decide)
  | readMore j m rbuf hp hs ha hf hj =>
    cases hs
    have hb' : j + 1 < m ∧ m ≤ Config.block ∧ ipos + m ≤ inLen ∧ (Memory.read inMem (ipos + j) :: rbuf).length = j + 1 :=
      ⟨hj, hb.2.1, hb.2.2.1, congrArg (· + 1) hb.2.2.2⟩
    rcases hp with hp | hp | hp <;> cases hp <;> exact ⟨hi, ho, he, rfl, hpos, hb', hmt, hw, htot, hlen⟩
  | unitsBegin j m rbuf hp hs ha hf hj =>
    cases hp; cases hs
    have hlen' : (Memory.read inMem (ipos + j) :: rbuf).reverse.length = m := by
      obtain ⟨h1, -, -, h4⟩ := hb
      rw [List.length_reverse, List.length_cons]
      omega
    refine ⟨hi, ho, he, rfl, fun _ => hb.2.2.1, trivial, laneFits_zero 0, hw, fun k => ?_, hlen⟩
    have h1 : histTotal hist[k] + 0 = sampled := htot k
    show histTotal hist[k] + (if k < 0 then 0 else if k = 0 then
      (Memory.read inMem (ipos + j) :: rbuf).reverse.length
      else (Memory.read inMem (ipos + j) :: rbuf).reverse.length) = sampled + m
    rw [hlen', if_neg (by simp), ite_self]
    omega
  | xformBegin j m rbuf hp hs ha hf hj =>
    cases hs
    have hlen' : (Memory.read inMem (ipos + j) :: rbuf).reverse.length = m := by
      obtain ⟨h1, -, -, h4⟩ := hb
      rw [List.length_reverse, List.length_cons]
      omega
    rcases hp with hp | hp <;> cases hp
    · have h1 : opos + 0 = ipos + 1 := hlen
      refine ⟨hi, ho, he, rfl, fun _ => hb.2.2.1, trivial, hmt, hw, htot, ?_⟩
      show opos + ((Memory.read inMem (ipos + j) :: rbuf).reverse.length + 0) = ipos + m + 1
      omega
    · have h1 : opos + 0 + 1 = ipos := hlen
      refine ⟨hi, ho, he, rfl, fun _ => hb.2.2.1, trivial, hmt, hw, htot, ?_⟩
      show opos + ((Memory.read inMem (ipos + j) :: rbuf).reverse.length + 0) + 1 = ipos + m
      omega
  | unitByte block todo b r p hp hs hx =>
    cases hp; cases hs
    obtain ⟨hl', hw'⟩ := byte_keeps (xbyteFwd_ok cand) hmt hx hw
    refine ⟨hi, ho, he, rfl, hpos, trivial, hl', hw', fun k => ?_, hlen⟩
    have h1 : histTotal hist[k] + (if k < cand then 0 else if k = cand then (b :: todo).length else block.length)
      = sampled := htot k
    show histTotal (histAcc cand r hist)[k] +
      (if k < cand then 0 else if k = cand then todo.length else block.length) = sampled
    rw [histTotal_acc]
    rw [List.length_cons] at h1
    by_cases hk : k = cand
    · subst hk
      rw [if_neg (lt_irrefl _), if_pos rfl] at h1 ⊢
      rw [if_pos rfl]
      omega
    · rw [if_neg hk] at h1 ⊢
      rw [if_neg hk]
      exact h1
  | unitEnd block hp hs =>
    cases hp; cases hs
    have htot' : ∀ k : Fin 15, histTotal hist[k] + (if k < cand then 0 else if k = cand then 0 else block.length)
      = sampled := htot
    unfold endUnit
    split
    · rename_i hc
      refine ⟨hi, ho, he, rfl, hpos, trivial, laneFits_zero _, hw, fun k => ?_, hlen⟩
      rw [← htot' k]
      show histTotal hist[k] + (if k < ⟨cand.val + 1, hc⟩ then 0 else
        if k = ⟨cand.val + 1, hc⟩ then block.length else block.length) = _
      rw [ite_self]
      simp only [Fin.lt_def, Fin.ext_iff]
      split_ifs <;> omega
    · rename_i hc
      refine ⟨hi, ho, he, rfl, fun _ => stride_lt (hpos rfl), trivial, trivial, hw, fun k => ?_, hlen⟩
      rw [← htot' k]
      show histTotal hist[k] + 0 = _
      have hc' : ¬ cand.val + 1 < 15 := hc
      have hk := k.isLt
      simp only [Fin.lt_def, Fin.ext_iff]
      split_ifs <;> omega
  | select hp =>
    cases hp
    exact ⟨hi, ho, ⟨fun hn => (nomatch he.mp hn), fun hn => nomatch hn⟩, rfl, hpos, trivial, by
      show (headerOf (selectBest hist)).toNat < 15
      rw [headerOf_toNat]
      exact (selectBest hist).isLt, trivial, htot, hlen⟩
  | commitEntry hp hs =>
    cases hp; cases hs
    exact ⟨hi, ho, he, rfl, fun _ => Nat.zero_le _, trivial, ⟨hmt, rfl⟩, reset_weight, htot, ⟨hlen, rfl⟩⟩
  | headerFault hp hs hf => exact consistent_raise hi ho (by decide)
  | headerWrite hp hs hf =>
    cases hp; cases hs
    obtain ⟨hs15, hd0⟩ : sel.toNat < 15 ∧ dp.d = 0 := hmt
    obtain ⟨ho0, hi0⟩ : opos = 0 ∧ ipos = 0 := hlen
    refine ⟨hi, Memory.write_wf _ _ ho, he, rfl, hpos, trivial, ?_, hw, htot, ?_⟩
    · rcases decode_header sel with ⟨k, hk⟩ | ⟨hge, -⟩
      · refine ⟨k, hk, ?_⟩
        show laneFits (candAt k).n dp.d
        rw [hd0]
        exact laneFits_zero k
      · omega
    · show opos + 1 + 0 = ipos + 1
      omega
  | fwdByte k todo rdone b r p hp hs hk hx =>
    cases hp; cases hs
    obtain ⟨k', hk', hl⟩ := hmt
    obtain rfl := headerOf_injective (hk'.symm.trans hk)
    obtain ⟨hl', hw'⟩ := byte_keeps (xbyteFwd_ok k') hl hx hw
    have h1 : opos + ((b :: todo).length + rdone.length) = ipos + 1 := hlen
    refine ⟨hi, ho, he, rfl, hpos, trivial, ⟨k', hk, hl'⟩, hw', htot, ?_⟩
    show opos + (todo.length + (r :: rdone).length) = ipos + 1
    rw [List.length_cons] at h1 ⊢
    omega
  | invByte k todo rdone b r p hp hs hk hx =>
    cases hp; cases hs
    obtain ⟨k', hk', hl⟩ := hmt
    obtain rfl := headerOf_injective (hk'.symm.trans hk)
    obtain ⟨hl', hw'⟩ := byte_keeps (xbyteInv_ok k') hl hx hw
    have h1 : opos + ((b :: todo).length + rdone.length) + 1 = ipos := hlen
    refine ⟨hi, ho, he, rfl, hpos, trivial, ⟨k', hk, hl'⟩, hw', htot, ?_⟩
    show opos + (todo.length + (r :: rdone).length) + 1 = ipos
    rw [List.length_cons] at h1 ⊢
    omega
  | xformEnd rdone hp hs =>
    cases hs
    rcases hp with hp | hp <;> cases hp
    · have h1 : opos + (0 + rdone.length) = ipos + 1 := hlen
      refine ⟨hi, ho, he, rfl, hpos, trivial, hmt, hw, htot, ?_⟩
      show opos + rdone.reverse.length = ipos + 1
      rw [List.length_reverse]
      omega
    · have h1 : opos + (0 + rdone.length) + 1 = ipos := hlen
      refine ⟨hi, ho, he, rfl, hpos, trivial, hmt, hw, htot, ?_⟩
      show opos + rdone.reverse.length + 1 = ipos
      rw [List.length_reverse]
      omega
  | writeFault b todo hp hs hf => exact consistent_raise hi ho (by decide)
  | writeByte b todo hp hs hf =>
    cases hs
    rcases hp with hp | hp <;> cases hp
    · have h1 : opos + (b :: todo).length = ipos + 1 := hlen
      refine ⟨hi, Memory.write_wf _ _ ho, he, rfl, hpos, trivial, hmt, hw, htot, ?_⟩
      show opos + 1 + todo.length = ipos + 1
      rw [List.length_cons] at h1
      omega
    · have h1 : opos + (b :: todo).length + 1 = ipos := hlen
      refine ⟨hi, Memory.write_wf _ _ ho, he, rfl, hpos, trivial, hmt, hw, htot, ?_⟩
      show opos + 1 + todo.length + 1 = ipos
      rw [List.length_cons] at h1
      omega
  | writeEnd hp hs =>
    cases hs
    rcases hp with hp | hp <;> cases hp <;> exact ⟨hi, ho, he, rfl, hpos, trivial, hmt, hw, htot, hlen⟩
  | headerMissing hp h0 => exact consistent_raise hi ho (by decide)
  | headerReadFault hp h0 hf => exact consistent_raise hi ho (by decide)
  | badHeader hp h0 hf hh => exact consistent_raise hi ho (by decide)
  | bodyBegin k hp h0 hf hk =>
    cases hp
    have h1 : opos = 0 := by cases stage <;> exact hlen
    have h2 : inLen ≠ 0 := h0
    refine ⟨hi, ho, ⟨fun hn => (nomatch he.mp hn), fun hn => nomatch hn⟩, rfl, fun _ => ?_, trivial,
      ⟨k, rfl, laneFits_zero k⟩, reset_weight, trivial, ?_⟩
    · show 1 ≤ inLen
      omega
    · show opos + 0 + 1 = 1
      omega

/-! ### Progress -/

theorem memRead_progress {a : Nat} {s : State} {k : Byte → State → Result} (ha : a < s.inLen)
    (hk : ∀ b, ∃ t, k b (afterRead s) = .next t) : ∃ t, memRead a s k = .next t := by
  unfold memRead
  rw [if_neg (by omega)]
  split
  · exact ⟨_, rfl⟩
  · exact hk _

theorem memWrite_progress {v : Byte} {s : State} {k : State → Result} (hk : ∃ t, k (afterWrite v s) = .next t) :
    ∃ t, memWrite v s k = .next t := by
  unfold memWrite
  split
  · exact ⟨_, rfl⟩
  · exact hk

theorem readOne_progress {j m : Nat} {rbuf : List Byte} {s : State} {w : List Byte → State → Result}
    (ha : s.ipos + j < s.inLen) (hk : ∀ l u, ∃ t, w l u = .next t) : ∃ t, readOne j m rbuf s w = .next t := by
  unfold readOne
  refine memRead_progress ha fun b => ?_
  split
  · exact ⟨_, rfl⟩
  · exact hk _ _

theorem loopHead_progress (s e : State) : ∃ t, loopHead s e = .next t := by
  unfold loopHead
  split <;> exact ⟨_, rfl⟩

theorem applyByte_progress {n : Nat} {f : ByteStep} (hf : StepOk n f) {b : Byte} {s : State}
    {k : Byte → Datapath → Result} (hl : laneFits n s.dp.d) (hk : ∀ r p, ∃ t, k r p = .next t) :
    ∃ t, applyByte f b s k = .next t := by
  obtain ⟨r, p, hx, -⟩ := hf b s.dp hl
  unfold applyByte
  rw [hx]
  exact hk r p

/-- The full passes have a transition at every place they have. -/
theorem transfer_progress {s : State} (h : Consistent s) (hp : inTransfer s) : ∃ t, engineStep s = .next t := by
  obtain ⟨-, -, -, hpl, -, hb, hmt, -, -, -⟩ := h
  cases hs : s.stage with
  | loop => rw [engineStep_xfer_loop hp hs]; exact loopHead_progress _ _
  | read j m rbuf =>
    rw [engineStep_xfer_read hp hs]
    simp only [blockFits, hs] at hb
    exact readOne_progress (by omega) (fun _ _ => ⟨_, rfl⟩)
  | xform todo rdone =>
    cases todo with
    | nil => exact ⟨_, engineStep_xfer_xform_nil hp hs⟩
    | cons b todo =>
      have hk : ∃ k : Fin 15, s.sel = headerOf k ∧ laneFits (candAt k).n s.dp.d := by
        rcases hp with hp | hp <;> simpa only [methodFits, hp, hs] using hmt
      obtain ⟨k, hk, hl⟩ := hk
      rw [engineStep_pass_xform hp hs hk]
      exact applyByte_progress (passByte_ok s k) hl (fun _ _ => ⟨_, rfl⟩)
  | write todo =>
    cases todo with
    | nil => exact ⟨_, engineStep_xfer_write_nil hp hs⟩
    | cons b todo => rw [engineStep_xfer_write hp hs]; exact memWrite_progress ⟨_, rfl⟩
  | entry =>
    rcases hp with hp | hp
    · exact ⟨_, engineStep_commit_entry hp hs⟩
    · simp [stageFits, hp, hs] at hpl
  | header =>
    rcases hp with hp | hp
    · rw [engineStep_commit_header hp hs]
      exact memWrite_progress ⟨_, rfl⟩
    · simp [stageFits, hp, hs] at hpl
  | _ => rcases hp with hp | hp <;> simp [stageFits, hp, hs] at hpl

theorem scan_progress {s : State} (h : Consistent s) (hp : s.phase = .scan) : ∃ t, engineStep s = .next t := by
  obtain ⟨-, -, -, hpl, -, hb, hmt, -, -, -⟩ := h
  cases hs : s.stage with
  | entry => exact ⟨_, engineStep_scan_entry hp hs⟩
  | loop => rw [engineStep_scan_loop hp hs]; exact loopHead_progress _ _
  | read j m rbuf =>
    rw [engineStep_scan_read hp hs]
    simp only [blockFits, hs] at hb
    exact readOne_progress (by omega) (fun _ _ => ⟨_, rfl⟩)
  | unit block todo =>
    cases todo with
    | nil => exact ⟨_, engineStep_scan_unit_nil hp hs⟩
    | cons b todo =>
      rw [engineStep_scan_unit hp hs]
      exact applyByte_progress (xbyteFwd_ok s.cand) (by simpa only [methodFits, hp, hs] using hmt)
        (fun _ _ => ⟨_, rfl⟩)
  | _ => simp [stageFits, hp, hs] at hpl

/-- While it is busy, the engine has a transition. -/
theorem engine_progress {s : State} (h : Consistent s) (hb : busy s = true) : ∃ t, engineStep s = .next t := by
  cases hp : s.phase with
  | scan => exact scan_progress h hp
  | select => exact ⟨_, engineStep_select hp⟩
  | commit => exact transfer_progress h (Or.inl hp)
  | decHdr =>
    rw [engineStep_decHdr hp]
    split
    · exact ⟨_, rfl⟩
    · split
      · exact ⟨_, rfl⟩
      · simp only
        split <;> exact ⟨_, rfl⟩
  | decBody => exact transfer_progress h (Or.inr hp)
  | _ => simp [busy, hp] at hb

/-- A run has an end, and keeps the invariant. -/
theorem engineRun_progress (n : Nat) {s : State} (h : Consistent s) :
    ∃ t, engineRun n s = .next t ∧ Consistent t := by
  induction n generalizing s with
  | zero => exact ⟨s, rfl, h⟩
  | succ n ih =>
    cases hb : busy s with
    | false => exact ⟨s, engineRun_rest _ hb, h⟩
    | true =>
      obtain ⟨u, hu⟩ := engine_progress h hb
      obtain ⟨t, ht, hc⟩ := ih (engineMove_consistent h (engineMove_of_step hb hu))
      exact ⟨t, by rw [engineRun_step _ hb hu]; exact ht, hc⟩

theorem paced_progress {s : State} (h : Consistent s) : ∃ t, paced s = .next t ∧ Consistent t := by
  unfold paced
  split <;> exact engineRun_progress _ h

end Sys2Proof.Machine
end

