-- ==== Sys2Proof/Laws/PerInstr.lean ====
section
/-! SUPPORT. What every instruction's encoding is: the byte the encoder gives is well formed in the instruction's format,
decodes to the instruction, and to no other in that format (R90 to R97). -/

namespace Sys2Proof.Laws.Encoding

/-- The byte of an instruction is legal in its format and names it alone. -/
def Statement (i : Instr) : Prop :=
  wellFormed i.format i = true ∧ wellFormedByte i.format (encode i) = true ∧ decode i.format (encode i) = .ok i ∧
    ∀ b : Byte, decode i.format b = .ok i → b = encode i

theorem id : Statement .id := by unfold Statement; decide
theorem d1 : Statement .d1 := by unfold Statement; decide
theorem d2 : Statement .d2 := by unfold Statement; decide
theorem d3 : Statement .d3 := by unfold Statement; decide
theorem d4 : Statement .d4 := by unfold Statement; decide
theorem d5 : Statement .d5 := by unfold Statement; decide
theorem d6 : Statement .d6 := by unfold Statement; decide
theorem d7 : Statement .d7 := by unfold Statement; decide
theorem d8 : Statement .d8 := by unfold Statement; decide
theorem d1b : Statement .d1b := by unfold Statement; decide
theorem a2 : Statement .a2 := by unfold Statement; decide
theorem a3 : Statement .a3 := by unfold Statement; decide
theorem a4 : Statement .a4 := by unfold Statement; decide
theorem a6 : Statement .a6 := by unfold Statement; decide
theorem a8 : Statement .a8 := by unfold Statement; decide
theorem encode : Statement .encode := by unfold Statement; decide
theorem decode : Statement .decode := by unfold Statement; decide

end Sys2Proof.Laws.Encoding
end

