-- ==== Sys2Proof/Tests/Slice0.lean ====
section
/-! SUPPORT. The model's own tests. Expected results come from spec/: the tables of 30_encoding.md, and the vectors of
95_test_vectors.md, named at each group. The last part gives each statement's hypotheses a state that meets them. -/

namespace Sys2Proof.Tests

open Sys2Proof Sys2Proof.Machine

set_option Elab.async false

/-! ### Well-formedness: ill-formed terms are refused -/

theorem test_header_15_ill_formed : wellFormedHeader 0x0f#8 = false := by decide
theorem test_header_high_bits_ill_formed : wellFormedHeader 0x10#8 = false := by decide
theorem test_header_14_well_formed : wellFormedHeader 0x0e#8 = true := by decide
theorem test_command_ill_formed :
    wellFormedCommand 0x00#8 = false ∧ wellFormedCommand 0x03#8 = false ∧ wellFormedCommand 0xff#8 = false := by decide
theorem test_byte_ill_formed : wellFormedByte .hdr 0xff#8 = false ∧ wellFormedByte .cmd 0x0e#8 = false := by decide
theorem test_method_is_no_command : wellFormed .cmd .d1 = false := by decide
theorem test_command_is_no_header : wellFormed .hdr .encode = false := by decide

/-! ### Decoding: the words of R92 and R96, written out bit by bit -/

theorem test_decode_id : decode .hdr 0b00000000#8 = .ok .id := by decide
theorem test_decode_delta :
    decode .hdr 0b00000001#8 = .ok .d1 ∧ decode .hdr 0b00000010#8 = .ok .d2 ∧ decode .hdr 0b00000011#8 = .ok .d3 ∧
    decode .hdr 0b00000100#8 = .ok .d4 ∧ decode .hdr 0b00000101#8 = .ok .d5 ∧ decode .hdr 0b00000110#8 = .ok .d6 ∧
    decode .hdr 0b00000111#8 = .ok .d7 ∧ decode .hdr 0b00001000#8 = .ok .d8 ∧
    decode .hdr 0b00001001#8 = .ok .d1b := by decide
theorem test_decode_adaptive :
    decode .hdr 0b00001010#8 = .ok .a2 ∧ decode .hdr 0b00001011#8 = .ok .a3 ∧ decode .hdr 0b00001100#8 = .ok .a4 ∧
    decode .hdr 0b00001101#8 = .ok .a6 ∧ decode .hdr 0b00001110#8 = .ok .a8 := by decide
theorem test_decode_commands :
    decode .cmd 0b00000001#8 = .ok .encode ∧ decode .cmd 0b00000010#8 = .ok .decode := by decide
theorem test_decode_reserved_header :
    decode .hdr 0b00001111#8 = .error (.badHeader 15) ∧ decode .hdr 0b11111111#8 = .error (.badHeader 255) := by decide
theorem test_decode_reserved_command :
    decode .cmd 0b00000000#8 = .error (.unknownMode 0) ∧ decode .cmd 0b00000011#8 = .error (.unknownMode 3) := by decide
theorem test_table_words :
    decodeTableWord 8 0x01 = some .encode ∧ decodeTableWord 8 0x09 = some .d1b ∧ decodeTableWord 8 0x0f = none ∧
    decodeTableWord 16 0x09 = none := by decide

/-! ### Small states -/

/-- A byte list. -/
def bytes (l : List Nat) : List Byte := l.map (BitVec.ofNat 8)

/-- A machine at rest with the given input, as the host leaves it before a command. -/
def loaded (l : List Nat) : State :=
  { State.reset with inMem := Memory.writeAll [] 0 (bytes l), inLen := l.length }

/-- `X` and `Y` of 46_candidate_methods.md. -/
def dataX : List Nat := [10, 20, 30, 40, 50, 60, 70, 80, 90, 100]
def dataY : List Nat := [1, 2, 3, 4, 5, 6, 7, 8, 9, 10]

/-- `COMMIT` of `X` under method `k`, the header and all reads done, the first filter step next. -/
def commitOf (k : Nat) : State :=
  { loaded dataX with phase := .commit, sel := BitVec.ofNat 8 k, opos := 1, ipos := 10, stage := .xform (bytes dataX) [] }

/-- `DECODE` of `[k] ++ Y`, the header read and about to take effect. -/
def decodeOf (k : Nat) : State := { loaded (k :: dataY) with phase := .decHdr, ipos := 1, rdCount := 1 }

/-- The bytes of a list as numbers. -/
def nats (l : List Byte) : List Nat := l.map BitVec.toNat

/-- The last ten bytes of the result, the lane registers, the weight and `d`. -/
def ending (r : Result) : Option (List Nat × List Nat × List Nat × List Nat × Int × Nat) :=
  match r with
  | .next s =>
    some (nats (Memory.slice s.outMem (s.opos - 10) 10), nats s.dp.previous.toList, nats s.dp.sample1.toList,
      nats s.dp.sample2.toList, s.dp.weight, s.dp.d.val)
  | _ => none

/-- What the host sees: `OUT`, `SEL`, `SAMPLED`, `STATUS`; and `ipos`. -/
def seen (r : Result) : Option (List Nat × Nat × Nat × Nat × Nat) :=
  match r with
  | .next s => some (nats (outputBytes s), readReg 2 s, readReg 5 s, readReg 1 s, s.ipos)
  | _ => none

theorem next_of_seen {r : Result} (h : (seen r).isSome = true) : ∃ t, r = .next t := by
  cases r with
  | next s => exact ⟨s, rfl⟩
  | fault _ => cases h
  | refused _ => cases h

/-! ### The operations: V1, V10, V11, V20, V21, V22, V23, V25, V50 -/

theorem test_route_v1 :
    (List.range 10).map (laneOf 3) = [some 1, some 2, some 0, some 1, some 2, some 0, some 1, some 2, some 0, some 1] ∧
    (List.range 3).map (laneOf 1) = [some 0, some 0, some 0] ∧ laneOf 8 6 = some 7 ∧ laneOf 8 7 = some 0 := by decide
theorem test_route_outside : route 0 0 = none ∧ route 9 0 = none ∧ route 3 3 = none := by decide
theorem test_delta_v10_v11 :
    (deltaFwd 0 20 { Datapath.zero with previous := #v[10, 0, 0, 0, 0, 0, 0, 0] }).1 = 246 ∧
    (deltaFwd 0 0 { Datapath.zero with previous := #v[255, 0, 0, 0, 0, 0, 0, 0] }).1 = 255 ∧
    (deltaInv 0 246 { Datapath.zero with previous := #v[10, 0, 0, 0, 0, 0, 0, 0] }).1 = 20 ∧
    (deltaInv 0 246 { Datapath.zero with previous := #v[10, 0, 0, 0, 0, 0, 0, 0] }).2.previous[0] = 20 := by decide
theorem test_wupd_v20 :
    wupd 126 0 = 1 ∧ wupd 127 0 = 0 ∧ wupd 128 0 = -1 ∧ wupd 126 1280 = 1280 ∧ wupd 128 1280 = 1279 ∧
    wupd 200 (-1280) = -1280 ∧ wupd 126 (-1280) = -1279 := by decide
theorem test_asr_v21 :
    asr 63 6 = 0 ∧ asr 64 6 = 1 ∧ asr 1280 6 = 20 ∧ asr (-1) 6 = -1 ∧ asr (-64) 6 = -1 ∧ asr (-65) 6 = -2 ∧
    asr (-1280) 6 = -20 := by decide

/-- Lane 0 of V22: `sample1 = 10`, `sample2 = 7` and a weight. -/
def laneV22 (w : Int) : Datapath :=
  { Datapath.zero with
    sample1 := #v[10, 0, 0, 0, 0, 0, 0, 0], sample2 := #v[7, 0, 0, 0, 0, 0, 0, 0], weight := w }

/-- The result, the weight and lane 0 of the history. -/
def rowV22 (x : Byte × Datapath) : Nat × Int × Nat × Nat :=
  (x.1.toNat, x.2.weight, x.2.sample1[0].toNat, x.2.sample2[0].toNat)

theorem test_adaptive_v22 :
    [63, 64, 127, 128, -1, -64, -65, 1280, -1280].map (fun w => rowV22 (adaptFwd 0 20 (laneV22 w))) =
      [(249, 62, 20, 10), (250, 63, 21, 10), (250, 126, 21, 10), (251, 127, 22, 10), (248, -2, 19, 10),
       (248, -65, 19, 10), (247, -66, 18, 10), (13, 1280, 40, 10), (229, -1280, 0, 10)] := by decide
theorem test_adaptive_v23 :
    rowV22 (adaptInv 0 250 (laneV22 64)) = (20, 63, 21, 10) ∧
    rowV22 (adaptInv 0 229 (laneV22 (-1280))) = (20, -1280, 0, 10) := by decide
theorem test_prediction_v25 :
    prediction 0 { Datapath.zero with
      sample1 := #v[200, 0, 0, 0, 0, 0, 0, 0], sample2 := #v[10, 0, 0, 0, 0, 0, 0, 0] } = 134 ∧
    prediction 0 { Datapath.zero with sample2 := #v[1, 0, 0, 0, 0, 0, 0, 0] } = 255 := by decide

/-- A histogram row with counts `a` and `b` on two symbols (V50). -/
def row (a b : Nat) : Vector Nat 256 := ((Vector.replicate 256 0).set 3 a).set 200 b

theorem test_score_v50 : score (row 3 1) = 27 ∧ score (row 4 0) = 256 ∧ score (row 2 2) = 16 := by decide +kernel

/-! ### The methods, each in one step: V30 (the rest of a commit pass) and V31 (the whole decode pass) -/

theorem test_id_commit : ending (exec .id (commitOf 0)) =
    some ([10, 20, 30, 40, 50, 60, 70, 80, 90, 100], [0, 0, 0, 0, 0, 0, 0, 0], [0, 0, 0, 0, 0, 0, 0, 0],
      [0, 0, 0, 0, 0, 0, 0, 0], 0, 0) := by
  decide +kernel

theorem test_d1_commit : ending (exec .d1 (commitOf 1)) =
    some ([246, 246, 246, 246, 246, 246, 246, 246, 246, 246], [100, 0, 0, 0, 0, 0, 0, 0], [0, 0, 0, 0, 0, 0, 0, 0],
      [0, 0, 0, 0, 0, 0, 0, 0], 0, 0) := by
  decide +kernel

theorem test_d2_commit : ending (exec .d2 (commitOf 2)) =
    some ([246, 236, 236, 236, 236, 236, 236, 236, 236, 236], [100, 90, 0, 0, 0, 0, 0, 0], [0, 0, 0, 0, 0, 0, 0, 0],
      [0, 0, 0, 0, 0, 0, 0, 0], 0, 0) := by
  decide +kernel

theorem test_d3_commit : ending (exec .d3 (commitOf 3)) =
    some ([246, 236, 226, 226, 226, 226, 226, 226, 226, 226], [90, 100, 80, 0, 0, 0, 0, 0], [0, 0, 0, 0, 0, 0, 0, 0],
      [0, 0, 0, 0, 0, 0, 0, 0], 0, 1) := by
  decide +kernel

theorem test_d4_commit : ending (exec .d4 (commitOf 4)) =
    some ([246, 236, 226, 216, 216, 216, 216, 216, 216, 216], [80, 90, 100, 70, 0, 0, 0, 0], [0, 0, 0, 0, 0, 0, 0, 0],
      [0, 0, 0, 0, 0, 0, 0, 0], 0, 2) := by
  decide +kernel

theorem test_d5_commit : ending (exec .d5 (commitOf 5)) =
    some ([246, 236, 226, 216, 206, 206, 206, 206, 206, 206], [100, 60, 70, 80, 90, 0, 0, 0], [0, 0, 0, 0, 0, 0, 0, 0],
      [0, 0, 0, 0, 0, 0, 0, 0], 0, 0) := by
  decide +kernel

theorem test_d6_commit : ending (exec .d6 (commitOf 6)) =
    some ([246, 236, 226, 216, 206, 196, 196, 196, 196, 196], [60, 70, 80, 90, 100, 50, 0, 0], [0, 0, 0, 0, 0, 0, 0, 0],
      [0, 0, 0, 0, 0, 0, 0, 0], 0, 4) := by
  decide +kernel

theorem test_d7_commit : ending (exec .d7 (commitOf 7)) =
    some ([246, 236, 226, 216, 206, 196, 186, 186, 186, 186], [70, 80, 90, 100, 40, 50, 60, 0], [0, 0, 0, 0, 0, 0, 0, 0],
      [0, 0, 0, 0, 0, 0, 0, 0], 0, 3) := by
  decide +kernel

theorem test_d8_commit : ending (exec .d8 (commitOf 8)) =
    some ([246, 236, 226, 216, 206, 196, 186, 176, 176, 176], [80, 90, 100, 30, 40, 50, 60, 70], [0, 0, 0, 0, 0, 0, 0, 0],
      [0, 0, 0, 0, 0, 0, 0, 0], 0, 2) := by
  decide +kernel

theorem test_d1b_commit : ending (exec .d1b (commitOf 9)) =
    some ([246, 246, 246, 246, 246, 246, 246, 246, 246, 246], [100, 0, 0, 0, 0, 0, 0, 0], [0, 0, 0, 0, 0, 0, 0, 0],
      [0, 0, 0, 0, 0, 0, 0, 0], 0, 0) := by
  decide +kernel

theorem test_a2_commit : ending (exec .a2 (commitOf 10)) =
    some ([246, 235, 245, 253, 253, 254, 254, 254, 254, 254], [0, 0, 0, 0, 0, 0, 0, 0], [99, 89, 0, 0, 0, 0, 0, 0],
      [79, 69, 0, 0, 0, 0, 0, 0], -10, 0) := by
  decide +kernel

theorem test_a3_commit : ending (exec .a3 (commitOf 11)) =
    some ([246, 235, 225, 235, 243, 253, 253, 254, 254, 254], [0, 0, 0, 0, 0, 0, 0, 0], [89, 99, 79, 0, 0, 0, 0, 0],
      [59, 69, 49, 0, 0, 0, 0, 0], -10, 1) := by
  decide +kernel

theorem test_a4_commit : ending (exec .a4 (commitOf 12)) =
    some ([246, 235, 225, 215, 225, 233, 243, 253, 253, 254], [0, 0, 0, 0, 0, 0, 0, 0], [79, 89, 99, 69, 0, 0, 0, 0],
      [39, 49, 59, 29, 0, 0, 0, 0], -10, 2) := by
  decide +kernel

theorem test_a6_commit : ending (exec .a6 (commitOf 13)) =
    some ([246, 235, 225, 215, 205, 195, 205, 213, 223, 233], [0, 0, 0, 0, 0, 0, 0, 0], [59, 69, 79, 89, 99, 49, 0, 0],
      [0, 10, 19, 29, 39, 0, 0, 0], -10, 4) := by
  decide +kernel

theorem test_a8_commit : ending (exec .a8 (commitOf 14)) =
    some ([246, 235, 225, 215, 205, 195, 185, 175, 185, 193], [0, 0, 0, 0, 0, 0, 0, 0], [79, 89, 99, 29, 39, 49, 59, 69],
      [0, 10, 19, 0, 0, 0, 0, 0], -10, 2) := by
  decide +kernel

theorem test_id_decode : ending (exec .id (decodeOf 0)) =
    some ([1, 2, 3, 4, 5, 6, 7, 8, 9, 10], [0, 0, 0, 0, 0, 0, 0, 0], [0, 0, 0, 0, 0, 0, 0, 0],
      [0, 0, 0, 0, 0, 0, 0, 0], 0, 0) := by
  decide +kernel

theorem test_d1_decode : ending (exec .d1 (decodeOf 1)) =
    some ([255, 253, 250, 246, 241, 235, 228, 220, 211, 201], [201, 0, 0, 0, 0, 0, 0, 0], [0, 0, 0, 0, 0, 0, 0, 0],
      [0, 0, 0, 0, 0, 0, 0, 0], 0, 0) := by
  decide +kernel

theorem test_d2_decode : ending (exec .d2 (decodeOf 2)) =
    some ([255, 254, 252, 250, 247, 244, 240, 236, 231, 226], [226, 231, 0, 0, 0, 0, 0, 0], [0, 0, 0, 0, 0, 0, 0, 0],
      [0, 0, 0, 0, 0, 0, 0, 0], 0, 0) := by
  decide +kernel

theorem test_d3_decode : ending (exec .d3 (decodeOf 3)) =
    some ([255, 254, 253, 251, 249, 247, 244, 241, 238, 234], [238, 234, 241, 0, 0, 0, 0, 0], [0, 0, 0, 0, 0, 0, 0, 0],
      [0, 0, 0, 0, 0, 0, 0, 0], 0, 1) := by
  decide +kernel

theorem test_d4_decode : ending (exec .d4 (decodeOf 4)) =
    some ([255, 254, 253, 252, 250, 248, 246, 244, 241, 238], [244, 241, 238, 246, 0, 0, 0, 0], [0, 0, 0, 0, 0, 0, 0, 0],
      [0, 0, 0, 0, 0, 0, 0, 0], 0, 2) := by
  decide +kernel

theorem test_d5_decode : ending (exec .d5 (decodeOf 5)) =
    some ([255, 254, 253, 252, 251, 249, 247, 245, 243, 241], [241, 249, 247, 245, 243, 0, 0, 0], [0, 0, 0, 0, 0, 0, 0, 0],
      [0, 0, 0, 0, 0, 0, 0, 0], 0, 0) := by
  decide +kernel

theorem test_d6_decode : ending (exec .d6 (decodeOf 6)) =
    some ([255, 254, 253, 252, 251, 250, 248, 246, 244, 242], [250, 248, 246, 244, 242, 251, 0, 0], [0, 0, 0, 0, 0, 0, 0, 0],
      [0, 0, 0, 0, 0, 0, 0, 0], 0, 4) := by
  decide +kernel

theorem test_d7_decode : ending (exec .d7 (decodeOf 7)) =
    some ([255, 254, 253, 252, 251, 250, 249, 247, 245, 243], [249, 247, 245, 243, 252, 251, 250, 0], [0, 0, 0, 0, 0, 0, 0, 0],
      [0, 0, 0, 0, 0, 0, 0, 0], 0, 3) := by
  decide +kernel

theorem test_d8_decode : ending (exec .d8 (decodeOf 8)) =
    some ([255, 254, 253, 252, 251, 250, 249, 248, 246, 244], [248, 246, 244, 253, 252, 251, 250, 249], [0, 0, 0, 0, 0, 0, 0, 0],
      [0, 0, 0, 0, 0, 0, 0, 0], 0, 2) := by
  decide +kernel

theorem test_d1b_decode : ending (exec .d1b (decodeOf 9)) =
    some ([255, 253, 250, 246, 241, 235, 228, 220, 211, 201], [201, 0, 0, 0, 0, 0, 0, 0], [0, 0, 0, 0, 0, 0, 0, 0],
      [0, 0, 0, 0, 0, 0, 0, 0], 0, 0) := by
  decide +kernel

theorem test_a2_decode : ending (exec .a2 (decodeOf 10)) =
    some ([255, 254, 251, 248, 242, 236, 226, 216, 201, 186], [0, 0, 0, 0, 0, 0, 0, 0], [186, 201, 0, 0, 0, 0, 0, 0],
      [216, 226, 0, 0, 0, 0, 0, 0], 10, 0) := by
  decide +kernel

theorem test_a3_decode : ending (exec .a3 (decodeOf 11)) =
    some ([255, 254, 253, 250, 247, 244, 238, 232, 226, 216], [0, 0, 0, 0, 0, 0, 0, 0], [226, 216, 232, 0, 0, 0, 0, 0],
      [244, 238, 247, 0, 0, 0, 0, 0], 10, 1) := by
  decide +kernel

theorem test_a4_decode : ending (exec .a4 (decodeOf 12)) =
    some ([255, 254, 253, 252, 249, 246, 243, 240, 234, 228], [0, 0, 0, 0, 0, 0, 0, 0], [240, 234, 228, 243, 0, 0, 0, 0],
      [252, 249, 246, 253, 0, 0, 0, 0], 10, 2) := by
  decide +kernel

theorem test_a6_decode : ending (exec .a6 (decodeOf 13)) =
    some ([255, 254, 253, 252, 251, 250, 247, 244, 241, 238], [0, 0, 0, 0, 0, 0, 0, 0], [250, 247, 244, 241, 238, 251, 0, 0],
      [0, 255, 254, 253, 252, 0, 0, 0], 10, 4) := by
  decide +kernel

theorem test_a8_decode : ending (exec .a8 (decodeOf 14)) =
    some ([255, 254, 253, 252, 251, 250, 249, 248, 245, 242], [0, 0, 0, 0, 0, 0, 0, 0], [248, 245, 242, 253, 252, 251, 250, 249],
      [0, 255, 254, 0, 0, 0, 0, 0], 10, 2) := by
  decide +kernel


/-! ### The commands, each in one step: V40, V44, V33, V36 and the errors V60 to V67 -/

theorem test_encode_v40 : seen (exec .encode (loaded [10, 20, 30])) = some ([1, 246, 246, 246], 1, 3, 0x06, 3) := by
  decide +kernel
theorem test_encode_v44 : seen (exec .encode (loaded [1, 3])) = some ([4, 255, 253], 4, 2, 0x06, 2) := by decide +kernel
theorem test_decode_v33 :
    seen (exec .decode (loaded [12, 5, 250, 17, 128, 0, 1, 2, 3])) =
      some ([251, 6, 239, 128, 246, 11, 220, 253], 12, 0, 0x06, 9) := by decide +kernel
theorem test_decode_v36 : seen (exec .decode (loaded [14])) = some ([], 14, 0, 0x06, 1) := by decide +kernel
theorem test_unknown_mode_v60 :
    seen (step { loaded [1, 2, 3] with host := [.write 0 0x03] }) = some ([], 0, 0, 0x47, 0) := by decide +kernel
theorem test_header_missing_v61 : seen (exec .decode (loaded [])) = some ([], 0, 0, 0x87, 0) := by decide +kernel
theorem test_bad_header_v62 : seen (exec .decode (loaded [255, 1, 2])) = some ([], 255, 0, 0x77, 1) := by decide +kernel
theorem test_write_fault_v63 :
    seen (exec .encode { loaded [10, 20, 30] with
      plat := { State.reset.plat with wrFaults := [.position 0] } }) = some ([], 1, 3, 0x67, 0) := by decide +kernel
theorem test_write_fault_v64 :
    seen (exec .decode { loaded [1, 246, 246, 246] with
      plat := { State.reset.plat with wrFaults := [.position 2] } }) = some ([10, 20], 1, 0, 0x67, 4) := by
  decide +kernel
theorem test_read_fault_v65 :
    seen (exec .encode { loaded [10, 20, 30] with
      plat := { State.reset.plat with rdFaults := [.count 1] } }) = some ([], 0, 0, 0x57, 0) := by decide +kernel
theorem test_read_fault_v66 :
    seen (exec .encode { loaded [10, 20, 30] with
      plat := { State.reset.plat with rdFaults := [.count 4] } }) = some ([1], 1, 3, 0x57, 0) := by decide +kernel
theorem test_read_fault_v67 :
    seen (exec .decode { loaded [1, 246, 246, 246] with
      plat := { State.reset.plat with rdFaults := [.position 2] } }) = some ([], 1, 0, 0x57, 1) := by decide +kernel
theorem test_command_while_busy_v72 :
    exec .encode { decodeOf 3 with pace := .steps 0 } = .next { decodeOf 3 with pace := .steps 0 } ∧
    exec .decode { decodeOf 3 with pace := .steps 0 } = .next { decodeOf 3 with pace := .steps 0 } := ⟨rfl, rfl⟩
theorem test_fetch_word_command :
    fetch (State.reset.withFetchWord 8 0x01) = .run .encode State.reset := by rfl
theorem test_fetch_word_header :
    seen (step (State.reset.withFetchWord 8 0x0d)) = some ([], 13, 0, 0x06, 1) := by decide +kernel

/-! ### The statements' hypotheses are met -/

/-- A machine with three input bytes at a place of a pass, one transition at a time. -/
def placed (p : Phase) (g : Stage) : State := { loaded [10, 20, 30] with phase := p, stage := g, pace := .steps 0 }

theorem no_read_fault (s : State) (h : s.plat.rdFaults = []) : NoReadFault s.plat := by
  intro t a
  simp [rdFault, h]

theorem no_write_fault (s : State) (n : Nat) (h : s.plat.wrFaults = []) (h' : s.plat.outSize = none) :
    NoWriteFault s.plat n := by
  intro t a _
  simp [wrFault, beyondOut, h, h']

theorem witness_LegalBytes :
    15 ≤ (0x0f#8).toNat ∧ 15 ≤ (0xff#8).toNat ∧ (0x00#8 ≠ 0x01#8 ∧ 0x00#8 ≠ 0x02#8) ∧
    (0x03#8 ≠ 0x01#8 ∧ 0x03#8 ≠ 0x02#8) := by decide

theorem witness_CandidateTable : (Instr.id, (0 : Fin 15)) ∈ methods ∧ (Instr.a8, (14 : Fin 15)) ∈ methods := by decide

theorem witness_StepRunsCommandByte : ∃ (s : State) (rest : List HostMove),
    s.host = .write 0 2 :: rest ∧ decode .cmd (BitVec.ofNat 8 2) = .ok .decode :=
  ⟨{ loaded [1] with host := [.write 0 2, .wait] }, _, rfl, rfl⟩

theorem witness_StepRunsHeaderByte : ∃ s : State, EngineFree s ∧ s.phase = .decHdr ∧ s.inLen ≠ 0 ∧
    rdFault s.plat s.rdCount 0 = false ∧ decode .hdr (Memory.read s.inMem 0) = .ok .a8 :=
  ⟨{ loaded [14] with phase := .decHdr, host := [.wait] }, Or.inr ⟨_, rfl⟩, rfl, by decide, rfl, rfl⟩

theorem witness_StepRunsMethodInUse :
    (∃ s : State, EngineFree s ∧ s.phase = .scan ∧ (∃ block, s.stage = .unit block [30]) ∧
      decode .hdr (headerOf s.cand) = .ok .d5) ∧
    (∃ s : State, EngineFree s ∧ s.phase = .decBody ∧ (∃ rdone, s.stage = .xform [30] rdone) ∧
      decode .hdr s.sel = .ok .a2) :=
  ⟨⟨{ placed .scan (.unit [10, 20, 30] [30]) with cand := 5 }, Or.inl rfl, rfl, ⟨_, rfl⟩, rfl⟩,
   ⟨{ placed .decBody (.xform [30] [20]) with sel := 10 }, Or.inl rfl, rfl, ⟨_, rfl⟩, rfl⟩⟩

theorem witness_RouteReturnsNextLane :
    (1 ≤ 1 ∧ 1 ≤ 8 ∧ (0 : Fin 8).val < 1) ∧ (1 ≤ 8 ∧ 8 ≤ 8 ∧ (7 : Fin 8).val < 8) ∧
    ¬ (1 ≤ 0 ∧ 0 ≤ 8 ∧ (0 : Fin 8).val < 0) ∧ ¬ (1 ≤ 9 ∧ 9 ≤ 8 ∧ (0 : Fin 8).val < 9) ∧
    ¬ (1 ≤ 3 ∧ 3 ≤ 8 ∧ (3 : Fin 8).val < 3) := by decide

theorem witness_RouteClosedForm : (1 ≤ 1 ∧ 1 ≤ 8 ∧ 0 < 1) ∧ (1 ≤ 8 ∧ 8 ≤ 8 ∧ 7 < 8) := by decide

theorem witness_EffectiveWeight :
    (-1280 ≤ (laneV22 1280).weight ∧ (laneV22 1280).weight ≤ 1280) ∧
    (-1280 ≤ (laneV22 (-1280)).weight ∧ (laneV22 (-1280)).weight ≤ 1280) := by decide

theorem witness_WeightUpdate :
    (-1280 ≤ (1280 : Int) ∧ (1280 : Int) ≤ 1280) ∧ (-1280 ≤ (-1280 : Int) ∧ (-1280 : Int) ≤ 1280) ∧
    (126 : Byte).toNat < 127 ∧ (127 : Byte).toNat = 127 ∧ 127 < (128 : Byte).toNat := by decide

theorem witness_WeightSaturates :
    (∀ e ∈ ([0, 126] : List Byte), e.toNat < 127) ∧ (∀ e ∈ ([128, 255] : List Byte), 127 < e.toNat) := by decide

theorem witness_DeltaInverse : 1 ≤ 8 ∧ 8 ≤ 8 ∧ ({ Datapath.zero with d := 7 } : Datapath).d.val < 8 := by decide

theorem witness_AdaptiveInverse : 1 ≤ 1 ∧ 1 ≤ 8 ∧ (laneV22 (-1280)).d.val < 1 := by decide

/-- V12 in the forward direction, and its first three bytes back. -/
theorem witness_DeltaClosedForm : (Instr.d2, (2 : Fin 15), 2) ∈ deltaMethods ∧
    (∃ out q, xformFwd 2 (bytes [1, 2, 3, 4, 250, 5]) = some (out, q) ∧ nats out = [255, 254, 254, 254, 9, 255]) ∧
    (∃ out q, xformInv 2 (bytes [255, 254, 254]) = some (out, q) ∧ nats out = [1, 2, 3]) :=
  ⟨by decide, ⟨_, _, rfl, by decide⟩, ⟨_, _, rfl, by decide⟩⟩

/-- V13. -/
theorem witness_ConstantLaneGivesZeros : (Instr.d3, (3 : Fin 15), 3) ∈ deltaMethods ∧ 1 < 3 ∧
    (∀ i, i < (bytes [7, 99, 1, 8, 99, 5]).length → i % 3 = 1 → (bytes [7, 99, 1, 8, 99, 5]).getD i 0 = 99) ∧
    ∃ out q, xformFwd 3 (bytes [7, 99, 1, 8, 99, 5]) = some (out, q) ∧ nats out = [249, 157, 255, 255, 0, 252] :=
  ⟨by decide, by decide, by decide, _, _, rfl, by decide⟩

theorem witness_FullPassTouchesOwnLanes :
    (∃ out q, xformFwd 0 (bytes [7]) = some (out, q) ∧ (candAt 0).fam = .identity ∧ (candAt 0).n ≤ (0 : Fin 8).val) ∧
    (∃ out q, xformFwd 3 (bytes [7, 8]) = some (out, q) ∧ (candAt 3).fam = .delta ∧ (candAt 3).n ≤ (3 : Fin 8).val) ∧
    (∃ out q, xformInv 13 (bytes [7, 8]) = some (out, q) ∧ (candAt 13).fam = .adaptive ∧
      (candAt 13).n ≤ (7 : Fin 8).val) :=
  ⟨⟨_, _, rfl, rfl, by decide⟩, ⟨_, _, rfl, rfl, by decide⟩, ⟨_, _, rfl, rfl, by decide⟩⟩

theorem witness_HistogramCounts :
    ((1 : Fin 15) ≠ 2 ∨ (5 : Byte) ≠ 5) ∧ ((1 : Fin 15) ≠ 1 ∨ (5 : Byte) ≠ 6) := by decide

theorem witness_EntropyRange :
    (row 4 0).toList.filter (fun x => x != 0) = List.replicate 1 4 ∧
    (row 2 2).toList.filter (fun x => x != 0) = List.replicate 2 2 ∧
    ((row 3 1).toList.filter (fun x => x != 0)).Perm ((row 1 3).toList.filter (fun x => x != 0)) := by
  have h1 : (row 3 1).toList.filter (fun x => x != 0) = [3, 1] := by decide +kernel
  have h2 : (row 1 3).toList.filter (fun x => x != 0) = [1, 3] := by decide +kernel
  refine ⟨by decide +kernel, by decide +kernel, ?_⟩
  rw [h1, h2]
  exact List.Perm.swap 1 3 []

theorem witness_EntropyOrder : histTotal (row 3 1) = histTotal (row 2 2) ∧ score (row 2 2) < score (row 3 1) := by
  decide +kernel

/-- Fifteen histograms with one total, of which candidate 4 has the least entropy. -/
def histOf4 : Hist := (Vector.replicate 15 (row 2 2)).set 4 (row 4 0)

theorem witness_SelectsLeastEntropy :
    (∀ k : Fin 15, histTotal histOf4[k] = 4) ∧ selectBest histOf4 = 4 ∧ (3 : Fin 15) < selectBest histOf4 := by
  decide +kernel

theorem witness_PassEntry :
    (∃ s : State, EngineFree s ∧ s.pace = .steps 0 ∧ s.stage = .entry ∧ s.phase = .scan) ∧
    (∃ s : State, EngineFree s ∧ s.pace = .steps 0 ∧ s.stage = .entry ∧ s.phase = .commit) :=
  ⟨⟨placed .scan .entry, Or.inl rfl, rfl, rfl, rfl⟩, ⟨placed .commit .entry, Or.inl rfl, rfl, rfl, rfl⟩⟩

theorem witness_BlockLoop :
    (∃ s : State, EngineFree s ∧ s.pace = .steps 0 ∧ s.stage = .loop ∧ s.phase = .decBody ∧ s.ipos < s.inLen) ∧
    (∃ s : State, EngineFree s ∧ s.pace = .steps 0 ∧ s.stage = .loop ∧ s.phase = .scan ∧ s.inLen ≤ s.ipos) ∧
    (∃ s : State, EngineFree s ∧ s.pace = .steps 0 ∧ s.stage = .loop ∧ s.phase = .commit ∧ s.inLen ≤ s.ipos) :=
  ⟨⟨{ placed .decBody .loop with ipos := 2 }, Or.inl rfl, rfl, rfl, rfl, by decide⟩,
   ⟨{ placed .scan .loop with ipos := 3 }, Or.inl rfl, rfl, rfl, rfl, by decide⟩,
   ⟨{ placed .commit .loop with ipos := 3 }, Or.inl rfl, rfl, rfl, rfl, by decide⟩⟩

theorem witness_BlockRead :
    (∃ s : State, EngineFree s ∧ s.pace = .steps 0 ∧ s.stage = .read 1 3 [10] ∧ s.phase = .scan ∧
      s.ipos + 1 < s.inLen ∧ rdFault s.plat s.rdCount (s.ipos + 1) = true) ∧
    (∃ s : State, EngineFree s ∧ s.pace = .steps 0 ∧ s.stage = .read 1 3 [10] ∧ s.phase = .commit ∧
      s.ipos + 1 < s.inLen ∧ rdFault s.plat s.rdCount (s.ipos + 1) = false ∧ 1 + 1 < 3) ∧
    (∃ s : State, EngineFree s ∧ s.pace = .steps 0 ∧ s.stage = .read 2 3 [20, 10] ∧ s.phase = .scan ∧
      s.ipos + 2 < s.inLen ∧ rdFault s.plat s.rdCount (s.ipos + 2) = false ∧ 3 ≤ 2 + 1) ∧
    (∃ s : State, EngineFree s ∧ s.pace = .steps 0 ∧ s.stage = .read 2 3 [20, 10] ∧ s.phase = .commit ∧
      s.ipos + 2 < s.inLen ∧ rdFault s.plat s.rdCount (s.ipos + 2) = false ∧ 3 ≤ 2 + 1) :=
  ⟨⟨{ placed .scan (.read 1 3 [10]) with plat := { State.reset.plat with rdFaults := [.both 0 1] } }, Or.inl rfl, rfl,
      rfl, rfl, by decide, rfl⟩,
   ⟨placed .commit (.read 1 3 [10]), Or.inl rfl, rfl, rfl, rfl, by decide, rfl, by decide⟩,
   ⟨placed .scan (.read 2 3 [20, 10]), Or.inl rfl, rfl, rfl, rfl, by decide, rfl, by decide⟩,
   ⟨placed .commit (.read 2 3 [20, 10]), Or.inl rfl, rfl, rfl, rfl, by decide, rfl, by decide⟩⟩

theorem witness_UnitEnd :
    (∃ s : State, EngineFree s ∧ s.pace = .steps 0 ∧ s.phase = .scan ∧ s.stage = .unit [10] [] ∧
      (14 : Fin 15).val = s.cand.val + 1) ∧
    (∃ s : State, EngineFree s ∧ s.pace = .steps 0 ∧ s.phase = .scan ∧ s.stage = .unit [10] [] ∧ s.cand = 14) :=
  ⟨⟨{ placed .scan (.unit [10] []) with cand := 13 }, Or.inl rfl, rfl, rfl, rfl, rfl⟩,
   ⟨{ placed .scan (.unit [10] []) with cand := 14 }, Or.inl rfl, rfl, rfl, rfl, rfl⟩⟩

theorem witness_SelectStep : ∃ s : State, EngineFree s ∧ s.pace = .steps 0 ∧ s.phase = .select :=
  ⟨placed .select .idle, Or.inl rfl, rfl, rfl⟩

theorem witness_OutputWrite :
    (∃ s : State, EngineFree s ∧ s.pace = .steps 0 ∧ s.phase = .commit ∧ s.stage = .header ∧ s.sel = 7 ∧
      wrFault s.plat s.wrCount s.opos = false) ∧
    (∃ s : State, EngineFree s ∧ s.pace = .steps 0 ∧ s.phase = .decBody ∧ s.stage = .write [9] ∧
      wrFault s.plat s.wrCount s.opos = true) :=
  ⟨⟨{ placed .commit .header with sel := 7 }, Or.inl rfl, rfl, rfl, rfl, rfl, rfl⟩,
   ⟨{ placed .decBody (.write [9]) with plat := { State.reset.plat with outSize := some 0 } }, Or.inl rfl, rfl, rfl,
      rfl, rfl⟩⟩

theorem witness_IdentityMethod :
    (∃ s : State, s.pace = .steps 0 ∧ s.phase = .scan ∧ s.stage = .unit [30] (30 :: [])) ∧
    (∃ s : State, s.pace = .steps 0 ∧ (s.phase = .commit ∨ s.phase = .decBody) ∧ s.stage = .xform (30 :: []) []) :=
  ⟨⟨placed .scan (.unit [30] [30]), rfl, rfl, rfl⟩, ⟨placed .decBody (.xform [30] []), rfl, Or.inr rfl, rfl⟩⟩

/-- `D8` on lane counter 7, the largest `d` there is (R233), and `D1`. -/
theorem witness_DeltaMethods :
    (Instr.d8, (8 : Fin 15), 8) ∈ deltaMethods ∧ (Instr.d1, (1 : Fin 15), 1) ∈ deltaMethods ∧
    (∃ (s : State) (l : Fin 8), s.pace = .steps 0 ∧ s.dp.d.val < 8 ∧ l.val = (s.dp.d.val + 1) % 8 ∧
      s.phase = .scan ∧ s.stage = .unit [30] (30 :: [])) ∧
    (∃ (s : State) (l : Fin 8), s.pace = .steps 0 ∧ s.dp.d.val < 1 ∧ l.val = (s.dp.d.val + 1) % 1 ∧
      s.phase = .commit ∧ s.stage = .xform (30 :: []) []) ∧
    (∃ (s : State) (l : Fin 8), s.pace = .steps 0 ∧ s.dp.d.val < 1 ∧ l.val = (s.dp.d.val + 1) % 1 ∧
      s.phase = .decBody ∧ s.stage = .xform (30 :: []) []) :=
  ⟨by decide, by decide,
   ⟨{ placed .scan (.unit [30] [30]) with dp := { Datapath.zero with d := 7 } }, 0, rfl, by decide, by decide, rfl, rfl⟩,
   ⟨placed .commit (.xform [30] []), 0, rfl, by decide, by decide, rfl, rfl⟩,
   ⟨placed .decBody (.xform [30] []), 0, rfl, by decide, by decide, rfl, rfl⟩⟩

theorem witness_AdaptiveMethods :
    (Instr.a8, (14 : Fin 15), 8) ∈ adaptiveMethods ∧ (Instr.a2, (10 : Fin 15), 2) ∈ adaptiveMethods ∧
    (∃ (s : State) (l : Fin 8) (w : Byte), s.pace = .steps 0 ∧ s.dp.d.val < 8 ∧ l.val = (s.dp.d.val + 1) % 8 ∧
      w = BitVec.ofInt 8 (s.dp.weight / 64) ∧ s.phase = .scan ∧ s.stage = .unit [30] (30 :: [])) ∧
    (∃ (s : State) (l : Fin 8) (w : Byte), s.pace = .steps 0 ∧ s.dp.d.val < 2 ∧ l.val = (s.dp.d.val + 1) % 2 ∧
      w = BitVec.ofInt 8 (s.dp.weight / 64) ∧ s.phase = .commit ∧ s.stage = .xform (30 :: []) []) ∧
    (∃ (s : State) (l : Fin 8) (w : Byte), s.pace = .steps 0 ∧ s.dp.d.val < 2 ∧ l.val = (s.dp.d.val + 1) % 2 ∧
      w = BitVec.ofInt 8 (s.dp.weight / 64) ∧ s.phase = .decBody ∧ s.stage = .xform (30 :: []) []) :=
  ⟨by decide, by decide,
   ⟨{ placed .scan (.unit [30] [30]) with dp := { laneV22 1280 with d := 7 } }, 0, 20, rfl, by decide, by decide,
      by decide, rfl, rfl⟩,
   ⟨{ placed .commit (.xform [30] []) with dp := laneV22 (-1280) }, 1, 236, rfl, by decide, by decide, by decide, rfl,
      rfl⟩,
   ⟨{ placed .decBody (.xform [30] []) with dp := laneV22 (-1) }, 1, 255, rfl, by decide, by decide, by decide, rfl,
      rfl⟩⟩

theorem witness_HeaderSelectsMethod : (Instr.d1b, (9 : Fin 15)) ∈ methods ∧
    ∃ s : State, s.pace = .steps 0 ∧ s.phase = .decHdr :=
  ⟨by decide, placed .decHdr .idle, rfl, rfl⟩

theorem witness_HeaderMethodDecodesStream : (Instr.a8, (14 : Fin 15)) ∈ methods ∧
    ∃ s : State, s.pace = .toRest ∧ s.phase = .decHdr ∧ s.ipos = 1 ∧ 1 ≤ s.inLen ∧ NoReadFault s.plat ∧
      NoWriteFault s.plat (s.opos + (s.inLen - 1)) :=
  ⟨by decide, decodeOf 14, rfl, rfl, rfl, by decide, no_read_fault _ rfl, no_write_fault _ _ rfl rfl⟩

theorem witness_MethodElsewhereRefused : (Instr.id, (0 : Fin 15)) ∈ methods ∧ State.reset.phase = .idle ∧
    (∃ s : State, s.phase = .scan ∧ s.stage = .unit [30] [] ∧ ∀ block b todo, s.stage ≠ .unit block (b :: todo)) ∧
    (∃ s : State, s.phase = .commit ∧ s.stage = .xform [] [30] ∧ ∀ b todo rdone, s.stage ≠ .xform (b :: todo) rdone) :=
  ⟨by decide, rfl, ⟨placed .scan (.unit [30] []), rfl, rfl, fun _ _ _ h => (nomatch h)⟩,
    ⟨placed .commit (.xform [] [30]), rfl, rfl, fun _ _ _ h => (nomatch h)⟩⟩

theorem witness_CommandLaunch :
    (∃ s : State, s.pace = .steps 0 ∧ busy s = false) ∧ (∃ s : State, s.pace = .steps 0 ∧ busy s = true) ∧
    (∃ (s : State) (rest : List HostMove), s.pace = .steps 0 ∧ s.host = .write 0 256 :: rest ∧ 256 % 256 ≠ 1 ∧
      256 % 256 ≠ 2 ∧ busy s = false) ∧
    (∃ (s : State) (rest : List HostMove), s.pace = .steps 0 ∧ s.host = .write 0 3 :: rest ∧ 3 % 256 ≠ 1 ∧
      3 % 256 ≠ 2 ∧ busy s = true) :=
  ⟨⟨placed .error .idle, rfl, rfl⟩, ⟨placed .select .idle, rfl, rfl⟩,
   ⟨{ placed .idle .idle with host := [.write 0 256] }, [], rfl, rfl, by decide, by decide, rfl⟩,
   ⟨{ placed .select .idle with host := [.write 0 3] }, [], rfl, rfl, by decide, by decide, rfl⟩⟩

theorem witness_EncodeCompletes : ∃ s : State, s.pace = .toRest ∧ busy s = false ∧ NoReadFault s.plat ∧
    NoWriteFault s.plat (s.inLen + 1) ∧ Memory.wf s.outMem = true :=
  ⟨{ loaded [10, 20, 30] with phase := .done, outMem := [(0, 5), (9, 6)] }, rfl, rfl, no_read_fault _ rfl,
    no_write_fault _ _ rfl rfl, by decide⟩

theorem witness_DecodeCompletes : ∃ s : State, s.pace = .toRest ∧ busy s = false ∧ NoReadFault s.plat ∧
    NoWriteFault s.plat (s.inLen - 1) ∧ 1 ≤ s.inLen ∧ Memory.read s.inMem 0 = BitVec.ofNat 8 (14 : Fin 15).val ∧
    Memory.wf s.outMem = true :=
  ⟨loaded [14], rfl, rfl, no_read_fault _ rfl, no_write_fault _ _ rfl rfl, by decide, by decide, by decide⟩

theorem witness_DecodeHeaderErrors :
    (∃ s : State, s.pace = .toRest ∧ busy s = false ∧ s.inLen = 0) ∧
    (∃ s : State, s.pace = .toRest ∧ busy s = false ∧ s.inLen ≠ 0 ∧ rdFault s.plat 0 0 = true) ∧
    (∃ s : State, s.pace = .toRest ∧ busy s = false ∧ s.inLen ≠ 0 ∧ rdFault s.plat 0 0 = false ∧
      15 ≤ (Memory.read s.inMem 0).toNat) :=
  ⟨⟨loaded [], rfl, rfl, rfl⟩,
   ⟨{ loaded [15] with plat := { State.reset.plat with rdFaults := [.count 0] } }, rfl, rfl, by decide, rfl⟩,
   ⟨loaded [15], rfl, rfl, by decide, rfl, by decide⟩⟩

theorem witness_ShortestInputs :
    (∃ s : State, s.pace = .toRest ∧ busy s = false ∧ NoReadFault s.plat ∧ NoWriteFault s.plat (s.inLen + 1) ∧
      Memory.wf s.outMem = true ∧ s.inLen = 0) ∧
    (∃ s : State, s.pace = .toRest ∧ busy s = false ∧ NoReadFault s.plat ∧ NoWriteFault s.plat (s.inLen + 1) ∧
      Memory.wf s.outMem = true ∧ s.inLen = 1) :=
  ⟨⟨loaded [], rfl, rfl, no_read_fault _ rfl, no_write_fault _ _ rfl rfl, by decide, rfl⟩,
   ⟨loaded [7], rfl, rfl, no_read_fault _ rfl, no_write_fault _ _ rfl rfl, by decide, rfl⟩⟩

theorem witness_EncodeThenDecode : ∃ s : State, s.host = [.write 0 1, .copyOut, .write 0 2] ∧ s.pace = .toRest ∧
    busy s = false ∧ NoReadFault s.plat ∧ (∀ n, NoWriteFault s.plat n) ∧ s.plat.posw = none ∧
    Memory.wf s.inMem = true ∧ Memory.wf s.outMem = true :=
  ⟨{ loaded [10, 20, 30] with host := [.write 0 1, .copyOut, .write 0 2] }, rfl, rfl, rfl, no_read_fault _ rfl,
    fun n => no_write_fault _ n rfl rfl, rfl, by decide, by decide⟩

/-- One instruction of each kind with a next state: a method that runs a pass to its end, a command accepted, a command
ignored. -/
theorem witness_InstructionFrame :
    (∃ t, exec .a2 (decodeOf 10) = .next t) ∧ Memory.wf (decodeOf 10).outMem = true ∧
    (∃ t, exec .decode (loaded [9, 246]) = .next t) ∧ busy (loaded [9, 246]) = false ∧
    (∃ t, exec .encode (placed .select .idle) = .next t) ∧ busy (placed .select .idle) = true :=
  ⟨⟨_, rfl⟩, by decide, ⟨_, rfl⟩, rfl, ⟨_, rfl⟩, rfl⟩

theorem witness_DecodeLeavesHistograms :
    (∃ t, exec .decode (loaded [9, 246]) = .next t) ∧ busy (loaded [9, 246]) = false :=
  ⟨⟨_, rfl⟩, rfl⟩

/-- The same input on a fresh machine and on one that still holds another command's results. -/
def used : State :=
  { loaded [9, 246] with
    phase := .error, err := .badHeader, sel := 77, opos := 5, sampled := 12, outMem := [(3, 4)], ipos := 1
    inMem := [(0, 9), (1, 246), (7, 1)]
    dp := laneV22 5, hist := histOf4, cand := 3 }

theorem witness_ResultIndependentOfHistory :
    Instr.decode.format = .cmd ∧ (loaded [9, 246]).pace = .toRest ∧ used.pace = .toRest ∧
    busy (loaded [9, 246]) = false ∧ busy used = false ∧ (loaded [9, 246]).plat = used.plat ∧
    (loaded [9, 246]).inLen = used.inLen ∧ inputBytes (loaded [9, 246]) = inputBytes used ∧
    Memory.wf (loaded [9, 246]).outMem = true ∧ Memory.wf used.outMem = true ∧
    (∃ t, exec .decode (loaded [9, 246]) = .next t) ∧ (∃ t, exec .decode used = .next t) ∧
    Instr.encode.format = .cmd ∧ (∃ t, exec .encode (loaded [9, 246]) = .next t) ∧ ∃ t, exec .encode used = .next t :=
  ⟨rfl, rfl, rfl, rfl, rfl, rfl, rfl, by decide, by decide, by decide, ⟨_, rfl⟩, ⟨_, rfl⟩, rfl,
    next_of_seen (by decide +kernel), next_of_seen (by decide +kernel)⟩

/-- A machine inside a decode pass: `D3`, two of three bytes transformed, the lane counter at 2. -/
def decoding : State :=
  { loaded [3, 246, 236, 226] with
    phase := .decBody, sel := 3, ipos := 4, rdCount := 4, stage := .xform [226] [20, 10], pace := .steps 0
    dp := { Datapath.zero with previous := #v[0, 10, 20, 0, 0, 0, 0, 0], d := 2 } }

theorem decoding_consistent : Consistent decoding where
  inWf := by decide
  outWf := by decide
  errPhase := by decide
  placed := rfl
  position := fun _ => by decide
  block := trivial
  method := ⟨3, by decide, Or.inr (by decide)⟩
  weight := reset_weight
  totals := trivial
  lengths := (by decide : 0 + (1 + 2) + 1 = 4)

theorem witness_StepKeepsConsistent : Consistent decoding ∧ ∃ t, step decoding = .next t :=
  ⟨decoding_consistent, _, rfl⟩

theorem witness_StepStopsOnlyOnHostDuty : Consistent decoding := decoding_consistent

/-- An engine transition, a host access, and the hardware reset. -/
theorem witness_PhaseTransitions :
    (decoding.pace = .steps 0 ∧ (∀ p rest, decoding.host ≠ .setPace p :: rest) ∧ ∃ t, step decoding = .next t) ∧
    (∃ s : State, s.pace = .steps 0 ∧ (∀ p rest, s.host ≠ .setPace p :: rest) ∧ ∃ t, step s = .next t ∧
      t.phase = .idle ∧ s.phase ≠ .idle) :=
  ⟨⟨rfl, fun _ _ h => (nomatch h), _, rfl⟩,
   ⟨{ decoding with host := [.hwReset] }, rfl, fun _ _ h => (nomatch h), _, rfl, rfl, by decide⟩⟩

theorem witness_CommandsTerminate :
    (Consistent decoding ∧ decoding.host = [] ∧ decoding.pace = .steps 0) ∧
    (∃ s : State, Consistent s ∧ s.host = [] ∧ s.pace = .toRest ∧ busy s = true) ∧
    (∃ s : State, Consistent s ∧ s.host = [] ∧ busy s = false) :=
  ⟨⟨decoding_consistent, rfl, rfl⟩,
   ⟨{ decoding with pace := .toRest }, ⟨decoding_consistent.inWf, decoding_consistent.outWf, decoding_consistent.errPhase,
      rfl, decoding_consistent.position, trivial, decoding_consistent.method, decoding_consistent.weight, trivial,
      decoding_consistent.lengths⟩, rfl, rfl, rfl⟩,
   ⟨{ loaded [5] with phase := .error, err := .readError }, ⟨by decide, by decide, by decide, rfl, fun h => (nomatch h),
      trivial, trivial, trivial, trivial, trivial⟩, rfl, rfl⟩⟩

theorem witness_OutputInOrder :
    ∃ s t : State, EngineFree s ∧ s.pace = .steps 0 ∧ step s = .next t ∧ t.opos = s.opos + 1 :=
  ⟨placed .decBody (.write [9]), _, Or.inl rfl, rfl, rfl, rfl⟩

theorem witness_HardwareReset : ∃ (s : State) (rest : List HostMove), s.host = .hwReset :: rest ∧ busy s = true :=
  ⟨{ decoding with host := [.hwReset, .wait] }, _, rfl, rfl⟩

theorem witness_StatusLayout : Consistent decoding := decoding_consistent

theorem witness_HostReads :
    (∃ (s : State) (rest : List HostMove), s.host = .read 5 :: rest ∧ s.pace = .steps 0 ∧ 5 ≠ 2 ∧ busy s = true) ∧
    (∃ (s : State) (rest : List HostMove), s.host = .read 2 :: rest ∧ s.pace = .steps 0 ∧ busy s = false) ∧
    (∃ (s : State) (rest : List HostMove), s.host = .read 2 :: rest ∧ s.pace = .steps 0 ∧ busy s = true) ∧
    (∃ (s : State) (rest : List HostMove), s.host = .wait :: rest ∧ s.pace = .steps 0 ∧ s.phase = .error) ∧
    (∃ (s : State) (rest : List HostMove), s.host = .wait :: rest ∧ s.pace = .steps 0 ∧ s.phase = .idle) :=
  ⟨⟨{ decoding with host := [.read 5] }, _, rfl, rfl, by decide, rfl⟩,
   ⟨{ placed .done .idle with host := [.read 2], sel := 7 }, _, rfl, rfl, rfl⟩,
   ⟨{ decoding with host := [.read 2] }, _, rfl, rfl, rfl⟩,
   ⟨{ placed .error .idle with host := [.wait] }, _, rfl, rfl, rfl⟩,
   ⟨{ placed .idle .idle with host := [.wait] }, _, rfl, rfl, rfl⟩⟩

theorem witness_HostWrites :
    (∃ (s : State) (rest : List HostMove), s.host = .write 3 4 :: rest ∧ s.pace = .steps 0 ∧ busy s = false ∧
      lengthFits s.plat 4 = true) ∧
    (∃ (s : State) (rest : List HostMove), s.host = .write 3 4 :: rest ∧ s.pace = .steps 0 ∧ busy s = true) ∧
    (∃ (s : State) (rest : List HostMove), s.host = .write 6 4 :: rest ∧ s.pace = .steps 0 ∧ 6 ≠ 0 ∧ 6 ≠ 3) ∧
    (∃ (s : State) (rest : List HostMove), s.host = .write 3 15 :: rest ∧ s.pace = .steps 0 ∧ busy s = false ∧
      lengthFits s.plat 15 = false) :=
  ⟨⟨{ placed .done .idle with host := [.write 3 4], plat := { State.reset.plat with posw := some 20 } }, [], rfl, rfl,
      rfl, by decide⟩,
   ⟨{ decoding with host := [.write 3 4] }, [], rfl, rfl, rfl⟩,
   ⟨{ decoding with host := [.write 6 4] }, [], rfl, rfl, by decide, by decide⟩,
   ⟨{ placed .done .idle with host := [.write 3 15], plat := { State.reset.plat with posw := some 4 } }, [], rfl, rfl,
      rfl, by decide⟩⟩

/-- The host's other accesses: at rest and while busy, and a result too long for `POSW`. -/
theorem witness_HostWrites_spaces :
    (∃ (s : State) (rest : List HostMove), s.host = .fillIn [7, 8] :: rest ∧ s.pace = .steps 0 ∧ busy s = false ∧
      Memory.wf s.inMem = true) ∧
    (∃ (s : State) (rest : List HostMove), s.host = .fillIn [7, 8] :: rest ∧ s.pace = .steps 0 ∧ busy s = true) ∧
    (∃ (s : State) (rest : List HostMove), s.host = .copyOut :: rest ∧ s.pace = .steps 0 ∧ busy s = false ∧
      lengthFits s.plat s.opos = true ∧ Memory.wf s.inMem = true) ∧
    (∃ (s : State) (rest : List HostMove), s.host = .copyOut :: rest ∧ s.pace = .steps 0 ∧ busy s = false ∧
      lengthFits s.plat s.opos = false) ∧
    (∃ (s : State) (rest : List HostMove), s.host = .copyOut :: rest ∧ s.pace = .steps 0 ∧ busy s = true) ∧
    (∃ (s : State) (rest : List HostMove), s.host = .provideOut (some 4) :: rest ∧ s.pace = .steps 0 ∧ busy s = false) ∧
    (∃ (s : State) (rest : List HostMove), s.host = .provideOut none :: rest ∧ s.pace = .steps 0 ∧ busy s = true) :=
  ⟨⟨{ placed .idle .idle with host := [.fillIn [7, 8]] }, [], rfl, rfl, rfl, by decide⟩,
   ⟨{ decoding with host := [.fillIn [7, 8]] }, [], rfl, rfl, rfl⟩,
   ⟨{ placed .done .idle with host := [.copyOut], opos := 1, outMem := [(0, 5)] }, [], rfl, rfl, rfl, rfl, by decide⟩,
   ⟨{ placed .done .idle with host := [.copyOut], opos := 15, plat := { State.reset.plat with posw := some 4 } }, [],
      rfl, rfl, rfl, by decide⟩,
   ⟨{ decoding with host := [.copyOut] }, [], rfl, rfl, rfl⟩,
   ⟨{ placed .done .idle with host := [.provideOut (some 4)] }, [], rfl, rfl, rfl⟩,
   ⟨{ decoding with host := [.provideOut none] }, [], rfl, rfl, rfl⟩⟩

theorem witness_HostReadsOutput :
    (∃ (s : State) (rest : List HostMove), s.host = .readOut 0 :: rest ∧ s.pace = .steps 0 ∧ busy s = false ∧
      0 < s.opos) ∧
    (∃ (s : State) (rest : List HostMove), s.host = .readOut 1 :: rest ∧ s.pace = .steps 0 ∧ s.opos ≤ 1) ∧
    (∃ (s : State) (rest : List HostMove), s.host = .readOut 0 :: rest ∧ s.pace = .steps 0 ∧ busy s = true) :=
  ⟨⟨{ placed .done .idle with host := [.readOut 0], opos := 1 }, [], rfl, rfl, rfl, by decide⟩,
   ⟨{ placed .done .idle with host := [.readOut 1], opos := 1 }, [], rfl, rfl, by decide⟩,
   ⟨{ decoding with host := [.readOut 0] }, [], rfl, rfl, rfl⟩⟩

end Sys2Proof.Tests
end

section
/-! PROOF SUPPORT. A step in which the host makes an access: one equation for each access, and for each outcome of
those that can be refused (spec 10_state.md R40, 30_encoding.md R112, 70_reset_and_hazards.md R285, R290). -/

namespace Sys2Proof.Machine

variable {s : State} {rest : List HostMove}

/-- An access waiting is nothing the status shows. -/
@[simp] theorem busy_host (s : State) (host : List HostMove) : busy { s with host := host } = busy s := rfl

theorem readReg_eq (reg : Nat) (s : State) :
    readReg reg s =
      if reg = 1 then (phaseCode s.phase).toNat + 16 * (errCode s.err).toNat
      else if reg = 2 then s.sel.toNat else if reg = 3 then s.inLen else if reg = 4 then s.opos
      else if reg = 5 then s.sampled else 0 := by
  unfold readReg
  split
  case h_1 => exact statusByte_toNat s
  case h_6 h1 h2 h3 h4 h5 => rw [if_neg h1, if_neg h2, if_neg h3, if_neg h4, if_neg h5]
  all_goals rfl

/-- At a pace of no transition the engine does nothing after an access. -/
theorem paced_still (hp : s.pace = .steps 0) : paced s = .next s := paced_steps hp

/-! ### Accesses that always go through -/

theorem step_read {reg : Nat} (h : s.host = .read reg :: rest) :
    step s = paced (readHost reg { s with host := rest }) := by
  rw [step_eq, fetch, h]
  rfl

theorem step_readOut {a : Nat} (h : s.host = .readOut a :: rest) :
    step s = paced (readOut a { s with host := rest }) := by
  rw [step_eq, fetch, h]
  rfl

theorem step_hwReset (h : s.host = .hwReset :: rest) : step s = paced (hwReset { s with host := rest }) := by
  rw [step_eq, fetch, h]
  rfl

theorem step_setPace {p : Pace} (h : s.host = .setPace p :: rest) :
    step s = paced { s with host := rest, pace := p } := by
  rw [step_eq, fetch, h]
  rfl

theorem step_none (h : s.host = []) : step s = (engineTurn s).outcome := by
  rw [step_eq, fetch, h]

theorem step_wait (h : s.host = .wait :: rest) : step s = (waitTurn rest s).outcome := by
  rw [step_eq, fetch, h]

theorem step_writeCmd {v : Nat} (h : s.host = .write 0 v :: rest) :
    step s = (writeCmd v { s with host := rest }).outcome := by
  rw [step_eq, fetch, h]
  rfl

/-- `WAIT` is done where the command has ended (R112). -/
theorem waitTurn_ended (he : s.phase = .done ∨ s.phase = .error) :
    waitTurn rest s = .result (.next { s with host := rest, rdata := readReg 1 s }) := by
  rcases he with he | he <;> simp [waitTurn, doneFlag, errFlag, he]

/-- In `IDLE` it stays pending (log entry 19). -/
theorem waitTurn_idle (hp : s.phase = .idle) : waitTurn rest s = .result (.next s) := by
  simp [waitTurn, doneFlag, errFlag, engineTurn, busy, hp]

/-! ### Writes of a register other than `CMD` -/

theorem step_write {reg v : Nat} (h : s.host = .write reg v :: rest) (hr : reg ≠ 0) :
    step s = Result.andThen (writeReg reg v { s with host := rest }) paced := by
  obtain ⟨n, rfl⟩ := Nat.exists_eq_succ_of_ne_zero hr
  rw [step_eq, fetch, h]
  rfl

/-- A register other than `CMD` and `IN_LEN` ignores what is written to it (R40). -/
theorem step_write_readOnly {reg v : Nat} (h : s.host = .write reg v :: rest) (h0 : reg ≠ 0) (h3 : reg ≠ 3) :
    step s = paced { s with host := rest } := by
  have hw : writeReg reg v { s with host := rest } = .next { s with host := rest } := by
    unfold writeReg
    split
    · exact absurd rfl h3
    · rfl
  rw [step_write h h0, hw, andThen_next]

theorem step_writeInLen_busy {n : Nat} (h : s.host = .write 3 n :: rest) (hb : busy s = true) :
    step s = paced { s with host := rest } := by
  simp [step_write h, writeReg, writeInLen, hb]

theorem step_writeInLen {n : Nat} (h : s.host = .write 3 n :: rest) (hb : busy s = false)
    (hn : lengthFits s.plat n = true) : step s = paced { s with host := rest, inLen := n } := by
  simp [step_write h, writeReg, writeInLen, hb, hn]

theorem step_writeInLen_beyond {n : Nat} (h : s.host = .write 3 n :: rest) (hb : busy s = false)
    (hn : lengthFits s.plat n = false) : step s = .refused .lengthBeyondPosw := by
  simp [step_write h, writeReg, writeInLen, hb, hn]

/-! ### Accesses to the two spaces -/

theorem step_fillIn {bs : List Byte} (h : s.host = .fillIn bs :: rest) :
    step s = Result.andThen (fillIn bs { s with host := rest }) paced := by
  rw [step_eq, fetch, h]
  rfl

theorem step_fillIn_busy {bs : List Byte} (h : s.host = .fillIn bs :: rest) (hb : busy s = true) :
    step s = .refused .inChangedWhileBusy := by
  simp [step_fillIn h, fillIn, hb]

theorem step_fillIn_rest {bs : List Byte} (h : s.host = .fillIn bs :: rest) (hb : busy s = false) :
    step s = paced { s with host := rest, inMem := Memory.writeAll s.inMem 0 bs } := by
  simp [step_fillIn h, fillIn, hb]

theorem step_copyOut (h : s.host = .copyOut :: rest) :
    step s = Result.andThen (copyOut { s with host := rest }) paced := by
  rw [step_eq, fetch, h]
  rfl

theorem step_copyOut_busy (h : s.host = .copyOut :: rest) (hb : busy s = true) :
    step s = .refused .inChangedWhileBusy := by
  simp [step_copyOut h, copyOut, hb]

theorem step_copyOut_rest (h : s.host = .copyOut :: rest) (hb : busy s = false)
    (hn : lengthFits s.plat s.opos = true) :
    step s =
      paced { s with host := rest, inLen := s.opos, inMem := Memory.writeAll s.inMem 0 (outputBytes s) } := by
  simp [step_copyOut h, copyOut, writeInLen, outputBytes, hb, hn]

theorem step_copyOut_beyond (h : s.host = .copyOut :: rest) (hb : busy s = false)
    (hn : lengthFits s.plat s.opos = false) : step s = .refused .lengthBeyondPosw := by
  simp [step_copyOut h, copyOut, writeInLen, hb, hn]

theorem step_provideOut {size : Option Nat} (h : s.host = .provideOut size :: rest) :
    step s = Result.andThen (provideOut size { s with host := rest }) paced := by
  rw [step_eq, fetch, h]
  rfl

theorem step_provideOut_busy {size : Option Nat} (h : s.host = .provideOut size :: rest) (hb : busy s = true) :
    step s = .refused .outChangedWhileBusy := by
  simp [step_provideOut h, provideOut, hb]

theorem step_provideOut_rest {size : Option Nat} (h : s.host = .provideOut size :: rest) (hb : busy s = false) :
    step s = paced { s with host := rest, plat := { s.plat with outSize := size } } := by
  simp [step_provideOut h, provideOut, hb]

end Sys2Proof.Machine
end

section
/-! PROOF SUPPORT. The invariant through the accesses of the host: each one that is not refused leaves a state that
meets it. -/

namespace Sys2Proof.Machine

variable {s : State}

/-- What the host can change while the engine runs is outside the invariant, but for the form of `IN`. -/
theorem consistent_outside (h : Consistent s) {m : Memory} (hm : Memory.wf m = true) (plat : Platform)
    (host : List HostMove) (rdata : Nat) (pace : Pace) (free : Nat) :
    Consistent { s with
      inMem := m, plat := plat, host := host, rdata := rdata, pace := pace, free := free } := by
  obtain ⟨-, outWf, errPhase, placed, position, block, method, weight, totals, lengths⟩ := h
  exact ⟨hm, outWf, errPhase, placed, position, block, method, weight, totals, lengths⟩

theorem consistent_host (h : Consistent s) (host : List HostMove) : Consistent { s with host := host } :=
  consistent_outside h h.inWf _ _ _ _ _

/-- The rest phases have one stage only. -/
theorem stageFits_rest_iff (hb : busy s = false) : stageFits s = true ↔ s.stage = .idle := by
  rcases busy_eq_false.mp hb with hp | hp | hp <;> cases hs : s.stage <;> simp [stageFits, hp, hs]

/-- At rest the invariant speaks of the two memories, the error code and the stage only. -/
theorem consistent_rest_iff (hb : busy s = false) :
    Consistent s ↔
      Memory.wf s.inMem = true ∧ Memory.wf s.outMem = true ∧ (s.err ≠ .none ↔ s.phase = .error) ∧
        s.stage = .idle := by
  constructor
  · intro h
    exact ⟨h.inWf, h.outWf, h.errPhase, (stageFits_rest_iff hb).mp h.placed⟩
  · rintro ⟨hi, ho, he, hs⟩
    have hpos : busy s = true → s.ipos ≤ s.inLen := by simp [hb]
    refine ⟨hi, ho, he, (stageFits_rest_iff hb).mpr hs, hpos, ?_, ?_, ?_, ?_, ?_⟩ <;>
      rcases busy_eq_false.mp hb with hp | hp | hp <;>
      simp [blockFits, methodFits, weightFits, totalsFit, lengthsFit, hp, hs]

/-- At rest the host may also give `IN` another length. -/
theorem consistent_input (h : Consistent s) (hb : busy s = false) {m : Memory} (hm : Memory.wf m = true) (n : Nat) :
    Consistent { s with inLen := n, inMem := m } := by
  obtain ⟨-, ho, he, hs⟩ := (consistent_rest_iff hb).mp h
  exact (consistent_rest_iff (s := { s with inLen := n, inMem := m }) hb).mpr ⟨hm, ho, he, hs⟩

theorem launchEncode_consistent (h : Consistent s) : Consistent (launchEncode s) :=
  ⟨h.inWf, h.outWf, ⟨fun he => absurd rfl he, fun hp => nomatch hp⟩, rfl, fun _ => Nat.zero_le _, trivial, trivial,
    trivial, histTotal_zero, rfl⟩

theorem launchDecode_consistent (h : Consistent s) : Consistent (launchDecode s) :=
  ⟨h.inWf, h.outWf, ⟨fun he => absurd rfl he, fun hp => nomatch hp⟩, rfl, fun _ => Nat.zero_le _, trivial, trivial,
    trivial, trivial, rfl⟩

theorem launchUnknown_consistent (h : Consistent s) : Consistent (launchUnknown s) :=
  consistent_raise h.inWf h.outWf (fun he => nomatch he)

theorem hwReset_consistent (h : Consistent s) : Consistent (hwReset s) :=
  (consistent_rest_iff rfl).mpr ⟨h.inWf, h.outWf, ⟨fun he => absurd rfl he, fun hp => nomatch hp⟩, rfl⟩

theorem readHost_consistent (reg : Nat) (h : Consistent s) : Consistent (readHost reg s) := by
  obtain ⟨v, f, hr⟩ := readHost_cases reg s
  rw [hr]
  exact consistent_outside h h.inWf _ _ _ _ _

theorem readOut_consistent (a : Nat) (h : Consistent s) : Consistent (readOut a s) := by
  unfold readOut
  split <;> exact consistent_outside h h.inWf _ _ _ _ _

end Sys2Proof.Machine
end

section
/-! PROOFS. Safety: from a state that meets the invariant a step has a next state that meets it, or it is refused for a
reason that lies with the host (spec 00_scope.md R7, 70_reset_and_hazards.md R285, R290). -/

namespace Sys2Proof.Machine

variable {s : State} {rest : List HostMove}

/-- The result is a next state that meets the invariant. -/
def Goes (r : Result) : Prop := ∃ t, r = .next t ∧ Consistent t

/-- The step is refused, and the pending access says why: `IN` changed or `OUT` replaced while busy, or a length beyond
`POSW`. -/
def HostStops (s : State) : Prop :=
  (busy s = true ∧ step s = .refused .inChangedWhileBusy ∧
    ((∃ bs rest, s.host = .fillIn bs :: rest) ∨ ∃ rest, s.host = .copyOut :: rest)) ∨
  (busy s = true ∧ step s = .refused .outChangedWhileBusy ∧ ∃ size rest, s.host = .provideOut size :: rest) ∨
  (busy s = false ∧ step s = .refused .lengthBeyondPosw ∧
    ((∃ n rest, s.host = .write 3 n :: rest ∧ lengthFits s.plat n = false) ∨
      ∃ rest, s.host = .copyOut :: rest ∧ lengthFits s.plat s.opos = false))

theorem paced_goes (h : Consistent s) : Goes (paced s) := paced_progress h

/-- A command goes, accepted or ignored, if its launch keeps the invariant. -/
theorem command_goes {launch : State → State} (h : Consistent s) (hl : Consistent (launch s)) :
    Goes (command launch s) := by
  unfold command
  split
  · exact paced_goes h
  · exact paced_goes hl

theorem writeCmd_goes (v : Nat) (h : Consistent s) : Goes (writeCmd v s).outcome := by
  unfold writeCmd
  split
  next i hd =>
    have hf := decode_format hd
    cases i with
    | encode => exact command_goes h (launchEncode_consistent h)
    | decode => exact command_goes h (launchDecode_consistent h)
    | _ => cases hf
  next =>
    refine paced_goes ?_
    unfold writeUnknown
    split
    · exact h
    · exact launchUnknown_consistent h

theorem engineTurn_goes (h : Consistent s) : Goes (engineTurn s).outcome := by
  cases hb : busy s with
  | true =>
    obtain ⟨u, hu⟩ := engine_progress h hb
    rw [engineTurn_outcome hb, hu, andThen_next]
    exact paced_goes (engineMove_consistent h (engineMove_of_step hb hu))
  | false =>
    rw [engineTurn, hb]
    exact ⟨s, rfl, h⟩

theorem waitTurn_goes (rest : List HostMove) (h : Consistent s) : Goes (waitTurn rest s).outcome := by
  unfold waitTurn
  split
  · exact ⟨_, rfl, consistent_outside h h.inWf _ _ _ _ _⟩
  · exact engineTurn_goes h

/-! ### The accesses that can be refused -/

theorem writeInLen_goes_or_stops {n : Nat} (h : Consistent s) (hh : s.host = .write 3 n :: rest) :
    Goes (step s) ∨ HostStops s := by
  cases hb : busy s with
  | true =>
    left
    rw [step_writeInLen_busy hh hb]
    exact paced_goes (consistent_host h rest)
  | false =>
    cases hn : lengthFits s.plat n with
    | true =>
      left
      rw [step_writeInLen hh hb hn]
      exact paced_goes (consistent_input (consistent_host h rest) hb h.inWf n)
    | false => exact .inr (.inr (.inr ⟨hb, step_writeInLen_beyond hh hb hn, .inl ⟨n, rest, hh, hn⟩⟩))

theorem fillIn_goes_or_stops {bs : List Byte} (h : Consistent s) (hh : s.host = .fillIn bs :: rest) :
    Goes (step s) ∨ HostStops s := by
  cases hb : busy s with
  | true => exact .inr (.inl ⟨hb, step_fillIn_busy hh hb, .inl ⟨bs, rest, hh⟩⟩)
  | false =>
    left
    rw [step_fillIn_rest hh hb]
    exact paced_goes (consistent_outside h (Memory.writeAll_wf _ _ h.inWf) _ _ _ _ _)

theorem copyOut_goes_or_stops (h : Consistent s) (hh : s.host = .copyOut :: rest) :
    Goes (step s) ∨ HostStops s := by
  cases hb : busy s with
  | true => exact .inr (.inl ⟨hb, step_copyOut_busy hh hb, .inr ⟨rest, hh⟩⟩)
  | false =>
    cases hn : lengthFits s.plat s.opos with
    | true =>
      left
      rw [step_copyOut_rest hh hb hn]
      exact paced_goes (consistent_input (consistent_host h rest) hb (Memory.writeAll_wf _ _ h.inWf) _)
    | false => exact .inr (.inr (.inr ⟨hb, step_copyOut_beyond hh hb hn, .inr ⟨rest, hh, hn⟩⟩))

theorem provideOut_goes_or_stops {size : Option Nat} (h : Consistent s) (hh : s.host = .provideOut size :: rest) :
    Goes (step s) ∨ HostStops s := by
  cases hb : busy s with
  | true => exact .inr (.inr (.inl ⟨hb, step_provideOut_busy hh hb, size, rest, hh⟩))
  | false =>
    left
    rw [step_provideOut_rest hh hb]
    exact paced_goes (consistent_outside h h.inWf _ _ _ _ _)

theorem write_goes_or_stops {reg v : Nat} (h : Consistent s) (hh : s.host = .write reg v :: rest) :
    Goes (step s) ∨ HostStops s := by
  by_cases h0 : reg = 0
  · subst h0
    left
    rw [step_writeCmd hh]
    exact writeCmd_goes v (consistent_host h rest)
  · by_cases h3 : reg = 3
    · subst h3
      exact writeInLen_goes_or_stops h hh
    · left
      rw [step_write_readOnly hh h0 h3]
      exact paced_goes (consistent_host h rest)

/-- Every step from a state that meets the invariant goes to one that meets it, or the host has stopped it. -/
theorem step_goes_or_stops (h : Consistent s) : Goes (step s) ∨ HostStops s := by
  cases hh : s.host with
  | nil =>
    left
    rw [step_none hh]
    exact engineTurn_goes h
  | cons move rest =>
    have h' := consistent_host h rest
    cases move with
    | write reg v => exact write_goes_or_stops h hh
    | read reg =>
      left
      rw [step_read hh]
      exact paced_goes (readHost_consistent reg h')
    | wait =>
      left
      rw [step_wait hh]
      exact waitTurn_goes rest h
    | fillIn bs => exact fillIn_goes_or_stops h hh
    | copyOut => exact copyOut_goes_or_stops h hh
    | readOut a =>
      left
      rw [step_readOut hh]
      exact paced_goes (readOut_consistent a h')
    | provideOut size => exact provideOut_goes_or_stops h hh
    | hwReset =>
      left
      rw [step_hwReset hh]
      exact paced_goes (hwReset_consistent h')
    | setPace p =>
      left
      rw [step_setPace hh]
      exact paced_goes (consistent_outside h h.inWf _ _ _ _ _)

/-- Settles O52: a step goes, or the pending access is one the host may not make. -/
theorem stepStopsOnlyOnHostDuty : Obligations.StepStopsOnlyOnHostDuty := by
  unfold Obligations.StepStopsOnlyOnHostDuty
  intro s h
  refine (step_goes_or_stops h).imp_left ?_
  rintro ⟨t, ht, -⟩
  exact ⟨t, ht⟩

end Sys2Proof.Machine
end

section
/-! PROOFS. What the host reads and writes at a pace of no transition, where the equations of an access are the whole
step. -/

namespace Sys2Proof.Machine

variable {s : State} {rest : List HostMove}

/-- Bytes placed at `IN[0..]` are there, in canonical form, and nothing above them has changed (R112). -/
theorem Memory.writeAll_zero {m : Memory} (bs : List Byte) (h : Memory.wf m = true) :
    Memory.wf (Memory.writeAll m 0 bs) = true ∧ Memory.slice (Memory.writeAll m 0 bs) 0 bs.length = bs ∧
      ∀ a, bs.length ≤ a → Memory.read (Memory.writeAll m 0 bs) a = Memory.read m a := by
  refine ⟨Memory.writeAll_wf 0 bs h, Memory.slice_writeAll 0 bs h, fun a ha => ?_⟩
  rw [Memory.read_writeAll 0 a bs h, dif_neg (by omega)]

/-- Settles O58: by the equation of a read, with the registers' values written out, and the cases of `WAIT`. -/
theorem hostReads : Obligations.HostReads := by
  unfold Obligations.HostReads
  refine fun s rest hp => ⟨fun reg hh => ⟨fun ho => ?_, ?_⟩, fun hh => ⟨fun he => ?_, fun hi => ?_⟩⟩
  · rw [step_read hh, readHost_open (s := { s with host := rest }) ho, readReg_eq]
    exact paced_still hp
  · rintro rfl hb
    rw [step_read hh, readHost_sel (s := { s with host := rest }) hb]
    exact ⟨_, paced_still hp⟩
  · rw [step_wait hh, waitTurn_ended he, readReg_eq]
    rfl
  · rw [step_wait hh, waitTurn_idle hi]
    rfl

/-- Settles O59: by the equations of the accesses, with what a stretch of writes leaves of `IN`. -/
theorem hostWrites : Obligations.HostWrites := by
  unfold Obligations.HostWrites
  refine fun s rest hp => ⟨fun reg v hh => ⟨?_, ?_, ?_, fun h0 h3 => ?_⟩,
    fun bs hh => ⟨fun hb => ?_, step_fillIn_busy hh⟩,
    fun hh => ⟨fun hb hn => ?_, step_copyOut_beyond hh, step_copyOut_busy hh⟩,
    fun size hh => ⟨fun hb => ?_, step_provideOut_busy hh⟩⟩
  · rintro rfl hb hn
    exact (step_writeInLen hh hb hn).trans (paced_still hp)
  · rintro rfl hb hn
    exact step_writeInLen_beyond hh hb hn
  · rintro rfl hb
    exact (step_writeInLen_busy hh hb).trans (paced_still hp)
  · exact (step_write_readOnly hh h0 h3).trans (paced_still hp)
  · exact ⟨_, (step_fillIn_rest hh hb).trans (paced_still hp), Memory.writeAll_zero bs⟩
  · refine ⟨_, (step_copyOut_rest hh hb hn).trans (paced_still hp), ?_⟩
    have hlen : (outputBytes s).length = s.opos := Memory.slice_length _ _ _
    simpa only [hlen] using Memory.writeAll_zero (m := s.inMem) (outputBytes s)
  · exact (step_provideOut_rest hh hb).trans (paced_still hp)

end Sys2Proof.Machine
end

section
/-! PROOFS. The state: the invariant at reset and over every step, what the host sees after reset and in `STATUS` (spec
10_state.md R42, R48), and what an instruction leaves unchanged (R28, R29, R61, R62). -/

namespace Sys2Proof.Machine

variable {s t : State}

/-! ### The invariant -/

/-- Settles O51: the step goes to a state that meets the invariant, or the host has stopped it and there is no next
state. -/
theorem stepKeepsConsistent : Obligations.StepKeepsConsistent := by
  unfold Obligations.StepKeepsConsistent
  intro s t h hn
  rcases step_goes_or_stops h with ⟨u, hu, hc⟩ | ⟨-, hr, -⟩ | ⟨-, hr, -⟩ | ⟨-, hr, -⟩
  · cases hu.symm.trans hn
    exact hc
  all_goals cases hr.symm.trans hn

/-- Settles O50: a rest state, with nothing listed in the memories and no error. -/
theorem resetConsistent : Obligations.ResetConsistent :=
  (consistent_rest_iff rfl).mpr ⟨rfl, rfl, by decide, rfl⟩

/-! ### Reset, the command byte and `STATUS` -/

/-- With no access pending, a machine at rest stays as it is (R207). -/
theorem step_idle (hh : s.host = []) (hb : busy s = false) : step s = .next s := by
  rw [step_none hh, engineTurn, hb]
  rfl

/-- Settles O49: the register values by evaluation, the step by the rule for a machine at rest. -/
theorem resetState : Obligations.ResetState := by
  refine ⟨rfl, rfl, rfl, fun reg => ?_, step_idle rfl rfl⟩
  unfold readReg
  split <;> rfl

/-- Settles O5: by the equation of a `CMD` write, where the byte decodes. -/
theorem stepRunsCommandByte : Obligations.StepRunsCommandByte := by
  unfold Obligations.StepRunsCommandByte
  intro s v rest i hh hd
  rw [step_writeCmd hh, writeCmd, hd]
  rfl

theorem errCode_eq_zero_iff {e : ErrCode} : errCode e = 0 ↔ e = .none := by
  cases e <;> decide

theorem phaseCode_eq_seven_iff {p : Phase} : phaseCode p = 7 ↔ p = .error := by
  cases p <;> decide

/-- The fields of a byte packed as `STATUS` is (R42). -/
theorem status_fields (e : BitVec 4) (p : BitVec 3) :
    (e ++ (0#1 ++ p)).extractLsb 2 0 = p ∧ (e ++ (0#1 ++ p)).getLsbD 3 = false ∧
      (e ++ (0#1 ++ p)).extractLsb 7 4 = e := by
  revert e p
  decide

/-- Settles O57: the layout is that of any error and phase code; the codes tell the error and the phase, which the
invariant ties together. -/
theorem statusLayout : Obligations.StatusLayout := by
  unfold Obligations.StatusLayout
  intro s
  obtain ⟨hphase, hzero, hecode⟩ := status_fields (errCode s.err) (phaseCode s.phase)
  refine ⟨hphase, hzero, hecode, fun h => ?_⟩
  rw [Ne, errCode_eq_zero_iff, phaseCode_eq_seven_iff]
  exact h.errPhase

/-! ### Frames of the instructions -/

/-- What a run of the engine under its pace leaves alone: the outside, and `OUT` before the `opos` it begins at. -/
theorem paced_frame (hwf : Memory.wf s.outMem = true) (h : paced s = .next t) :
    SameOutside s t ∧ WritesFrom s.opos s.outMem t :=
  ⟨paced_induction (P := SameOutside s) (fun _ _ hu hm => hu.trans (engineMove_outside hm)) (.refl s) h,
    paced_induction (P := WritesFrom s.opos s.outMem) (fun _ _ hu hm => hu.move hm) (.refl hwf (Nat.le_refl _)) h⟩

/-- A command launched from rest writes from position 0 on; one ignored leaves the engine to go on at `opos`. -/
theorem command_frame {launch : State → State} (hl : SameOutside s (launch s)) (ho : (launch s).outMem = s.outMem)
    (hp : (launch s).opos = 0) (hwf : Memory.wf s.outMem = true) (h : command launch s = .next t) :
    SameOutside s t ∧ WritesFrom (if busy s = false then 0 else s.opos) s.outMem t := by
  rcases command_next h with ⟨hb, h⟩ | ⟨hb, h⟩
  · simpa [hb] using paced_frame hwf h
  · obtain ⟨hout, hw⟩ := paced_frame (ho ▸ hwf) h
    rw [ho, hp] at hw
    rw [if_pos hb]
    exact ⟨hl.trans hout, hw⟩

theorem method_frame {i : Instr} (hf : i.format = .hdr) (hwf : Memory.wf s.outMem = true) (h : exec i s = .next t) :
    SameOutside s t ∧ WritesFrom s.opos s.outMem t := by
  rw [exec_method hf] at h
  obtain ⟨u, hu, h⟩ := andThen_eq_next h
  obtain ⟨hsu, ho, hp⟩ := use_frame hu
  obtain ⟨hut, hw⟩ := paced_frame (ho ▸ hwf) h
  rw [ho, hp] at hw
  exact ⟨hsu.trans hut, hw⟩

/-- The first position of `OUT` that an instruction can write: 0 for an accepted command, `opos` otherwise. -/
def firstWritten (i : Instr) (s : State) : Nat := if i.format = .cmd ∧ busy s = false then 0 else s.opos

theorem exec_frame {i : Instr} (hwf : Memory.wf s.outMem = true) (h : exec i s = .next t) :
    SameOutside s t ∧ WritesFrom (firstWritten i s) s.outMem t := by
  unfold firstWritten
  cases hf : i.format with
  | hdr => simpa using method_frame hf hwf h
  | cmd =>
    simp only [true_and]
    cases i with
    | encode => exact command_frame (launch := launchEncode) ⟨rfl, rfl, rfl, rfl, rfl, rfl, rfl⟩ rfl rfl hwf h
    | decode => exact command_frame (launch := launchDecode) ⟨rfl, rfl, rfl, rfl, rfl, rfl, rfl⟩ rfl rfl hwf h
    | _ => cases hf

/-- Settles O46: by the frame of an instruction, written out. -/
theorem instructionFrame : Obligations.InstructionFrame := by
  unfold Obligations.InstructionFrame
  intro i s t h hwf
  obtain ⟨⟨inMem, inLen, plat, host, rdata, pace, free⟩, hw⟩ := exec_frame hwf h
  exact ⟨inMem, inLen, plat, host, rdata, pace, free, hw.same⟩

/-- Outside the scan: the registers that the scan alone writes are those of `s` (R28, R29, R34). -/
structure ScanStands (s t : State) : Prop where
  phase : t.phase ≠ .scan
  hist : t.hist = s.hist
  sampled : t.sampled = s.sampled
  cand : t.cand = s.cand

/-- No transition of the engine enters the scan (R207), and outside it none counts, samples or moves through the
candidates. -/
theorem ScanStands.move {u : State} (h : ScanStands s t) (hm : EngineMove t u) : ScanStands s u := by
  obtain ⟨hp, hist, sampled, cand⟩ := h
  cases hm with
  | scanEntry h' | scanEnd h' | unitsBegin _ _ _ h' | unitByte _ _ _ _ _ h' | unitEnd _ h' => exact absurd h' hp
  | select | passEnd | readFault | headerFault | writeFault | headerMissing | headerReadFault | badHeader | bodyBegin =>
    exact ⟨nofun, hist, sampled, cand⟩
  | _ => exact ⟨hp, hist, sampled, cand⟩

/-- Settles O47: an accepted `DECODE` starts in `DEC_HDR`, and outside the scan no transition touches the three. -/
theorem decodeLeavesHistograms : Obligations.DecodeLeavesHistograms := by
  unfold Obligations.DecodeLeavesHistograms
  intro s t hb h
  rcases command_next (launch := launchDecode) h with ⟨hb', -⟩ | ⟨-, h⟩
  · cases hb.symm.trans hb'
  · have hlaunch : ScanStands s (launchDecode s) := ⟨nofun, rfl, rfl, rfl⟩
    obtain ⟨-, hist, sampled, cand⟩ :=
      paced_induction (P := ScanStands s) (fun _ _ hu hm => hu.move hm) hlaunch h
    exact ⟨hist, sampled, cand⟩

end Sys2Proof.Machine
end

section
/-! PROOFS. The registers a full pass can touch (spec 10_state.md R24, 92_eei_decisions.md D36). -/

namespace Sys2Proof.Machine

/-! ### What a pass keeps -/

/-- What every byte step keeps, a byte sequence keeps. -/
theorem runBytes_induction {P : Datapath → Prop} {f : ByteStep}
    (hf : ∀ b r p p', P p → f b p = some (r, p') → P p') {bs rs : List Byte} {p q : Datapath} (hp : P p)
    (h : runBytes f bs p = some (rs, q)) : P q := by
  induction bs generalizing p rs with
  | nil =>
    cases h
    exact hp
  | cons b rest ih =>
    simp only [runBytes] at h
    split at h
    next => cases h
    next hb =>
      split at h
      next => cases h
      next hrest =>
        cases h
        exact ih (hf _ _ _ _ hp hb) hrest

/-- A routed byte goes through the filter on a lane below the channel count. -/
theorem routed_some {n : Nat} {f : Fin 8 → Byte → Datapath → Byte × Datapath} {b r : Byte} {p p' : Datapath}
    (h : routed n f b p = some (r, p')) : ∃ l : Fin 8, l.val < n ∧ p' = (f l b { p with d := l }).2 := by
  unfold routed at h
  split at h
  next l hl =>
    refine ⟨l, (route_lt hl).1, ?_⟩
    rw [Option.some.inj h]
  next => cases h

/-- What the filter keeps on every lane below `n`, a routed byte sequence of `n` channels keeps. -/
theorem routedPass_induction {P : Datapath → Prop} {n : Nat} {f : Fin 8 → Byte → Datapath → Byte × Datapath}
    (hf : ∀ l b p, l.val < n → P p → P (f l b { p with d := l }).2) {bs rs : List Byte} {p q : Datapath}
    (hp : P p) (h : runBytes (routed n f) bs p = some (rs, q)) : P q := by
  refine runBytes_induction (fun b r p p' hp hb => ?_) hp h
  obtain ⟨l, hl, rfl⟩ := routed_some hb
  exact hf l b p hl hp

/-- The identity passes every byte on (R130). -/
theorem runBytes_plain (bs : List Byte) (p : Datapath) : runBytes plainStep bs p = some (bs, p) := by
  induction bs with
  | nil => rfl
  | cons b rest ih => exact runBytes_cons rfl ih

/-! ### The registers of a family and of a lane -/

/-- Lanes `n` to 7 of the three files are 0. -/
def LanesClear (n : Nat) (p : Datapath) : Prop :=
  ∀ l : Fin 8, n ≤ l.val → p.previous[l] = 0 ∧ p.sample1[l] = 0 ∧ p.sample2[l] = 0

/-- The registers of the adaptive family are 0. -/
def AdaptiveClear (p : Datapath) : Prop :=
  p.sample1 = Vector.replicate 8 0 ∧ p.sample2 = Vector.replicate 8 0 ∧ p.weight = 0

/-- The register file of the delta family is 0. -/
def DeltaClear (p : Datapath) : Prop := p.previous = Vector.replicate 8 0

theorem zero_lanesClear (n : Nat) : LanesClear n Datapath.zero := by
  intro l _
  simp [Datapath.zero]

theorem set_lane_ne {l l' : Fin 8} (h : l.val < l'.val) (v : Vector Byte 8) (b : Byte) : (v.set l b)[l'] = v[l'] :=
  Vector.getElem_set_ne _ _ (by omega)

/-- A filter of the delta family writes `previous` on its lane, and nothing else. -/
def IsDelta (f : Fin 8 → Byte → Datapath → Byte × Datapath) : Prop :=
  ∀ l b p, ∃ x, (f l b p).2 = { p with previous := p.previous.set l x }

/-- A filter of the adaptive family writes the weight and the two samples on its lane, and nothing else. -/
def IsAdaptive (f : Fin 8 → Byte → Datapath → Byte × Datapath) : Prop :=
  ∀ l b p, ∃ w x y, (f l b p).2 = { p with
    weight := w, sample1 := p.sample1.set l x, sample2 := p.sample2.set l y }

theorem deltaFwd_isDelta : IsDelta deltaFwd := fun _ _ _ => ⟨_, rfl⟩
theorem deltaInv_isDelta : IsDelta deltaInv := fun _ _ _ => ⟨_, rfl⟩
theorem adaptFwd_isAdaptive : IsAdaptive adaptFwd := fun _ _ _ => ⟨_, _, _, rfl⟩
theorem adaptInv_isAdaptive : IsAdaptive adaptInv := fun _ _ _ => ⟨_, _, _, rfl⟩

/-- A full pass, forward or inverse, is a pass of bytes through its family's filter (R199, R200). -/
theorem fullPass_cases {k : Fin 15} {data out : List Byte} {q : Datapath}
    (h : xformFwd k data = some (out, q) ∨ xformInv k data = some (out, q)) :
    ((candAt k).fam = .identity ∧ q = Datapath.zero ∧ out = data) ∨
    ((candAt k).fam = .delta ∧ ∃ f, IsDelta f ∧
      runBytes (routed (candAt k).n f) data Datapath.zero = some (out, q)) ∨
    ((candAt k).fam = .adaptive ∧ ∃ f, IsAdaptive f ∧
      runBytes (routed (candAt k).n f) data Datapath.zero = some (out, q)) := by
  simp only [xformFwd, xformInv, xbyteFwd, xbyteInv] at h
  cases hk : (candAt k).fam with
  | identity =>
    simp only [hk, runBytes_plain, or_self, Option.some.injEq, Prod.mk.injEq] at h
    exact .inl ⟨rfl, h.2.symm, h.1.symm⟩
  | delta =>
    rw [hk] at h
    rcases h with h | h
    · exact .inr (.inl ⟨rfl, _, deltaFwd_isDelta, h⟩)
    · exact .inr (.inl ⟨rfl, _, deltaInv_isDelta, h⟩)
  | adaptive =>
    rw [hk] at h
    rcases h with h | h
    · exact .inr (.inr ⟨rfl, _, adaptFwd_isAdaptive, h⟩)
    · exact .inr (.inr ⟨rfl, _, adaptInv_isAdaptive, h⟩)

theorem deltaPass_clear {n : Nat} {f : Fin 8 → Byte → Datapath → Byte × Datapath} (hf : IsDelta f)
    {bs rs : List Byte} {q : Datapath} (h : runBytes (routed n f) bs Datapath.zero = some (rs, q)) :
    LanesClear n q ∧ AdaptiveClear q := by
  refine routedPass_induction (P := fun p => LanesClear n p ∧ AdaptiveClear p) (fun l b p hl hp => ?_)
    ⟨zero_lanesClear n, rfl, rfl, rfl⟩ h
  obtain ⟨x, hx⟩ := hf l b { p with d := l }
  rw [hx]
  refine ⟨fun l' hl' => ?_, hp.2⟩
  obtain ⟨hprev, hs1, hs2⟩ := hp.1 l' hl'
  exact ⟨(set_lane_ne (by omega) _ _).trans hprev, hs1, hs2⟩

theorem adaptivePass_clear {n : Nat} {f : Fin 8 → Byte → Datapath → Byte × Datapath} (hf : IsAdaptive f)
    {bs rs : List Byte} {q : Datapath} (h : runBytes (routed n f) bs Datapath.zero = some (rs, q)) :
    LanesClear n q ∧ DeltaClear q := by
  refine routedPass_induction (P := fun p => LanesClear n p ∧ DeltaClear p) (fun l b p hl hp => ?_)
    ⟨zero_lanesClear n, rfl⟩ h
  obtain ⟨w, x, y, hx⟩ := hf l b { p with d := l }
  rw [hx]
  refine ⟨fun l' hl' => ?_, hp.2⟩
  obtain ⟨hprev, hs1, hs2⟩ := hp.1 l' hl'
  exact ⟨hprev, (set_lane_ne (by omega) _ _).trans hs1, (set_lane_ne (by omega) _ _).trans hs2⟩

/-- Settles O22: by the family of the method, with what a pass through a filter of that family leaves clear. -/
theorem fullPassTouchesOwnLanes : Obligations.FullPassTouchesOwnLanes := by
  unfold Obligations.FullPassTouchesOwnLanes
  intro k data out q h
  rcases fullPass_cases h with ⟨hk, rfl, rfl⟩ | ⟨hk, f, hf, h⟩ | ⟨hk, f, hf, h⟩
  · rw [hk]
    exact ⟨zero_lanesClear _, nofun, nofun, fun _ => ⟨rfl, rfl⟩⟩
  · obtain ⟨hl, ha⟩ := deltaPass_clear hf h
    rw [hk]
    exact ⟨hl, fun _ => ha, nofun, nofun⟩
  · obtain ⟨hl, hd⟩ := adaptivePass_clear hf h
    rw [hk]
    exact ⟨hl, nofun, fun _ => hd, nofun⟩

end Sys2Proof.Machine
end

section
/-! PROOF SUPPORT. One access to the two spaces, read from the front: what a read of a block, a write of the engine and
a host read of `OUT` come to, with a fault and without (spec 20_memory.md R62, R64, R65, R208). -/

namespace Sys2Proof.Machine

variable {s : State} {w : List Byte → State → Result}

/-! ### The engine's read of a block -/

theorem readOne_fault {j : Nat} (m : Nat) (rbuf : List Byte) (ha : s.ipos + j < s.inLen)
    (hf : rdFault s.plat s.rdCount (s.ipos + j) = true) :
    readOne j m rbuf s w = .next (raise .readError (afterRead s)) := by
  rw [readOne, memRead, if_neg (Nat.not_le.mpr ha), if_pos hf]

/-- A read that does not fail goes on with the next byte, or hands the whole block on. -/
theorem readOne_noFault {j : Nat} (m : Nat) (rbuf : List Byte) (ha : s.ipos + j < s.inLen)
    (hf : rdFault s.plat s.rdCount (s.ipos + j) = false) :
    readOne j m rbuf s w =
      if j + 1 < m then
        .next { afterRead s with stage := .read (j + 1) m (Memory.read s.inMem (s.ipos + j) :: rbuf) }
      else w (Memory.read s.inMem (s.ipos + j) :: rbuf).reverse { afterRead s with ipos := s.ipos + m } := by
  rw [readOne, memRead, if_neg (Nat.not_le.mpr ha), hf]
  rfl

/-- In every pass a transition inside the reads of a block is one read of it. -/
theorem engineStep_read {j m : Nat} {rbuf : List Byte} (hp : inLoop s) (hs : s.stage = .read j m rbuf) :
    ∃ w, engineStep s = readOne j m rbuf s w := by
  rcases hp with hp | hp
  · exact ⟨_, engineStep_scan_read hp hs⟩
  · exact ⟨_, engineStep_xfer_read hp hs⟩

/-! ### The engine's write -/

theorem memWrite_fault {v : Byte} {k : State → Result} (hf : wrFault s.plat s.wrCount s.opos = true) :
    memWrite v s k = .next (afterWriteFault s) := if_pos hf

theorem memWrite_ok {v : Byte} {k : State → Result} (hf : wrFault s.plat s.wrCount s.opos = false) :
    memWrite v s k = k (afterWrite v s) := by
  rw [memWrite, hf]
  rfl

/-- The engine is about to write `v` to `OUT` and to go on at `next`: the header of `COMMIT`, or a byte of a block
(R202, R208). -/
def WritesNext (s : State) (v : Byte) (next : Stage) : Prop :=
  (s.phase = .commit ∧ s.stage = .header ∧ v = s.sel ∧ next = .loop) ∨
    (inTransfer s ∧ ∃ todo, s.stage = .write (v :: todo) ∧ next = .write todo)

theorem WritesNext.inTransfer {v : Byte} {next : Stage} (h : WritesNext s v next) : inTransfer s := by
  rcases h with ⟨hp, -⟩ | ⟨hp, -⟩
  · exact .inl hp
  · exact hp

theorem WritesNext.engineStep_eq {v : Byte} {next : Stage} (h : WritesNext s v next) :
    engineStep s = memWrite v s fun s' => .next { s' with stage := next } := by
  rcases h with ⟨hp, hs, rfl, rfl⟩ | ⟨hp, todo, hs, rfl⟩
  · exact engineStep_commit_header hp hs
  · exact engineStep_xfer_write hp hs

/-! ### The host's read of `OUT` -/

theorem readOut_result {a : Nat} (hb : busy s = false) (ha : a < s.opos) :
    readOut a s = { s with rdata := (Memory.read s.outMem a).toNat } := if_pos ⟨hb, ha⟩

theorem readOut_anyValue {a : Nat} (h : busy s = true ∨ s.opos ≤ a) :
    readOut a s = { s with rdata := (Config.freeOut s.free).toNat, free := s.free + 1 } := by
  refine if_neg ?_
  rintro ⟨hb, ha⟩
  rcases h with h | h
  · cases hb.symm.trans h
  · omega

/-! ### A machine at rest -/

/-- With no access pending but a poll of `STATUS`, a step at rest changes the host's side alone (R112, R207). -/
theorem step_free_rest (h : EngineFree s) (hb : busy s = false) :
    ∃ host rdata, step s = .next { s with host := host, rdata := rdata } := by
  rcases h with hh | ⟨rest, hh⟩
  · exact ⟨_, _, step_idle hh hb⟩
  · rw [step_wait hh]
    rcases busy_eq_false.mp hb with hp | he
    · exact ⟨_, _, congrArg Fetched.outcome (waitTurn_idle hp)⟩
    · exact ⟨_, _, congrArg Fetched.outcome (waitTurn_ended he)⟩

end Sys2Proof.Machine
end

section
/-! PROOFS. The two spaces at a pace of one transition: a read of a block, a write to `OUT` in order, a host read of
`OUT` (spec 20_memory.md). -/

namespace Sys2Proof.Machine

/-- Settles O60: by the equation of the access, in the two cases of a read of `OUT`. -/
theorem hostReadsOutput : Obligations.HostReadsOutput := by
  unfold Obligations.HostReadsOutput
  intro s a rest hh hp
  refine ⟨fun hb ha => ?_, fun h => ⟨Config.freeOut s.free, ?_⟩⟩
  · rw [step_readOut hh, readOut_result (s := { s with host := rest }) hb ha]
    exact paced_still hp
  · rw [step_readOut hh, readOut_anyValue (s := { s with host := rest }) h]
    exact paced_still hp

/-- Settles O30: in every pass the transition is one read of the block, which faults, goes on or is the last one; the
last one hands the block to the pass. -/
theorem blockRead : Obligations.BlockRead := by
  unfold Obligations.BlockRead
  intro s j m rbuf hfree hp hs hl ha
  have hb := busy_of_inLoop hl
  obtain ⟨w, hw⟩ := engineStep_read hl hs
  refine ⟨fun hf => ?_, fun hf hj => ?_, fun hf hj hscan => ?_, fun hf hj hscan => ?_⟩
  · exact step_one hfree hb (hw.trans (readOne_fault m rbuf ha hf)) hp
  · refine step_one hfree hb ?_ hp
    rw [hw, readOne_noFault m rbuf ha hf, if_pos hj]
    rfl
  · refine step_one hfree hb ?_ hp
    rw [engineStep_scan_read hscan hs, readOne_noFault m rbuf ha hf, if_neg (Nat.not_lt.mpr hj)]
    rfl
  · refine step_one hfree hb ?_ hp
    rw [engineStep_xfer_read (hl.resolve_left hscan) hs, readOne_noFault m rbuf ha hf,
      if_neg (Nat.not_lt.mpr hj)]
    rfl

/-- Settles O33: in both places the transition is one write, which goes through or faults. -/
theorem outputWrite : Obligations.OutputWrite := by
  unfold Obligations.OutputWrite
  intro s v next hfree hp h
  have hw : WritesNext s v next := h
  have hb := busy_of_transfer hw.inTransfer
  exact ⟨fun hf => step_one hfree hb (hw.engineStep_eq.trans (memWrite_ok hf)) hp,
    fun hf => step_one hfree hb (hw.engineStep_eq.trans (memWrite_fault hf)) hp⟩

/-- Settles O55: while busy the step is one transition, which writes nothing or one byte at `opos`; at rest it changes
the host's side alone. -/
theorem outputInOrder : Obligations.OutputInOrder := by
  unfold Obligations.OutputInOrder
  intro s t hfree hp hn
  cases hb : busy s with
  | true => exact engineMove_output (step_one_next hfree hb hp hn)
  | false =>
    obtain ⟨host, rdata, hr⟩ := step_free_rest hfree hb
    cases hr.symm.trans hn
    exact .inl ⟨rfl, rfl⟩

end Sys2Proof.Machine
end

section
/-! PROOFS. The two commands without a fault, from a state that accepts them to `DONE`: the runs of the passes put
together (spec 45_transcoder.md R201 to R205). -/

namespace Sys2Proof.Machine

variable {s t : State}

/-- A forward pass has a result, of the length of its input (R209). -/
theorem xformFwd_ok (k : Fin 15) (bs : List Byte) :
    ∃ out q, xformFwd k bs = some (out, q) ∧ out.length = bs.length := by
  obtain ⟨out, q, hx, hlen, -⟩ := runBytes_ok (xbyteFwd_ok k) bs Datapath.zero (laneFits_zero k)
  exact ⟨out, q, hx, hlen⟩

/-- An inverse pass has a result, of the length of its input (R209). -/
theorem xformInv_ok (k : Fin 15) (bs : List Byte) :
    ∃ data q, xformInv k bs = some (data, q) ∧ data.length = bs.length := by
  obtain ⟨data, q, hx, hlen, -⟩ := runBytes_ok (xbyteInv_ok k) bs Datapath.zero (laneFits_zero k)
  exact ⟨data, q, hx, hlen⟩

/-- What has been written from position 0 on is read back at its length. -/
theorem Memory.slice_writeAll_zero {m : Memory} {bs : List Byte} {n : Nat} (hlen : bs.length = n)
    (h : Memory.wf m = true) : Memory.slice (Memory.writeAll m 0 bs) 0 n = bs := by
  subst hlen
  exact Memory.slice_writeAll 0 bs h

/-- An accepted command that runs to rest ends where the engine gets to from its launch. -/
theorem command_reaches {launch : State → State} (hb : busy s = false) (hp : (launch s).pace = .toRest)
    (h : Reaches (launch s) t) (ht : busy t = false) : command launch s = .next t := by
  rw [command, hb]
  exact h.paced ht hp

/-- A legal header selects its method, and the decode pass begins after it (R203). -/
theorem engineStep_legalHeader {k : Fin 15} (hp : s.phase = .decHdr) (hl : s.inLen ≠ 0)
    (hf : rdFault s.plat s.rdCount 0 = false) (hk : Memory.read s.inMem 0 = headerOf k) :
    engineStep s = .next { passReset { afterRead s with ipos := 1, sel := headerOf k } with
      phase := .decBody, stage := .loop } := by
  have hlt : (headerOf k).toNat < 15 := by
    rw [headerOf_toNat]
    exact k.isLt
  simp only [engineStep_decHdr hp, if_neg hl, hf, hk, if_pos hlt]
  rfl

/-- Settles O42: the header read, then the decode pass over the rest of the stream. -/
theorem decodeCompletes : Obligations.DecodeCompletes := by
  unfold Obligations.DecodeCompletes
  intro s k hp hb hr hw hl hk
  obtain ⟨data, q, hx, hlen⟩ := xformInv_ok k (Memory.slice s.inMem 1 (s.inLen - 1))
  rw [Memory.slice_length] at hlen
  refine ⟨data, q, hx, ?_, Memory.slice_writeAll_zero hlen⟩
  have hheader := engineStep_legalHeader (s := launchDecode s) rfl (Nat.ne_of_gt hl) (hr _ _) hk
  have hbody := decodePass_reach (s := { passReset { afterRead (launchDecode s) with ipos := 1, sel := headerOf k } with
    phase := .decBody, stage := .loop }) rfl rfl rfl rfl hl hr (by simpa using hw) hx
  refine command_reaches (launch := launchDecode) hb hp ?_ rfl
  simpa [Nat.add_sub_cancel' hl, headerOf] using (Reaches.step rfl hheader).trans hbody

/-- Settles O41: the scan, then `SELECT` and the commit pass on the histograms it leaves. -/
theorem encodeCompletes : Obligations.EncodeCompletes := by
  unfold Obligations.EncodeCompletes
  intro s hp hb hr hw
  obtain ⟨p, h, smp, hscan, -⟩ := scanFrom_ok (s.inLen + 1) s.inMem s.inLen 0 Datapath.zero Hist.zero 0
  obtain ⟨out, q, hx, hlen⟩ := xformFwd_ok (selectBest h) (inputBytes s)
  refine ⟨p, h, smp, out, q, hscan, hx, ?_, Memory.slice_writeAll_zero ?_⟩
  · have hselect := scanPass_reach (s := launchEncode s) rfl rfl rfl rfl hr hscan
    have hdone := hselect.trans (commitPass_reach rfl hr (by simpa using hw) hx)
    simp only [launchEncode_rdCount, launchEncode_wrCount, launchEncode_opos, Nat.zero_add] at hdone
    exact command_reaches (launch := launchEncode) hb hp hdone rfl
  · rw [List.length_cons, hlen, inputBytes, Memory.slice_length]

end Sys2Proof.Machine
end

section
/-! PROOFS. The encodings: the decoder and the encoder against each other, the legal and the reserved bytes, the words of
the spec's tables and the candidate table (spec 30_encoding.md R90 to R97). -/

namespace Sys2Proof.Machine

/-! ### The encoding of every instruction -/

/-- The encoding laws of the single instructions, as one law. -/
theorem encoding_law : ∀ i : Instr, Laws.Encoding.Statement i
  | .id => Laws.Encoding.id
  | .d1 => Laws.Encoding.d1
  | .d2 => Laws.Encoding.d2
  | .d3 => Laws.Encoding.d3
  | .d4 => Laws.Encoding.d4
  | .d5 => Laws.Encoding.d5
  | .d6 => Laws.Encoding.d6
  | .d7 => Laws.Encoding.d7
  | .d8 => Laws.Encoding.d8
  | .d1b => Laws.Encoding.d1b
  | .a2 => Laws.Encoding.a2
  | .a3 => Laws.Encoding.a3
  | .a4 => Laws.Encoding.a4
  | .a6 => Laws.Encoding.a6
  | .a8 => Laws.Encoding.a8
  | .encode => Laws.Encoding.encode
  | .decode => Laws.Encoding.decode

theorem decode_encode (i : Instr) : decode i.format (encode i) = .ok i := by
  obtain ⟨-, -, hdec, -⟩ := encoding_law i
  exact hdec

theorem eq_encode_of_decode {i : Instr} {b : Byte} (h : decode i.format b = .ok i) : b = encode i := by
  obtain ⟨-, -, -, huniq⟩ := encoding_law i
  exact huniq b h

/-- Settles O1: a byte that decodes fixes the format, and in its own format an instruction has one byte. -/
theorem decodeIffEncode : Obligations.DecodeIffEncode := by
  unfold Obligations.DecodeIffEncode
  intro f b i
  constructor
  · intro h
    obtain rfl := decode_format h
    exact ⟨rfl, eq_encode_of_decode h⟩
  · rintro ⟨rfl, rfl⟩
    exact decode_encode i

/-! ### Legal and reserved bytes -/

theorem decode_header_reserved {h : Byte} (hge : 15 ≤ h.toNat) : decode .hdr h = .error (.badHeader h) := by
  rcases decode_header h with ⟨k, rfl⟩ | ⟨-, he⟩
  · rw [headerOf_toNat] at hge
    exact absurd k.isLt (Nat.not_lt.mpr hge)
  · exact he

theorem decode_header_ok_iff (h : Byte) : (∃ i, decode .hdr h = .ok i) ↔ h.toNat < 15 := by
  constructor
  · rintro ⟨i, hi⟩
    by_contra hge
    rw [decode_header_reserved (Nat.not_lt.mp hge)] at hi
    cases hi
  · intro hlt
    rcases decode_header h with ⟨k, rfl⟩ | ⟨hge, -⟩
    · obtain ⟨i, hi, -⟩ := use_header k
      exact ⟨i, hi⟩
    · exact absurd hlt (Nat.not_lt.mpr hge)

/-- The two fields of a header as digits in base 16: the high one is 0 and the low one is not 15 below 15 only (R91). -/
theorem header_fields_iff (h : Byte) : h.extractLsb 7 4 = 0#4 ∧ h.extractLsb 3 0 ≠ 15#4 ↔ h.toNat < 15 := by
  have hlt : h.toNat < 256 := h.isLt
  have hhigh : (h.extractLsb 7 4).toNat = h.toNat / 16 % 16 := by
    simp [BitVec.extractLsb_toNat, Nat.shiftRight_eq_div_pow]
  have hlow : (h.extractLsb 3 0).toNat = h.toNat % 16 := by
    simp [BitVec.extractLsb_toNat]
  rw [ne_eq, BitVec.toNat_eq, BitVec.toNat_eq, hhigh, hlow, BitVec.toNat_ofNat, BitVec.toNat_ofNat]
  omega

theorem decode_command_reserved {op : Byte} (h1 : op ≠ 0x01#8) (h2 : op ≠ 0x02#8) :
    decode .cmd op = .error (.unknownMode op) := by
  show decodeCommand op = _
  unfold decodeCommand
  split
  case h_1 hop => exact absurd (BitVec.eq_of_toNat_eq hop) h1
  case h_2 hop => exact absurd (BitVec.eq_of_toNat_eq hop) h2
  case h_3 => rfl

/-- Settles O2: a header decodes below 15 only, which is what its two fields say; the reserved bytes are the rest. -/
theorem legalBytes : Obligations.LegalBytes := by
  unfold Obligations.LegalBytes
  exact ⟨fun h => (decode_header_ok_iff h).trans (header_fields_iff h).symm,
    fun _ => decode_header_reserved, fun _ => decode_command_reserved⟩

/-! ### The tables of the spec -/

/-- Settles O3: each word is the byte the encoder gives for its instruction. -/
theorem decodeReadsSpecWords : Obligations.DecodeReadsSpecWords :=
  ⟨decode_encode .id, decode_encode .d5, decode_encode .d1b, decode_encode .a6, decode_encode .encode,
    decode_encode .decode⟩

theorem encode_of_mem_methods : ∀ m ∈ methods, m.1.format = .hdr ∧ BitVec.ofNat 8 m.2.val = encode m.1 := by decide

/-- Settles O4: the channel counts and families by evaluating the table; the byte of an index is the encoding of its
method, which the decoder reads back. -/
theorem candidateTable : Obligations.CandidateTable := by
  unfold Obligations.CandidateTable
  refine ⟨by decide, fun m hm => ?_⟩
  obtain ⟨hformat, hbyte⟩ := encode_of_mem_methods m hm
  rw [hbyte, ← hformat, decode_encode]

end Sys2Proof.Machine
end

section
/-! PROOFS. The lane router: one call of it, and the closed form of the sequence of lanes (spec 40_lane_router.md R120 to
R123). -/

namespace Sys2Proof.Machine

/-! ### One call -/

/-- Outside its contract the router gives no lane (R123). -/
theorem route_outside_contract {n : Nat} {d : Fin 8} (h : ¬ (1 ≤ n ∧ n ≤ 8 ∧ d.val < n)) : route n d = none := by
  unfold route
  rw [dif_neg h]

/-- The increment modulo the channel count is the increment with its wrap (R120). -/
theorem succ_mod_eq_wrap {n d : Nat} (hd : d < n) : (d + 1) % n = if d + 1 = n then 0 else d + 1 := by
  split
  next hwrap => rw [hwrap, Nat.mod_self]
  next hstay => exact Nat.mod_eq_of_lt (by omega)

/-- Settles O8: the lane of `route_of_contract` with the wrap written out, which `routed` hands to the filter. -/
theorem routeReturnsNextLane : Obligations.RouteReturnsNextLane := by
  unfold Obligations.RouteReturnsNextLane
  refine ⟨fun n d h1 h8 hd => ?_, fun n d => route_outside_contract⟩
  obtain ⟨l, hroute, hl⟩ := route_of_contract h1 h8 hd
  refine ⟨l, hroute, hl.trans (succ_mod_eq_wrap hd), fun f b p hp => routed_eq f b ?_⟩
  rw [hp, hroute]

/-! ### The sequence of lanes -/

/-- Every call from `d = 0` stays inside the contract, and the `i + 1`-st returns lane `(i + 1) mod n` (R121). -/
theorem laneOf_eq_succ_mod {n : Nat} (h1 : 1 ≤ n) (h8 : n ≤ 8) (i : Nat) :
    ∃ l, laneOf n i = some l ∧ l.val = (i + 1) % n := by
  induction i with
  | zero => exact route_of_contract h1 h8 h1
  | succ i ih =>
    obtain ⟨d, hlane, hd⟩ := ih
    obtain ⟨l, hroute, hl⟩ := route_of_contract (d := d) h1 h8 (hd ▸ Nat.mod_lt _ h1)
    refine ⟨l, ?_, ?_⟩
    · rw [laneOf, hlane, Option.bind_some, hroute]
    · rw [hl, hd, Nat.mod_add_mod]

/-- Lane `j` receives the bytes whose number is `j - 1` modulo the channel count: add 1 to both sides. -/
theorem succ_mod_eq_lane_iff {n j : Nat} (i : Nat) (hj : j < n) : (i + 1) % n = j ↔ i % n = (j + n - 1) % n := by
  have hpred : j + n - 1 + 1 = j + n := by omega
  calc (i + 1) % n = j ↔ i + 1 ≡ j + n - 1 + 1 [MOD n] := by
        rw [hpred, Nat.ModEq, Nat.add_mod_right, Nat.mod_eq_of_lt hj]
    _ ↔ i ≡ j + n - 1 [MOD n] := ⟨Nat.ModEq.add_right_cancel' 1, Nat.ModEq.add_right 1⟩

/-- Settles O9, by induction on the byte number. -/
theorem routeClosedForm : Obligations.RouteClosedForm := by
  unfold Obligations.RouteClosedForm
  intro n i h1 h8
  obtain ⟨l, hlane, hl⟩ := laneOf_eq_succ_mod h1 h8 i
  exact ⟨l, hlane, hl, fun j hj => hl ▸ succ_mod_eq_lane_iff i hj⟩

end Sys2Proof.Machine
end

section
/-! PROOF SUPPORT. The byte sequences through a step that another step inverts, and the place of a method inside a pass,
read from the front. Both are of either filter family. -/

namespace Sys2Proof.Machine

/-! ### A filter and its inverse over a byte sequence -/

/-- A sequence with a result is its first byte's step, then the rest from where that step ends. -/
theorem runBytes_cons_some {f : ByteStep} {b : Byte} {rest out : List Byte} {p q : Datapath}
    (h : runBytes f (b :: rest) p = some (out, q)) :
    ∃ r p' rs, f b p = some (r, p') ∧ runBytes f rest p' = some (rs, q) ∧ out = r :: rs := by
  simp only [runBytes] at h
  split at h
  next => cases h
  next r p' hb =>
    split at h
    next => cases h
    next rs q' hrest =>
      cases h
      exact ⟨r, p', rs, hb, hrest, rfl⟩

/-- The filter `g` takes what `f` gives on a lane back to the byte, and leaves the registers `f` leaves. -/
def Inverts (g f : Fin 8 → Byte → Datapath → Byte × Datapath) : Prop :=
  ∀ l b p, g l (f l b p).1 p = (b, (f l b p).2)

/-- A routed byte goes through the filter on the lane the router returns. -/
theorem routed_eq_some {f : Fin 8 → Byte → Datapath → Byte × Datapath} {n : Nat} {b r : Byte} {p p' : Datapath}
    (h : routed n f b p = some (r, p')) : ∃ l, route n p.d = some l ∧ f l b { p with d := l } = (r, p') := by
  unfold routed at h
  split at h
  next l hl => exact ⟨l, hl, Option.some.inj h⟩
  next => cases h

section
variable {f g : Fin 8 → Byte → Datapath → Byte × Datapath} (hgf : Inverts g f) {n : Nat}
include hgf

/-- A filter and its inverse are routed to the same lane, so a byte comes back through it. -/
theorem routed_of_inverts {b r : Byte} {p p' : Datapath} (h : routed n f b p = some (r, p')) :
    routed n g r p = some (b, p') := by
  obtain ⟨l, hl, hf⟩ := routed_eq_some h
  have hback := hgf l b { p with d := l }
  rw [hf] at hback
  rw [routed_eq g r hl, hback]

/-- A pass through the inverse takes the results back to the bytes, from the same registers to the same registers. -/
theorem runBytes_of_inverts {bs rs : List Byte} {p q : Datapath} (h : runBytes (routed n f) bs p = some (rs, q)) :
    runBytes (routed n g) rs p = some (bs, q) := by
  induction bs generalizing p rs with
  | nil =>
    cases h
    rfl
  | cons b rest ih =>
    obtain ⟨r, p', rs, hb, hrest, rfl⟩ := runBytes_cons_some h
    exact runBytes_cons (routed_of_inverts hgf hb) (ih hrest)

/-- Inside the router's contract the pass there and the pass back both have a result. -/
theorem roundTrip_of_inverts (hf : KeepsLane f ∧ KeepsWeight f) (bs : List Byte) (p : Datapath) (h1 : 1 ≤ n)
    (h8 : n ≤ 8) (hd : p.d.val < n) :
    ∃ rs q, runBytes (routed n f) bs p = some (rs, q) ∧ runBytes (routed n g) rs p = some (bs, q) := by
  obtain ⟨rs, q, hrun, -⟩ := runBytes_ok (routed_ok h1 hf.1 hf.2) bs p (Or.inr ⟨h8, hd⟩)
  exact ⟨rs, q, hrun, runBytes_of_inverts hgf hrun⟩

end

/-! ### One use of a method inside a pass -/

variable {s t : State} {idx : Fin 15} {fwd inv : ByteStep} {b r : Byte} {todo : List Byte} {p : Datapath}

theorem applyByte_some {f : ByteStep} (h : f b s.dp = some (r, p)) (k : Byte → Datapath → Result) :
    applyByte f b s k = k r p := by
  simp only [applyByte, h]

/-- In a scan unit: forward, and counted. -/
theorem useMethod_unit {block : List Byte} (hp : s.phase = .scan) (hs : s.stage = .unit block (b :: todo))
    (h : fwd b s.dp = some (r, p)) : useMethod idx fwd inv s =
      .next { s with dp := p, hist := histAcc idx r s.hist, stage := .unit block todo } := by
  simp only [useMethod, hp, hs, applyByte_some h]

/-- In the commit pass: forward. -/
theorem useMethod_commit {rdone : List Byte} (hp : s.phase = .commit) (hs : s.stage = .xform (b :: todo) rdone)
    (h : fwd b s.dp = some (r, p)) :
    useMethod idx fwd inv s = .next { s with dp := p, stage := .xform todo (r :: rdone) } := by
  simp only [useMethod, hp, hs, applyByte_some h]

/-- In the decode pass: inverse. -/
theorem useMethod_decBody {rdone : List Byte} (hp : s.phase = .decBody) (hs : s.stage = .xform (b :: todo) rdone)
    (h : inv b s.dp = some (r, p)) :
    useMethod idx fwd inv s = .next { s with dp := p, stage := .xform todo (r :: rdone) } := by
  simp only [useMethod, hp, hs, applyByte_some h]

/-- At a pace of one transition, one use of a method is the whole of its instruction. -/
theorem exec_one {i : Instr} (hi : i.format = .hdr) (h : useInstr i s = .next t) (ht : t.pace = .steps 0) :
    exec i s = .next t := by
  rw [exec_method hi, h, andThen_next, paced_still ht]

end Sys2Proof.Machine
end

section
/-! PROOFS. The identity and the delta filter: one byte, a byte and a pass back through the inverse, and a forward pass
as the difference of the input and its own past (spec 41_delta_filter.md R130 to R135, 46_candidate_methods.md R225). -/

namespace Sys2Proof.Machine

/-! ### The identity -/

/-- Settles O34: the place of a method inside a pass, with the step that passes the byte on. -/
theorem identityMethod : Obligations.IdentityMethod := by
  unfold Obligations.IdentityMethod
  intro s b todo hpace
  refine ⟨fun block hp hs => exec_one rfl (useMethod_unit hp hs rfl) hpace, ?_⟩
  rintro rdone (hp | hp) hs
  · exact exec_one rfl (useMethod_commit hp hs rfl) hpace
  · exact exec_one rfl (useMethod_decBody hp hs rfl) hpace

/-! ### One byte through the delta filter -/

/-- A difference of bytes is the integer difference modulo 256 (R131). -/
theorem byte_sub_toNat (x y : Byte) : ((x - y).toNat : Int) = ((x.toNat : Int) - y.toNat) % 256 := by
  have hy := y.isLt
  rw [BitVec.toNat_sub]
  omega

theorem set_lane_other {l l' : Fin 8} (h : l' ≠ l) (v : Vector Byte 8) (b : Byte) : (v.set l b)[l'] = v[l'] :=
  Vector.getElem_set_ne _ _ fun hl => h (Fin.ext hl.symm)

/-- Settles O10: the difference of bytes, and a write of `previous` on lane `l` only. -/
theorem deltaForwardStep : Obligations.DeltaForwardStep := by
  unfold Obligations.DeltaForwardStep
  intro l b p
  exact ⟨byte_sub_toNat _ _, Vector.getElem_set_self _, fun _ hl => set_lane_other hl _ _, rfl, rfl, rfl, rfl⟩

/-- Settles O11: as in the forward step, with the reconstructed byte written. -/
theorem deltaInverseStep : Obligations.DeltaInverseStep := by
  unfold Obligations.DeltaInverseStep
  intro l r p
  exact ⟨byte_sub_toNat _ _, Vector.getElem_set_self _, fun _ hl => set_lane_other hl _ _, rfl, rfl, rfl, rfl⟩

/-! ### The inverse -/

/-- The byte comes back because subtracting from `previous[l]` twice is the identity. -/
theorem deltaInv_inverts_deltaFwd : Inverts deltaInv deltaFwd := by
  intro l b p
  have hback : p.previous[l] - (p.previous[l] - b) = b := sub_sub_cancel _ _
  simp only [deltaInv, deltaFwd, hback]

/-- Settles O17: the step's inverse, carried over a routed pass. -/
theorem deltaInverse : Obligations.DeltaInverse := by
  unfold Obligations.DeltaInverse
  exact ⟨deltaInv_inverts_deltaFwd, fun _ => roundTrip_of_inverts deltaInv_inverts_deltaFwd deltaFwd_keeps⟩

/-! ### The lanes ahead -/

/-- The lane of byte number `i` from here on, when the counter stands at `d` (R121). -/
def laneAhead (n : Nat) (d : Fin 8) (i : Nat) : Fin 8 := Fin.ofNat 8 ((d.val + 1 + i) % n)

/-- The lanes of the next `n` bytes, in order. -/
def lanesAhead (n : Nat) (d : Fin 8) : List (Fin 8) := (List.range n).map (laneAhead n d)

theorem laneAhead_val {n : Nat} (h1 : 1 ≤ n) (h8 : n ≤ 8) (d : Fin 8) (i : Nat) :
    (laneAhead n d i).val = (d.val + 1 + i) % n :=
  Nat.mod_eq_of_lt (Nat.lt_of_lt_of_le (Nat.mod_lt _ h1) h8)

/-- The lane the router returns is the counter's successor modulo the channel count. -/
theorem route_val {n : Nat} {d l : Fin 8} (h : route n d = some l) : l.val = (d.val + 1) % n := by
  by_cases hc : 1 ≤ n ∧ n ≤ 8 ∧ d.val < n
  · obtain ⟨h1, h8, hd⟩ := hc
    obtain ⟨l', hl', hval⟩ := route_of_contract h1 h8 hd
    rw [h] at hl'
    cases hl'
    exact hval
  · rw [route_outside_contract hc] at h
    cases h

section
variable {n : Nat} {d l : Fin 8} (h : route n d = some l)
include h

/-- The next byte goes to the lane the router returns. -/
theorem laneAhead_zero : laneAhead n d 0 = l := by
  obtain ⟨-, h1, h8⟩ := route_lt h
  exact Fin.ext ((laneAhead_val h1 h8 d 0).trans (route_val h).symm)

/-- After the next byte, the bytes ahead have one number less. -/
theorem laneAhead_succ (i : Nat) : laneAhead n d (i + 1) = laneAhead n l i := by
  obtain ⟨-, h1, h8⟩ := route_lt h
  apply Fin.ext
  rw [laneAhead_val h1 h8, laneAhead_val h1 h8, route_val h, Nat.add_assoc _ 1 i, Nat.mod_add_mod, Nat.add_comm i]

/-- The lane of the next byte comes again after `n` bytes. -/
theorem laneAhead_period : laneAhead n d n = l := by
  rw [← laneAhead_zero h]
  simp [laneAhead]

/-- The lane of the next byte does not come again before that. -/
theorem laneAhead_ne {i : Nat} (hi : i + 1 < n) : laneAhead n d (i + 1) ≠ l := by
  obtain ⟨-, h1, h8⟩ := route_lt h
  intro heq
  have hmod : d.val + 1 + (i + 1) ≡ d.val + 1 + 0 [MOD n] := by
    rw [Nat.ModEq, ← laneAhead_val h1 h8, heq, Nat.add_zero, route_val h]
  have hzero : i + 1 = 0 := (Nat.ModEq.add_left_cancel' _ hmod).eq_of_lt_of_lt hi h1
  omega

/-- One byte moves its lane, which occurs once among the `n` ahead, from the front to the end. -/
theorem lanesAhead_shift : ∃ rest, lanesAhead n d = l :: rest ∧ lanesAhead n l = rest ++ [l] ∧ l ∉ rest := by
  obtain ⟨-, h1, -⟩ := route_lt h
  obtain ⟨m, rfl⟩ := Nat.exists_eq_add_one.mpr h1
  have hsucc : laneAhead (m + 1) l = fun i => laneAhead (m + 1) d (i + 1) :=
    funext fun i => (laneAhead_succ h i).symm
  refine ⟨(List.range m).map fun i => laneAhead (m + 1) d (i + 1), ?_, ?_, fun hl => ?_⟩
  · rw [lanesAhead, List.range_succ_eq_map, List.map_cons, List.map_map, laneAhead_zero h]
    rfl
  · rw [lanesAhead, hsucc, List.range_succ, List.map_append, List.map_singleton, laneAhead_period h]
  · obtain ⟨i, hi, heq⟩ := List.mem_map.mp hl
    exact laneAhead_ne h (Nat.succ_lt_succ (List.mem_range.mp hi)) heq

end

/-! ### A forward pass as a difference -/

/-- What the registers hold of the past: the bytes that the next `n` bytes are taken from, in the order of use. -/
def deltaHistory (n : Nat) (p : Datapath) : List Byte := (lanesAhead n p.d).map fun l => p.previous[l]

theorem deltaHistory_zero (n : Nat) : deltaHistory n Datapath.zero = List.replicate n 0 := by
  simp [deltaHistory, lanesAhead, Datapath.zero, Function.comp_def]

/-- One byte uses the first of the history and is itself the last of it from then on: a delay line of `n` bytes. -/
theorem deltaHistory_shift {n : Nat} {l : Fin 8} {p : Datapath} (h : route n p.d = some l) (b : Byte) :
    ∃ past, deltaHistory n p = p.previous[l] :: past ∧
      deltaHistory n (deltaFwd l b { p with d := l }).2 = past ++ [b] := by
  obtain ⟨rest, hnow, hthen, hfree⟩ := lanesAhead_shift h
  have hkept : rest.map (fun l' => (p.previous.set l b)[l']) = rest.map fun l' => p.previous[l'] :=
    List.map_congr_left fun l' hl' => set_lane_other (ne_of_mem_of_not_mem hl' hfree) _ _
  refine ⟨rest.map fun l' => p.previous[l'], by rw [deltaHistory, hnow, List.map_cons], ?_⟩
  rw [deltaHistory, deltaFwd_d, hthen, List.map_append, List.map_singleton]
  exact congrArg₂ (· ++ [·]) hkept (Vector.getElem_set_self _)

/-- The residuals of a forward pass are the bytes of the history and the input, `n` places back, minus the input. -/
theorem deltaFwd_pass {n : Nat} {data out : List Byte} {p q : Datapath}
    (h : runBytes (routed n deltaFwd) data p = some (out, q)) :
    out = List.zipWith (· - ·) (deltaHistory n p ++ data) data := by
  induction data generalizing p out with
  | nil =>
    cases h
    simp
  | cons b rest ih =>
    obtain ⟨r, p', rs, hb, hrest, rfl⟩ := runBytes_cons_some h
    obtain ⟨l, hl, hstep⟩ := routed_eq_some hb
    obtain ⟨past, hnow, hthen⟩ := deltaHistory_shift hl b
    rw [hstep] at hthen
    have hr : p.previous[l] - b = r := congrArg Prod.fst hstep
    rw [ih hrest, hnow, hthen, List.append_assoc, List.singleton_append, List.cons_append, List.zipWith_cons_cons, hr]

/-- From reset state, a residual is the byte `n` places back, or 0 before the first byte, minus the byte (R241). -/
theorem deltaFwd_pass_getD {n : Nat} {data out : List Byte} {q : Datapath}
    (h : runBytes (routed n deltaFwd) data Datapath.zero = some (out, q)) {i : Nat} (hi : i < data.length) :
    out.getD i 0 = (if i < n then 0 else data.getD (i - n) 0) - data.getD i 0 := by
  have hpast : (List.replicate n 0 ++ data).getD i 0 = if i < n then 0 else data.getD (i - n) 0 := by
    split
    next hlt => rw [List.getD_append _ _ _ _ (by simpa using hlt), List.getD_replicate _ hlt]
    next hge => rw [List.getD_append_right _ _ _ _ (by simpa using hge), List.length_replicate]
  have hi' : i < (List.replicate n 0 ++ data).length := by
    rw [List.length_append]
    exact Nat.lt_add_left _ hi
  rw [deltaFwd_pass h, deltaHistory_zero, ← hpast, List.getD_eq_getElem _ _ hi, List.getD_eq_getElem _ _ hi',
    List.getD_eq_getElem _ _ (by simpa using hi), List.getElem_zipWith]

theorem candAt_of_mem_deltaMethods : ∀ m ∈ deltaMethods, candAt m.2.1 = ⟨m.2.2, .delta⟩ := by decide

/-- The forward transform of a delta method is a pass through the delta filter with the method's channels (R199). -/
theorem xformFwd_delta {k : Fin 15} {n : Nat} (hk : candAt k = ⟨n, .delta⟩) (data : List Byte) :
    xformFwd k data = runBytes (routed n deltaFwd) data Datapath.zero := by
  simp only [xformFwd, xbyteFwd, hk]

/-- Settles O20: on the constant lane the byte `n` places back is on the lane too, so the difference is of equals. -/
theorem constantLaneGivesZeros : Obligations.ConstantLaneGivesZeros := by
  unfold Obligations.ConstantLaneGivesZeros
  intro m hm data out q j c _ hlane h i hi hij
  rw [xformFwd_delta (candAt_of_mem_deltaMethods m hm)] at h
  rw [deltaFwd_pass_getD h hi, hlane i hi hij]
  split
  next => rfl
  next hge =>
    have hback : (i - m.2.2) % m.2.2 = j := (Nat.mod_eq_sub_mod (Nat.not_lt.mp hge)).symm.trans hij
    rw [hlane (i - m.2.2) (by omega) hback, sub_self]

end Sys2Proof.Machine
end

section
/-! PROOFS. The adaptive filter: the effective weight, the update of the weight and its saturation, one byte in either
direction, a byte and a pass back through the inverse (spec 42_adaptive_filter.md R142 to R149). -/

namespace Sys2Proof.Machine

/-! ### The effective weight -/

theorem effectiveWeight_eq (p : Datapath) : effectiveWeight p = p.weight / 64 := rfl

/-- Settles O12: the shift is the quotient by 64, rounded down. -/
theorem effectiveWeight_floor : Obligations.EffectiveWeight := by
  unfold Obligations.EffectiveWeight
  intro p hlow hhigh
  rw [effectiveWeight_eq]
  omega

/-! ### The update of the weight -/

/-- On which side of the neutral residual 127 a residual lies: 1 below it, 0 on it, -1 above it. -/
def residualSide (e : Byte) : Int := Int.sign (127 - e.toNat)

theorem residualSide_below {e : Byte} (he : e.toNat < 127) : residualSide e = 1 :=
  Int.sign_eq_one_of_pos (by omega)

theorem residualSide_centre {e : Byte} (he : e.toNat = 127) : residualSide e = 0 := by
  rw [residualSide, he]
  rfl

theorem residualSide_above {e : Byte} (he : 127 < e.toNat) : residualSide e = -1 :=
  Int.sign_eq_neg_one_of_neg (by omega)

/-- `WUPD` is one step to the residual's side, clamped to the weight's range (R146, R147). -/
theorem wupd_eq_clamp (e : Byte) {w : Int} (hlow : -1280 ≤ w) (hhigh : w ≤ 1280) :
    wupd e w = max (-1280) (min (w + residualSide e) 1280) := by
  simp only [wupd, Config.centre, Config.wmax]
  rcases lt_trichotomy e.toNat 127 with he | he | he
  · rw [residualSide_below he]
    split_ifs <;> omega
  · rw [residualSide_centre he]
    split_ifs <;> omega
  · rw [residualSide_above he]
    split_ifs <;> omega

/-- Settles O15: the clamped step on each side of 127; the range is the filters' own law. -/
theorem weightUpdate : Obligations.WeightUpdate := by
  unfold Obligations.WeightUpdate
  intro e w hlow hhigh
  refine ⟨fun he => ?_, fun he => ?_, fun he => ?_, wupd_range e ⟨hlow, hhigh⟩⟩
  · rw [wupd_eq_clamp e hlow hhigh, residualSide_below he]
    omega
  · rw [wupd_eq_clamp e hlow hhigh, residualSide_centre he]
    omega
  · rw [wupd_eq_clamp e hlow hhigh, residualSide_above he]
    omega

/-- Residuals all on one side move the weight by their number, clamped once at the end: no later step turns
back from a bound. -/
theorem foldl_wupd_eq_clamp {δ : Int} (hδ : δ = 1 ∨ δ = -1) {es : List Byte} (hes : ∀ e ∈ es, residualSide e = δ)
    {w : Int} (hlow : -1280 ≤ w) (hhigh : w ≤ 1280) :
    es.foldl (fun w e => wupd e w) w = max (-1280) (min (w + δ * es.length) 1280) := by
  induction es generalizing w with
  | nil =>
    simp only [List.foldl_nil, List.length_nil]
    omega
  | cons e rest ih =>
    obtain ⟨he, hrest⟩ := List.forall_mem_cons.mp hes
    obtain ⟨hlow', hhigh'⟩ := wupd_range e ⟨hlow, hhigh⟩
    rw [List.foldl_cons, ih hrest hlow' hhigh', wupd_eq_clamp e hlow hhigh, he, List.length_cons]
    rcases hδ with rfl | rfl <;> omega

/-- Settles O16: from weight 0 the clamped sum is the number of residuals, up to the bound. -/
theorem weightSaturates : Obligations.WeightSaturates := by
  unfold Obligations.WeightSaturates
  intro es
  constructor
  · intro hes
    rw [foldl_wupd_eq_clamp (.inl rfl) (fun e he => residualSide_below (hes e he)) (by decide) (by decide)]
    omega
  · intro hes
    rw [foldl_wupd_eq_clamp (.inr rfl) (fun e he => residualSide_above (hes e he)) (by decide) (by decide)]
    omega

/-! ### One byte through the adaptive filter -/

/-- The byte of an integer is its residue modulo 256 (R8). -/
theorem byte_ofInt_toNat (x : Int) : ((Byte.ofInt x).toNat : Int) = x % 256 := by
  rw [BitVec.toNat_ofInt]
  omega

/-- A sum of bytes is the integer sum modulo 256. -/
theorem byte_add_toNat (x y : Byte) : ((x + y).toNat : Int) = ((x.toNat : Int) + y.toNat) % 256 := by
  rw [BitVec.toNat_add]
  omega

/-- The prediction continues the line through the two samples of the lane (R142). -/
theorem prediction_toNat (l : Fin 8) (p : Datapath) :
    ((prediction l p).toNat : Int) = (2 * (p.sample1[l].toNat : Int) - p.sample2[l].toNat) % 256 := by
  have htwo : (2 : Byte).toNat = 2 := rfl
  rw [prediction, byte_sub_toNat, BitVec.toNat_mul, htwo]
  omega

/-- What either direction gives for its byte `x`: the weighted prediction minus `x` (R144, R145). -/
theorem weighted_sub_toNat (l : Fin 8) (x : Byte) (p : Datapath) :
    ((Byte.ofInt (effectiveWeight p) + prediction l p - x).toNat : Int) =
      (p.weight / 64 + (2 * (p.sample1[l].toNat : Int) - p.sample2[l].toNat) % 256 - x.toNat) % 256 := by
  rw [byte_sub_toNat, byte_add_toNat, byte_ofInt_toNat, prediction_toNat, effectiveWeight_eq]
  omega

/-- The new first sample is the byte, moved by the weight from before the step (R144, R145, D16). -/
theorem adaptUpdate_sample1 (l : Fin 8) (e b : Byte) (p : Datapath) :
    ((adaptUpdate l e b p).sample1[l].toNat : Int) = (p.weight / 64 + b.toNat) % 256 := by
  have hwrite : (adaptUpdate l e b p).sample1[l] = Byte.ofInt (effectiveWeight p) + b := Vector.getElem_set_self _
  rw [hwrite, byte_add_toNat, byte_ofInt_toNat, effectiveWeight_eq]
  omega

theorem adaptUpdate_sample2 (l : Fin 8) (e b : Byte) (p : Datapath) :
    (adaptUpdate l e b p).sample2[l] = p.sample1[l] := Vector.getElem_set_self _

theorem adaptUpdate_other {l l' : Fin 8} (h : l' ≠ l) (e b : Byte) (p : Datapath) :
    (adaptUpdate l e b p).sample1[l'] = p.sample1[l'] ∧ (adaptUpdate l e b p).sample2[l'] = p.sample2[l'] :=
  ⟨set_lane_other h _ _, set_lane_other h _ _⟩

/-- Settles O13: the residual in integers, and the update of the weight and of the lane's samples. -/
theorem adaptiveForwardStep : Obligations.AdaptiveForwardStep := by
  unfold Obligations.AdaptiveForwardStep
  intro l b p
  exact ⟨weighted_sub_toNat l b p, adaptFwd_weight l b p, adaptUpdate_sample2 _ _ _ _, adaptUpdate_sample1 _ _ _ _,
    fun _ hl => adaptUpdate_other hl _ _ _, rfl, rfl⟩

/-- Settles O14: as in the forward step, with the reconstructed byte in the samples and the residual in the weight. -/
theorem adaptiveInverseStep : Obligations.AdaptiveInverseStep := by
  unfold Obligations.AdaptiveInverseStep
  intro l e p
  exact ⟨weighted_sub_toNat l e p, adaptInv_weight l e p, adaptUpdate_sample2 _ _ _ _, adaptUpdate_sample1 _ _ _ _,
    fun _ hl => adaptUpdate_other hl _ _ _, rfl, rfl⟩

/-! ### The inverse -/

/-- The byte comes back because subtracting from the weighted prediction twice is the identity; both directions then
make the same update, of the same residual and byte. -/
theorem adaptInv_inverts_adaptFwd : Inverts adaptInv adaptFwd := by
  intro l b p
  have hback : Byte.ofInt (effectiveWeight p) + prediction l p -
      (Byte.ofInt (effectiveWeight p) + prediction l p - b) = b := sub_sub_cancel _ _
  simp only [adaptInv, adaptFwd, hback]

/-- Settles O18: the step's inverse, carried over a routed pass. -/
theorem adaptiveInverse : Obligations.AdaptiveInverse := by
  unfold Obligations.AdaptiveInverse
  exact ⟨adaptInv_inverts_adaptFwd, fun _ => roundTrip_of_inverts adaptInv_inverts_adaptFwd adaptFwd_keeps⟩

end Sys2Proof.Machine
end

section
/-! PROOFS. The histogram store and the scan's samples: clearing and counting, the totals, the number of bytes a scan
reads (spec 43_entropy_estimator.md R160 to R162, 44_method_selector.md R180, R186). -/

namespace Sys2Proof.Machine

/-! ### The counters -/

theorem histAt_zero (k : Fin 15) (v : Byte) : histAt Hist.zero k v = 0 := by
  simp only [histAt, Hist.zero, Fin.getElem_fin, Vector.getElem_replicate]

/-- Settles O23: a cleared counter is 0, and a count moves the counter of its own candidate and symbol only. -/
theorem histogramCounts : Obligations.HistogramCounts := by
  unfold Obligations.HistogramCounts
  refine ⟨fun s => ⟨histAt_zero, Hist.zero, rfl⟩, fun k v h => ?_, fun k k' v v' h hne => ?_⟩
  · rw [histAt_acc, if_pos ⟨rfl, rfl⟩]
  · rw [histAt_acc, if_neg (not_and_or.mpr hne), Nat.add_zero]

/-- A counter is one of the summands of its histogram's total. -/
theorem histAt_le_histTotal (h : Hist) (k : Fin 15) (v : Byte) : histAt h k v ≤ histTotal h[k] :=
  List.le_sum_of_mem (Vector.mem_toList_iff.mpr (Vector.getElem_mem v.isLt))

/-! ### The number of bytes sampled -/

/-- What is left of the input behind a position is sampled as an input of its own: the next block, and what is left
behind the stride (R180, R186). -/
theorem sampledCount_block {len pos : Nat} (hpos : pos < len) :
    sampledCount (len - pos) =
      min Config.block (len - pos) + sampledCount (len - stride len (pos + min Config.block (len - pos))) := by
  simp only [sampledCount, stride, Config.block, Config.skip]
  split_ifs <;> omega

theorem scanFrom_sampled {fuel : Nat} {mem : Memory} {len pos : Nat} {p p' : Datapath} {h h' : Hist} {smp smp' : Nat}
    (hfuel : len - pos ≤ fuel) (hscan : scanFrom fuel mem len pos p h smp = some (p', h', smp')) :
    smp' = smp + sampledCount (len - pos) := by
  induction fuel generalizing pos p h smp with
  | zero =>
    cases hscan
    rw [Nat.le_zero.mp hfuel]
    rfl
  | succ fuel ih =>
    unfold scanFrom at hscan
    by_cases hm : min Config.block (len - pos) = 0
    · simp only [hm, if_true] at hscan
      cases hscan
      have hend : len - pos = 0 := by simpa using hm
      rw [hend]
      rfl
    · obtain ⟨p₁, h₁, hunits, -⟩ :=
        scanUnits_ok (List.finRange 15) (Memory.slice mem pos (min Config.block (len - pos))) p h
      simp only [hm, if_false, hunits] at hscan
      have hpos : pos < len := by omega
      have hahead : pos + min Config.block (len - pos) ≤ stride len (pos + min Config.block (len - pos)) := by
        unfold stride
        split <;> omega
      rw [ih (by omega) hscan, sampledCount_block hpos, Nat.add_assoc]

/-- Settles O27: the pass succeeds with equal totals and `sampled`, and `sampled` follows the block recursion. -/
theorem scanSamples : Obligations.ScanSamples := by
  unfold Obligations.ScanSamples
  intro mem len
  obtain ⟨p, h, smp, hscan, htotals⟩ := scanFrom_ok (len + 1) mem len 0 Datapath.zero Hist.zero 0
  have hsmp : smp = sampledCount len := by
    rw [scanFrom_sampled (by omega) hscan, Nat.zero_add, Nat.sub_zero]
  subst hsmp
  have htotal (k : Fin 15) : histTotal h[k] = sampledCount len := by
    have hk := htotals k
    rwa [histTotal_zero, Nat.zero_add, Nat.add_zero] at hk
  exact ⟨p, h, hscan, fun k => ⟨htotal k, fun v => htotal k ▸ histAt_le_histTotal h k v⟩⟩

end Sys2Proof.Machine
end

section
/-! PROOFS. The Shannon entropy: its terms, its range, and its order by the integer score (spec
43_entropy_estimator.md R163 to R166). -/

namespace Sys2Proof.Machine

/-! ### One counter's share of the entropy -/

/-- What a counter `c` adds to the entropy of a sample of `T` bytes, in natural units: a bit is `log 2` of them. -/
noncomputable def share (T c : Nat) : ℝ := Real.negMulLog ((c : ℝ) / T)

@[simp] theorem share_zero (T : Nat) : share T 0 = 0 := by simp [share]

@[simp] theorem share_empty : share 0 = fun _ => 0 := by simp [funext_iff, share]

theorem share_nonneg {T c : Nat} (h : c ≤ T) : 0 ≤ share T c :=
  Real.negMulLog_nonneg (by positivity) (div_le_one_of_le₀ (Nat.cast_le.mpr h) T.cast_nonneg)

/-- The share lies below the tangent at the uniform distribution over `n` symbols. -/
theorem share_le_tangent {n : Nat} (hn : n ≠ 0) (T c : Nat) :
    share T c ≤ (c : ℝ) / T * (Real.log n - 1) + 1 / n := by
  have hn' : (0 : ℝ) < n := by positivity
  have htangent := Real.negMulLog_le_one_sub_self (x := (c : ℝ) / T * n) (by positivity)
  rw [Real.negMulLog_mul, Real.negMulLog.eq_def n] at htangent
  have hscaled : n * share T c ≤ n * ((c : ℝ) / T * (Real.log n - 1) + 1 / n) := by
    rw [mul_add, mul_one_div_cancel hn'.ne', share]
    linarith
  exact le_of_mul_le_mul_left hscaled hn'

/-- The share and the counter's factor of the score (R166) make up its part of `log T`. -/
theorem share_add_log_factor {T : Nat} (hT : T ≠ 0) (c : Nat) :
    share T c + Real.log ((c ^ c : Nat) : ℝ) * (T : ℝ)⁻¹ = (c : ℝ) / T * Real.log T := by
  rcases eq_or_ne c 0 with rfl | hc
  · simp
  · rw [share, Real.negMulLog, Real.log_div (Nat.cast_ne_zero.mpr hc) (Nat.cast_ne_zero.mpr hT), Nat.cast_pow,
      Real.log_pow]
    ring

/-! ### The entropy as a sum of shares -/

@[simp] theorem entropy_empty (row : Vector Nat 256) : entropy row 0 = 0 := if_pos rfl

theorem sum_map_filter_ne_zero {M : Type} [AddMonoid M] {f : Nat → M} (hf : f 0 = 0) (l : List Nat) :
    ((l.filter (fun c => c != 0)).map f).sum = (l.map f).sum := by
  induction l with
  | nil => rfl
  | cons c rest ih =>
    rcases eq_or_ne c 0 with rfl | hc
    · simp [hf, ih]
    · simp [hc, ih]

theorem sum_nonzero_eq_histTotal (row : Vector Nat 256) :
    (row.toList.filter (fun c => c != 0)).sum = histTotal row := by
  have hsum := sum_map_filter_ne_zero (f := id) rfl row.toList
  rwa [List.map_id, List.map_id] at hsum

theorem entropy_eq_nonzero_shares (row : Vector Nat 256) (T : Nat) :
    entropy row T = ((row.toList.filter (fun c => c != 0)).map (share T)).sum / Real.log 2 := by
  rcases eq_or_ne T 0 with rfl | hT
  · simp
  · rw [entropy, if_neg hT, div_eq_mul_inv, ← List.sum_map_mul_right]
    simp only [share, Real.negMulLog, Real.logb, mul_assoc, div_eq_mul_inv]

theorem entropy_eq_shares (row : Vector Nat 256) (T : Nat) :
    entropy row T = (row.toList.map (share T)).sum / Real.log 2 := by
  rw [entropy_eq_nonzero_shares, sum_map_filter_ne_zero (share_zero T)]

/-- The counters' fractions of a sample that is not empty add up to 1. -/
theorem sum_fractions {row : Vector Nat 256} (hT : histTotal row ≠ 0) :
    (row.toList.map fun c : Nat => (c : ℝ) / histTotal row).sum = 1 := by
  simp only [div_eq_mul_inv]
  rw [List.sum_map_mul_right, ← Nat.cast_list_sum]
  exact mul_inv_cancel₀ (Nat.cast_ne_zero.mpr hT)

/-! ### The range -/

theorem entropy_nonneg (row : Vector Nat 256) : 0 ≤ entropy row (histTotal row) := by
  rw [entropy_eq_shares]
  refine div_nonneg (List.sum_nonneg ?_) (Real.log_nonneg one_le_two)
  intro x hx
  obtain ⟨c, hc, rfl⟩ := List.mem_map.mp hx
  exact share_nonneg (List.le_sum_of_mem hc)

/-- The shares are at most the values of the tangent, whose sum over the 256 symbols is `log 256`. -/
theorem sum_shares_le (row : Vector Nat 256) : (row.toList.map (share (histTotal row))).sum ≤ Real.log 256 := by
  rcases eq_or_ne (histTotal row) 0 with hT | hT
  · rw [hT, share_empty, List.map_const', List.sum_replicate, nsmul_zero]
    exact Real.log_nonneg (by norm_num)
  · calc (row.toList.map (share (histTotal row))).sum
        ≤ (row.toList.map fun c : Nat =>
            (c : ℝ) / histTotal row * (Real.log (256 : Nat) - 1) + 1 / (256 : Nat)).sum :=
          List.sum_le_sum fun c _ => share_le_tangent (by decide) (histTotal row) c
      _ = Real.log 256 := by
          rw [List.sum_map_add, List.sum_map_mul_right, sum_fractions hT, List.map_const', List.sum_replicate,
            Vector.length_toList, nsmul_eq_mul, mul_one_div_cancel (by norm_num), one_mul, sub_add_cancel,
            Nat.cast_ofNat]

theorem entropy_le_eight (row : Vector Nat 256) : entropy row (histTotal row) ≤ 8 := by
  have hbits : Real.log 256 = 8 * Real.log 2 := by
    rw [show (256 : ℝ) = 2 ^ 8 by norm_num, Real.log_pow]
    norm_num
  rw [entropy_eq_shares, div_le_iff₀ (Real.log_pos one_lt_two), ← hbits]
  exact sum_shares_le row

/-- `j` equal counters are the uniform distribution over `j` symbols. -/
theorem entropy_of_equal_counters {row : Vector Nat 256} {j c : Nat} (hj : 1 ≤ j) (hc : 1 ≤ c)
    (hrow : row.toList.filter (fun x => x != 0) = List.replicate j c) :
    entropy row (histTotal row) = Real.logb 2 j := by
  have hj' : (j : ℝ) ≠ 0 := by positivity
  have hc' : (c : ℝ) ≠ 0 := by positivity
  have htotal : histTotal row = j * c := by
    rw [← sum_nonzero_eq_histTotal, hrow, List.sum_replicate, smul_eq_mul]
  have hfraction : (c : ℝ) / (j * c : Nat) = (j : ℝ)⁻¹ := by
    push_cast
    field_simp
  have hshare : j * share (j * c) c = Real.log j := by
    rw [share, hfraction, Real.negMulLog, Real.log_inv]
    field_simp
  rw [entropy_eq_nonzero_shares, htotal, hrow, List.map_replicate, List.sum_replicate, nsmul_eq_mul, hshare,
    Real.logb]

/-- Settles O24: the shares are not negative and lie below a tangent; the uniform case and the multiset property are the
sum of shares over the non-zero counters. -/
theorem entropyRange : Obligations.EntropyRange := by
  unfold Obligations.EntropyRange
  refine ⟨fun row => ⟨entropy_nonneg row, entropy_le_eight row⟩, fun row j c => entropy_of_equal_counters, ?_⟩
  intro row row' hperm
  have htotal : histTotal row = histTotal row' := by
    rw [← sum_nonzero_eq_histTotal, ← sum_nonzero_eq_histTotal, hperm.sum_eq]
  rw [htotal, entropy_eq_nonzero_shares, entropy_eq_nonzero_shares, (hperm.map _).sum_eq]

/-! ### The order -/

theorem score_pos (row : Vector Nat 256) : 0 < score row := by
  refine List.prod_pos ?_
  intro x hx
  obtain ⟨c, -, rfl⟩ := List.mem_map.mp hx
  exact Nat.pow_self_pos

theorem log_score (row : Vector Nat 256) :
    Real.log (score row) = (row.toList.map fun c => Real.log ((c ^ c : Nat) : ℝ)).sum := by
  have hfactors : ∀ x ∈ row.toList.map (fun c => ((c ^ c : Nat) : ℝ)), x ≠ 0 := by
    intro x hx
    obtain ⟨c, -, rfl⟩ := List.mem_map.mp hx
    exact Nat.cast_ne_zero.mpr Nat.pow_self_pos.ne'
  have hcast : (score row : ℝ) = (row.toList.map fun c => ((c ^ c : Nat) : ℝ)).prod := by
    rw [score, Nat.cast_list_prod, List.map_map]
    rfl
  rw [hcast, Real.log_list_prod hfactors, List.map_map]
  rfl

/-- At a given total the score is all that the entropy depends on (R166). -/
theorem entropy_eq_score {row : Vector Nat 256} (hT : histTotal row ≠ 0) :
    entropy row (histTotal row) =
      (Real.log (histTotal row) - Real.log (score row) / histTotal row) / Real.log 2 := by
  have hsum : (row.toList.map (share (histTotal row))).sum + Real.log (score row) * (histTotal row : ℝ)⁻¹ =
      Real.log (histTotal row) := by
    rw [log_score, ← List.sum_map_mul_right, ← List.sum_map_add]
    simp only [share_add_log_factor hT]
    rw [List.sum_map_mul_right, sum_fractions hT, one_mul]
  rw [entropy_eq_shares, ← hsum, div_eq_mul_inv (Real.log (score row)), add_sub_cancel_right]

/-- An empty histogram scores 1, the empty product. -/
theorem score_eq_one_of_total_zero {row : Vector Nat 256} (hT : histTotal row = 0) : score row = 1 := by
  refine List.prod_eq_one ?_
  intro x hx
  obtain ⟨c, hc, rfl⟩ := List.mem_map.mp hx
  rw [List.sum_eq_zero_iff.mp hT c hc, pow_zero]

theorem entropy_lt_iff {a b : Vector Nat 256} (hab : histTotal a = histTotal b) :
    entropy a (histTotal a) < entropy b (histTotal b) ↔ score b < score a := by
  rcases eq_or_ne (histTotal a) 0 with hT | hT
  · rw [score_eq_one_of_total_zero hT, score_eq_one_of_total_zero (hab ▸ hT), ← hab, hT]
    simp only [entropy_empty, lt_self_iff_false]
  · have hpos : (0 : ℝ) < histTotal b := by exact_mod_cast Nat.pos_of_ne_zero (hab ▸ hT)
    rw [entropy_eq_score hT, entropy_eq_score (hab ▸ hT), hab, div_lt_div_iff_of_pos_right (Real.log_pos one_lt_two),
      sub_lt_sub_iff_left, div_lt_div_iff_of_pos_right hpos,
      Real.log_lt_log_iff (Nat.cast_pos.mpr (score_pos b)) (Nat.cast_pos.mpr (score_pos a)), Nat.cast_lt]

/-- Settles O25: the order by the score; the entropies are equal where neither is the smaller one. -/
theorem entropyOrder : Obligations.EntropyOrder := by
  unfold Obligations.EntropyOrder
  intro a b hab
  refine ⟨entropy_lt_iff hab, ?_⟩
  rw [le_antisymm_iff, ← not_lt, ← not_lt, entropy_lt_iff hab, entropy_lt_iff hab.symm, not_lt, not_lt,
    le_antisymm_iff, and_comm]

end Sys2Proof.Machine
end

section
/-! PROOFS. The order of a command's transitions: the method that a filter step uses, the entry of a pass, its block
loop, the end of a scan unit, the selection, and the end of every command (spec 44_method_selector.md R176 to R183,
45_transcoder.md R202 to R208, 70_reset_and_hazards.md R284). -/

namespace Sys2Proof.Machine

variable {s t : State}

/-! ### The method in use -/

/-- Where the engine fetches a method, the step of a free engine is that instruction. -/
theorem step_of_engineFetch {u : State} {i : Instr} (h : EngineFree s) (hb : busy s = true)
    (hf : engineFetch s = .run i u) : step s = exec i u := by
  rw [step_eq, fetch_free h hb, engineTurn, if_pos hb, hf]
  rfl

theorem engineFetch_of_methodInUse {b : Byte} {i : Instr} (hm : methodInUse s = some b) (hd : decode .hdr b = .ok i) :
    engineFetch s = .run i s := by
  simp only [engineFetch, hm, hd]

/-- Settles O7: a filter step is next, so the engine fetches the method that `cand` or `sel` names. -/
theorem stepRunsMethodInUse : Obligations.StepRunsMethodInUse := by
  unfold Obligations.StepRunsMethodInUse
  intro s i b todo hfree
  constructor
  · rintro hp ⟨block, hs⟩ hd
    have hm : methodInUse s = some (headerOf s.cand) := by simp only [methodInUse, hp, hs]
    exact step_of_engineFetch hfree (busy_of_inLoop (.inl hp)) (engineFetch_of_methodInUse hm hd)
  · rintro hp ⟨rdone, hs⟩ hd
    have hm : methodInUse s = some s.sel := by rcases hp with hp | hp <;> simp only [methodInUse, hp, hs]
    exact step_of_engineFetch hfree (busy_of_transfer hp) (engineFetch_of_methodInUse hm hd)

/-! ### The places of a pass -/

/-- Settles O28: by the engine's equation for the entry of each of the two passes. -/
theorem passEntry : Obligations.PassEntry := by
  unfold Obligations.PassEntry
  intro s hfree hpace hs
  refine ⟨fun hp => ?_, fun hp => ?_⟩
  · exact step_one hfree (busy_of_inLoop (.inl hp)) (engineStep_scan_entry hp hs) hpace
  · exact step_one hfree (busy_of_transfer (.inl hp)) (engineStep_commit_entry hp hs) hpace

theorem loopHead_of_lt (h : s.ipos < s.inLen) (atEnd : State) :
    loopHead s atEnd = .next { s with stage := .read 0 (blockLength s) [] } := by
  refine if_neg ?_
  simp only [blockLength, Config.block]
  omega

theorem loopHead_of_le (h : s.inLen ≤ s.ipos) (atEnd : State) : loopHead s atEnd = .next atEnd := by
  refine if_pos ?_
  rw [blockLength, Nat.sub_eq_zero_of_le h, Nat.min_zero]

/-- In every pass a transition at the loop head is the loop's decision; the passes differ in what follows the end. -/
theorem engineStep_loop (hp : inLoop s) (hs : s.stage = .loop) : ∃ atEnd, engineStep s = loopHead s atEnd := by
  rcases hp with hp | hp
  · exact ⟨_, engineStep_scan_loop hp hs⟩
  · exact ⟨_, engineStep_xfer_loop hp hs⟩

/-- Settles O29: the loop head goes on while a byte is left; at end of file the scan and the full passes end each in
their own way. -/
theorem blockLoop : Obligations.BlockLoop := by
  unfold Obligations.BlockLoop
  intro s hfree hpace hs hl
  have hb := busy_of_inLoop hl
  refine ⟨fun hlt => ?_, fun hle hp => ?_, fun hle hp => ?_⟩
  · obtain ⟨atEnd, he⟩ := engineStep_loop hl hs
    exact step_one hfree hb (he.trans (loopHead_of_lt hlt atEnd)) hpace
  · exact step_one hfree hb ((engineStep_scan_loop hp hs).trans (loopHead_of_le hle _)) hpace
  · exact step_one hfree hb ((engineStep_xfer_loop (hl.resolve_left hp) hs).trans (loopHead_of_le hle _)) hpace

theorem endUnit_next {c : Fin 15} (hc : c.val = s.cand.val + 1) (block : List Byte) :
    endUnit block s = { s with cand := c, dp := { s.dp with d := 0 }, stage := .unit block block } := by
  obtain ⟨c, hlt⟩ := c
  subst hc
  exact dif_pos hlt

theorem endUnit_last (hc : s.cand = 14) (block : List Byte) :
    endUnit block s = { s with ipos := stride s.inLen s.ipos, stage := .loop } := by
  refine dif_neg ?_
  rw [hc]
  decide

/-- Settles O31: the unit ends with the next candidate, or after candidate 14 with the stride. -/
theorem unitEnd : Obligations.UnitEnd := by
  unfold Obligations.UnitEnd
  intro s block hfree hpace hp hs
  have hb := busy_of_inLoop (.inl hp)
  have hend := engineStep_scan_unit_nil hp hs
  refine ⟨fun c hc => ?_, fun hc => ?_⟩
  · rw [endUnit_next hc] at hend
    exact step_one hfree hb hend hpace
  · rw [endUnit_last hc] at hend
    exact step_one hfree hb hend hpace

/-- Settles O32: by the engine's equation for `SELECT`. -/
theorem selectStep_writes_selection : Obligations.SelectStep := by
  unfold Obligations.SelectStep
  intro s hfree hpace hp
  have hb : busy s = true := by simp [busy, hp]
  exact step_one hfree hb (engineStep_select hp) hpace

/-! ### The end of a command -/

/-- With no access pending, steps of one transition each are a run of the engine. -/
theorem stepN_eq_engineRun (n : Nat) (hh : s.host = []) (hp : s.pace = .steps 0) : stepN n s = engineRun n s := by
  induction n generalizing s with
  | zero => rfl
  | succ n ih =>
    rw [stepN]
    cases hb : busy s with
    | false => rw [step_idle hh hb, andThen_next, ih hh hp, engineRun_rest _ hb, engineRun_rest _ hb]
    | true =>
      rw [step_free (.inl hh) hb, engineRun_succ n hb, andThen_assoc]
      cases he : engineStep s with
      | next u =>
        obtain ⟨-, -, -, hhost, -, hpace, -⟩ := engineMove_outside (engineMove_of_step hb he)
        have hpu := hpace.trans hp
        rw [andThen_next, andThen_next, paced_still hpu, andThen_next, ih (hhost.trans hh) hpu]
      | fault f => rfl
      | refused f => rfl

/-- Only the hardware reset leads to `IDLE` (R207). -/
theorem EngineMove.phase_ne_idle (h : EngineMove s t) : t.phase ≠ .idle := by
  have hloop {u : State} (hl : inLoop u) : u.phase ≠ .idle := by
    rcases hl with hp | hp | hp <;> simp [hp]
  cases h with
  | scanEntry hp | unitByte _ _ _ _ _ hp | unitsBegin _ _ _ hp | commitEntry hp | headerWrite hp | fwdByte _ _ _ _ _ _ hp
    | invByte _ _ _ _ _ _ hp => simp [hp]
  | unitEnd _ hp => unfold endUnit; split <;> simp [hp]
  | blockBegin hp | readMore _ _ _ hp => exact hloop hp
  | xformBegin _ _ _ hp | xformEnd _ hp | writeByte _ _ hp | writeEnd hp => exact hloop (.inr hp)
  | _ => nofun

/-- Outside `IDLE`, a run to rest from a state that meets the invariant ends in `DONE` or `ERROR`. -/
theorem paced_ends_command (h : Consistent s) (hp : s.pace = .toRest) (hidle : s.phase ≠ .idle) :
    ∃ t, paced s = .next t ∧ (t.phase = .done ∨ t.phase = .error) := by
  obtain ⟨t, ht, -⟩ := paced_progress h
  have hend : busy t = false := engineRun_ends (Nat.le_refl _) (paced_toRest hp ▸ ht)
  have hne : t.phase ≠ .idle := paced_induction (P := (·.phase ≠ .idle)) (fun _ _ _ hm => hm.phase_ne_idle) hidle ht
  exact ⟨t, ht, (busy_eq_false.mp hend).resolve_left hne⟩

/-- Settles O54: the invariant gives the engine a transition while it is busy, and the work bound falls with each. -/
theorem commandsTerminate : Obligations.CommandsTerminate := by
  unfold Obligations.CommandsTerminate
  intro s hc hh
  refine ⟨fun hp => ?_, fun hp hb => ?_, step_idle hh⟩
  · obtain ⟨t, ht, -⟩ := engineRun_progress (work s) hc
    exact ⟨work s, t, (stepN_eq_engineRun _ hh hp).trans ht, engineRun_ends (Nat.le_refl _) ht⟩
  · obtain ⟨u, hu⟩ := engine_progress hc hb
    have hm := engineMove_of_step hb hu
    rw [step_free (.inl hh) hb, hu, andThen_next]
    exact paced_ends_command (engineMove_consistent hc hm) ((engineMove_pace hm).trans hp) hm.phase_ne_idle

end Sys2Proof.Machine
end

section
/-! PROOFS. The selection: the least index of least entropy, and what it comes to for the shortest inputs (spec
44_method_selector.md R183, R184, R188). -/

namespace Sys2Proof.Machine

/-! ### The least index -/

/-- Over candidates in ascending order, every one before the selected one scores strictly less (R184). -/
theorem selectFrom_gt (h : Hist) (best : Fin 15) (ks : List (Fin 15)) (hks : (best :: ks).Pairwise (· < ·)) :
    ∀ j ∈ best :: ks, j < selectFrom h best (score h[best]) ks →
      score h[j] < score h[selectFrom h best (score h[best]) ks] := by
  induction ks generalizing best with
  | nil =>
    intro j hj hlt
    obtain rfl := List.mem_singleton.mp hj
    exact absurd hlt (lt_irrefl _)
  | cons k rest ih =>
    obtain ⟨hbest, hk, hrest⟩ : (∀ j ∈ k :: rest, best < j) ∧ (∀ j ∈ rest, k < j) ∧ rest.Pairwise (· < ·) := by
      simpa only [List.pairwise_cons] using hks
    unfold selectFrom
    split
    next hgt =>
      intro j hj hlt
      rcases List.mem_cons.mp hj with rfl | hj
      · exact hgt.trans_le (selectFrom_ge h k rest).1
      · exact ih k (List.pairwise_cons.mpr ⟨hk, hrest⟩) j hj hlt
    next hle =>
      have hih := ih best (List.pairwise_cons.mpr ⟨fun j hj => hbest j (List.mem_cons_of_mem k hj), hrest⟩)
      intro j hj hlt
      rcases List.mem_cons.mp hj with rfl | hj
      · exact hih j List.mem_cons_self hlt
      · rcases List.mem_cons.mp hj with rfl | hj
        · exact (not_lt.mp hle).trans_lt (hih best List.mem_cons_self ((hbest j List.mem_cons_self).trans hlt))
        · exact hih j (List.mem_cons_of_mem best hj) hlt

/-- `SELECT` looks at every candidate (R183). -/
theorem mem_candidates (j : Fin 15) : j ∈ (0 : Fin 15) :: [1, 2, 3, 4, 5, 6, 7, 8, 9, 10, 11, 12, 13, 14] := by
  revert j
  decide

theorem score_le_selectBest (h : Hist) (j : Fin 15) : score h[j] ≤ score h[selectBest h] := by
  obtain ⟨hbest, hrest⟩ := selectFrom_ge h 0 [1, 2, 3, 4, 5, 6, 7, 8, 9, 10, 11, 12, 13, 14]
  rcases List.mem_cons.mp (mem_candidates j) with rfl | hj
  · exact hbest
  · exact hrest j hj

theorem score_lt_selectBest {h : Hist} {j : Fin 15} (hj : j < selectBest h) : score h[j] < score h[selectBest h] :=
  selectFrom_gt h 0 [1, 2, 3, 4, 5, 6, 7, 8, 9, 10, 11, 12, 13, 14] (by decide) j (mem_candidates j) hj

/-- Settles O26: the selection has the greatest score, reached by no candidate before it, and at equal totals the entropy
falls as the score grows. -/
theorem selectsLeastEntropy : Obligations.SelectsLeastEntropy := by
  unfold Obligations.SelectsLeastEntropy
  intro h total htotal
  have horder (j k : Fin 15) : entropy h[j] total < entropy h[k] total ↔ score h[k] < score h[j] := by
    simpa only [htotal] using entropy_lt_iff ((htotal j).trans (htotal k).symm)
  refine ⟨fun j => ?_, fun j hj => ?_⟩
  · rw [← not_lt, horder, not_lt]
    exact score_le_selectBest h j
  · rw [horder]
    exact score_lt_selectBest hj

/-! ### The shortest inputs -/

/-- Of a total of at most 1 every counter is 0 or 1, and so is each factor 1. -/
theorem score_eq_one_of_total_le_one {row : Vector Nat 256} (hT : histTotal row ≤ 1) : score row = 1 := by
  refine List.prod_eq_one ?_
  intro x hx
  obtain ⟨c, hc, rfl⟩ := List.mem_map.mp hx
  have hle : c ≤ 1 := (List.le_sum_of_mem hc).trans hT
  interval_cases c <;> rfl

/-- Where no candidate beats the identity, the identity is selected. -/
theorem selectBest_eq_zero {h : Hist} (hT : ∀ k : Fin 15, histTotal h[k] ≤ 1) : selectBest h = 0 := by
  have hscore (k : Fin 15) : score h[k] = 1 := score_eq_one_of_total_le_one (hT k)
  by_contra hne
  have hlt := score_lt_selectBest (Fin.pos_iff_ne_zero.mpr hne)
  simp only [hscore, lt_irrefl] at hlt

theorem sampledCount_of_le_one {len : Nat} (h : len ≤ 1) : sampledCount len = len := by
  interval_cases len <;> rfl

/-- Settles O44: an input of at most one byte leaves every histogram with a score of 1, so `ENCODE` selects the identity,
which passes the input on. -/
theorem shortestInputs : Obligations.ShortestInputs := by
  unfold Obligations.ShortestInputs
  intro s hp hb hr hw hwf hlen
  obtain ⟨p, h, smp, out, q, hscan, hx, he, hout⟩ := encodeCompletes s hp hb hr hw
  obtain ⟨p', h', hscan', hcounts⟩ := scanSamples s.inMem s.inLen
  cases hscan.symm.trans hscan'
  have hsmp := sampledCount_of_le_one hlen
  have hsel : selectBest h = 0 := selectBest_eq_zero fun k => by rw [(hcounts k).1, hsmp]; exact hlen
  rw [hsel] at hx he hout
  cases (runBytes_plain (inputBytes s) Datapath.zero).symm.trans hx
  exact ⟨_, he, rfl, rfl, hsmp, hout hwf⟩

end Sys2Proof.Machine
end

section
/-! PROOFS. A command's result against what earlier commands left: two runs of the engine side by side, on states that
differ only in what the engine does not look at before it has written it (spec 44_method_selector.md R187,
70_reset_and_hazards.md R283). -/

namespace Sys2Proof.Machine

variable {s t : State}

/-! ### A move is the engine's transition -/

/-- The engine makes every move: the converse of `engineMove_of_step`. -/
theorem EngineMove.engineStep_eq (h : EngineMove s t) : engineStep s = .next t := by
  cases h with
  | scanEntry hp hs => exact engineStep_scan_entry hp hs
  | scanEnd hp hs h0 => exact (engineStep_scan_loop hp hs).trans (if_pos h0)
  | passEnd hp hs h0 => exact (engineStep_xfer_loop hp hs).trans (if_pos h0)
  | blockBegin hp hs h0 =>
    obtain ⟨atEnd, he⟩ := engineStep_loop hp hs
    exact he.trans (if_neg h0)
  | readFault j m rbuf hp hs ha hf =>
    obtain ⟨w, hw⟩ := engineStep_read hp hs
    exact hw.trans (readOne_fault m rbuf ha hf)
  | readMore j m rbuf hp hs ha hf hj =>
    obtain ⟨w, hw⟩ := engineStep_read hp hs
    exact hw.trans ((readOne_noFault m rbuf ha hf).trans (if_pos hj))
  | unitsBegin j m rbuf hp hs ha hf hj =>
    exact (engineStep_scan_read hp hs).trans ((readOne_noFault m rbuf ha hf).trans (if_neg hj))
  | xformBegin j m rbuf hp hs ha hf hj =>
    exact (engineStep_xfer_read hp hs).trans ((readOne_noFault m rbuf ha hf).trans (if_neg hj))
  | unitByte block todo b r p hp hs hx => exact (engineStep_scan_unit hp hs).trans (applyByte_some hx _)
  | unitEnd block hp hs => exact engineStep_scan_unit_nil hp hs
  | select hp => exact engineStep_select hp
  | commitEntry hp hs => exact engineStep_commit_entry hp hs
  | headerFault hp hs hf => exact (engineStep_commit_header hp hs).trans (memWrite_fault hf)
  | headerWrite hp hs hf => exact (engineStep_commit_header hp hs).trans (memWrite_ok hf)
  | fwdByte k todo rdone b r p hp hs hk hx => exact (engineStep_commit_xform hp hs hk).trans (applyByte_some hx _)
  | invByte k todo rdone b r p hp hs hk hx => exact (engineStep_decBody_xform hp hs hk).trans (applyByte_some hx _)
  | xformEnd rdone hp hs => exact engineStep_xfer_xform_nil hp hs
  | writeFault b todo hp hs hf => exact (engineStep_xfer_write hp hs).trans (memWrite_fault hf)
  | writeByte b todo hp hs hf => exact (engineStep_xfer_write hp hs).trans (memWrite_ok hf)
  | writeEnd hp hs => exact engineStep_xfer_write_nil hp hs
  | headerMissing hp h0 => exact (engineStep_decHdr hp).trans (if_pos h0)
  | headerReadFault hp h0 hf => rw [engineStep_decHdr hp, if_neg h0, if_pos hf]
  | badHeader hp h0 hf hh =>
    rw [engineStep_decHdr hp, if_neg h0, if_neg (Bool.eq_false_iff.mp hf)]
    exact if_neg (Nat.not_lt.mpr hh)
  | bodyBegin k hp h0 hf hk => exact engineStep_legalHeader hp h0 hf hk

/-! ### The background of a command -/

/-- What may differ between two machines that are given the same command: the registers and the bytes that earlier
commands left, and the host's side. -/
structure Background where
  dp : Datapath
  hist : Hist
  sampled : Nat
  cand : Fin 15
  inMem : Memory
  outMem : Memory
  host : List HostMove
  rdata : Nat
  pace : Pace
  free : Nat

def State.background (s : State) : Background where
  dp := s.dp
  hist := s.hist
  sampled := s.sampled
  cand := s.cand
  inMem := s.inMem
  outMem := s.outMem
  host := s.host
  rdata := s.rdata
  pace := s.pace
  free := s.free

/-- The machine at the same point of the command, on another background. -/
def State.withBackground (s : State) (b : Background) : State :=
  { s with
    dp := b.dp
    hist := b.hist
    sampled := b.sampled
    cand := b.cand
    inMem := b.inMem
    outMem := b.outMem
    host := b.host
    rdata := b.rdata
    pace := b.pace
    free := b.free }

/-- The background holds what the command has written or can still read, as the state does: the input, the result so
far, and each register from where the command sets it. `enc`: the command is `ENCODE`, the one that clears the
histograms. -/
structure Agrees (enc : Prop) (s : State) (b : Background) : Prop where
  input : ∀ a, a < s.inLen → Memory.read b.inMem a = Memory.read s.inMem a
  outWf : Memory.wf s.outMem = true ∧ Memory.wf b.outMem = true
  output : ∀ a, a < s.opos → Memory.read b.outMem a = Memory.read s.outMem a
  /-- A pass reset comes between these two stages and the next filter step. -/
  dp : s.stage ≠ .idle → s.stage ≠ .entry → b.dp = s.dp
  cand : ∀ block todo, s.stage = .unit block todo → b.cand = s.cand
  counts : enc → b.hist = s.hist ∧ b.sampled = s.sampled
  scanning : s.phase = .scan ∨ s.phase = .select → enc

section Moves

variable {enc : Prop} {b : Background}

theorem Agrees.dp_eq {g : Stage} (h : Agrees enc s b) (hs : s.stage = g) (hi : g ≠ .idle) (he : g ≠ .entry) :
    b.dp = s.dp := h.dp (hs ▸ hi) (hs ▸ he)

/-- An error ends the command: the input and the result stay, and no register will be read. -/
theorem Agrees.raised (h : Agrees enc s b) (e : ErrCode) (rd wr ip : Nat) (v : Byte) :
    Agrees enc (raise e { s with rdCount := rd, wrCount := wr, ipos := ip, sel := v }) b :=
  { h with dp := fun hi _ => absurd rfl hi, cand := nofun, scanning := nofun }

/-- A transition inside a pass that touches none of the registers of the background. -/
theorem Agrees.moved (h : Agrees enc s b) {g : Stage} (hs : s.stage = g) (hi : g ≠ .idle) (he : g ≠ .entry)
    (rd ip : Nat) {g' : Stage} (hg' : ∀ block todo, g' ≠ .unit block todo) :
    Agrees enc { s with rdCount := rd, ipos := ip, stage := g' } b :=
  { h with dp := fun _ _ => h.dp_eq hs hi he, cand := fun block todo hn => absurd hn (hg' block todo) }

/-- The byte just written is the same on both sides. -/
theorem Agrees.wrote (h : Agrees enc s b) {g : Stage} (hs : s.stage = g) (hi : g ≠ .idle) (he : g ≠ .entry)
    (v : Byte) {g' : Stage} (hg' : ∀ block todo, g' ≠ .unit block todo) :
    Agrees enc { afterWrite v s with stage := g' } { b with outMem := Memory.write b.outMem s.opos v } where
  input := h.input
  outWf := ⟨Memory.write_wf _ _ h.outWf.1, Memory.write_wf _ _ h.outWf.2⟩
  output a ha := by
    have ha' : a < s.opos + 1 := ha
    show Memory.read (Memory.write b.outMem s.opos v) a = Memory.read (Memory.write s.outMem s.opos v) a
    rw [Memory.read_write _ _ _ h.outWf.1, Memory.read_write _ _ _ h.outWf.2]
    split
    · rfl
    · exact h.output a (by omega)
  dp _ _ := h.dp_eq hs hi he
  cand block todo hn := absurd hn (hg' block todo)
  counts := h.counts
  scanning := h.scanning

/-- A unit ends alike on a background with the same candidate. -/
theorem Agrees.unitEnded {block : List Byte} (h : Agrees enc s b) (hs : s.stage = .unit block []) :
    ∃ b', endUnit block (s.withBackground b) = (endUnit block s).withBackground b' ∧
      Agrees enc (endUnit block s) b' := by
  have hdp : b.dp = s.dp := h.dp_eq hs nofun nofun
  have hc : b.cand = s.cand := h.cand _ _ hs
  by_cases hlt : s.cand.val + 1 < 15
  · refine ⟨{ b with cand := ⟨s.cand.val + 1, hlt⟩, dp := { b.dp with d := 0 } }, ?_, ?_⟩
    · rw [endUnit_next (s := s) (c := ⟨s.cand.val + 1, hlt⟩) rfl,
        endUnit_next (c := ⟨s.cand.val + 1, hlt⟩) (congrArg (·.val + 1) hc.symm)]
      rfl
    · rw [endUnit_next (c := ⟨s.cand.val + 1, hlt⟩) rfl]
      exact { h with dp := fun _ _ => by rw [hdp], cand := fun _ _ _ => rfl }
  · have hlast : s.cand = 14 := Fin.ext (by have := s.cand.isLt; show s.cand.val = 14; omega)
    refine ⟨b, ?_, ?_⟩
    · rw [endUnit_last hlast, endUnit_last (hc.trans hlast)]
      rfl
    · rw [endUnit_last hlast]
      exact h.moved hs nofun nofun _ _ nofun

/-- A transition on one background is the same transition on another that agrees, and they still agree after it. -/
theorem EngineMove.withBackground (hm : EngineMove s t) (h : Agrees enc s b) :
    ∃ b', EngineMove (s.withBackground b) (t.withBackground b') ∧ Agrees enc t b' := by
  cases hm with
  | scanEntry hp hs =>
    exact ⟨{ b with dp := Datapath.zero }, .scanEntry hp hs, { h with dp := fun _ _ => rfl, cand := nofun }⟩
  | scanEnd hp hs h0 =>
    exact ⟨b, .scanEnd hp hs h0,
      { h with dp := fun hi _ => absurd rfl hi, cand := nofun, scanning := fun _ => h.scanning (.inl hp) }⟩
  | passEnd hp hs h0 =>
    exact ⟨b, .passEnd hp hs h0, { h with dp := fun hi _ => absurd rfl hi, cand := nofun, scanning := nofun }⟩
  | blockBegin hp hs h0 => exact ⟨b, .blockBegin hp hs h0, h.moved hs nofun nofun _ _ nofun⟩
  | readFault j m rbuf hp hs ha hf => exact ⟨b, .readFault j m rbuf hp hs ha hf, h.raised _ _ _ _ _⟩
  | readMore j m rbuf hp hs ha hf hj =>
    have hmove := EngineMove.readMore (s := s.withBackground b) j m rbuf hp hs ha hf hj
    exact ⟨b, h.input _ ha ▸ hmove, h.moved hs nofun nofun _ _ nofun⟩
  | unitsBegin j m rbuf hp hs ha hf hj =>
    have hmove := EngineMove.unitsBegin (s := s.withBackground b) j m rbuf hp hs ha hf hj
    refine ⟨{ b with sampled := b.sampled + m, cand := 0, dp := { b.dp with d := 0 } }, h.input _ ha ▸ hmove, ?_⟩
    exact { h with
      dp := fun _ _ => by rw [h.dp_eq hs nofun nofun]; rfl
      cand := fun _ _ _ => rfl
      counts := fun he => ⟨(h.counts he).1, congrArg (· + m) (h.counts he).2⟩ }
  | xformBegin j m rbuf hp hs ha hf hj =>
    have hmove := EngineMove.xformBegin (s := s.withBackground b) j m rbuf hp hs ha hf hj
    exact ⟨b, h.input _ ha ▸ hmove, h.moved hs nofun nofun _ _ nofun⟩
  | unitByte block todo v r p hp hs hx =>
    have hc : b.cand = s.cand := h.cand _ _ hs
    rw [← hc, ← h.dp_eq hs nofun nofun] at hx
    refine ⟨{ b with dp := p, hist := histAcc b.cand r b.hist }, .unitByte block todo v r p hp hs hx, ?_⟩
    exact { h with
      dp := fun _ _ => rfl
      cand := fun _ _ _ => hc
      counts := fun he => ⟨by rw [hc, (h.counts he).1], (h.counts he).2⟩ }
  | unitEnd block hp hs =>
    obtain ⟨b', hend, ha⟩ := h.unitEnded hs
    exact ⟨b', hend ▸ .unitEnd block hp hs, ha⟩
  | select hp =>
    have hmove := EngineMove.select (s := s.withBackground b) hp
    have hhist : b.hist = s.hist := (h.counts (h.scanning (.inr hp))).1
    refine ⟨b, ?_, { h with dp := fun _ he => absurd rfl he, cand := nofun, scanning := nofun }⟩
    have hsel : selectStep (s.withBackground b) = (selectStep s).withBackground b := by
      simp only [selectStep, State.withBackground, hhist]
    exact hsel ▸ hmove
  | commitEntry hp hs =>
    exact ⟨{ b with dp := Datapath.zero }, .commitEntry hp hs, { h with dp := fun _ _ => rfl, cand := nofun }⟩
  | headerFault hp hs hf => exact ⟨b, .headerFault hp hs hf, h.raised _ _ _ _ _⟩
  | headerWrite hp hs hf =>
    exact ⟨{ b with outMem := Memory.write b.outMem s.opos s.sel }, .headerWrite hp hs hf,
      h.wrote hs nofun nofun _ nofun⟩
  | fwdByte k todo rdone v r p hp hs hk hx =>
    rw [← h.dp_eq hs nofun nofun] at hx
    exact ⟨{ b with dp := p }, .fwdByte k todo rdone v r p hp hs hk hx, { h with dp := fun _ _ => rfl, cand := nofun }⟩
  | invByte k todo rdone v r p hp hs hk hx =>
    rw [← h.dp_eq hs nofun nofun] at hx
    exact ⟨{ b with dp := p }, .invByte k todo rdone v r p hp hs hk hx, { h with dp := fun _ _ => rfl, cand := nofun }⟩
  | xformEnd rdone hp hs => exact ⟨b, .xformEnd rdone hp hs, h.moved hs nofun nofun _ _ nofun⟩
  | writeFault v todo hp hs hf => exact ⟨b, .writeFault v todo hp hs hf, h.raised _ _ _ _ _⟩
  | writeByte v todo hp hs hf =>
    exact ⟨{ b with outMem := Memory.write b.outMem s.opos v }, .writeByte v todo hp hs hf,
      h.wrote hs nofun nofun _ nofun⟩
  | writeEnd hp hs => exact ⟨b, .writeEnd hp hs, h.moved hs nofun nofun _ _ nofun⟩
  | headerMissing hp h0 => exact ⟨b, .headerMissing hp h0, h.raised _ _ _ _ _⟩
  | headerReadFault hp h0 hf => exact ⟨b, .headerReadFault hp h0 hf, h.raised _ _ _ _ _⟩
  | badHeader hp h0 hf hh =>
    have hread := h.input 0 (Nat.pos_of_ne_zero h0)
    have hmove := EngineMove.badHeader (s := s.withBackground b) hp h0 hf (hread.symm ▸ hh)
    exact ⟨b, hread ▸ hmove, h.raised _ _ _ _ _⟩
  | bodyBegin k hp h0 hf hk =>
    have hread := h.input 0 (Nat.pos_of_ne_zero h0)
    exact ⟨{ b with dp := Datapath.zero }, .bodyBegin k hp h0 hf (hread.trans hk),
      { h with dp := fun _ _ => rfl, cand := nofun, scanning := nofun }⟩

/-! ### Two runs side by side -/

theorem engineRun_withBackground (n : Nat) (h : Agrees enc s b) (hr : engineRun n s = .next t) :
    ∃ b', engineRun n (s.withBackground b) = .next (t.withBackground b') ∧ Agrees enc t b' := by
  induction n generalizing s b with
  | zero =>
    cases hr
    exact ⟨b, rfl, h⟩
  | succ n ih =>
    cases hb : busy s with
    | false =>
      rw [engineRun_rest _ hb] at hr
      cases hr
      exact ⟨b, engineRun_rest _ hb, h⟩
    | true =>
      rw [engineRun_succ _ hb] at hr
      obtain ⟨u, hu, hr⟩ := andThen_eq_next hr
      obtain ⟨b₁, hm, h₁⟩ := (engineMove_of_step hb hu).withBackground h
      rw [engineRun_step (s := s.withBackground b) n hb hm.engineStep_eq]
      exact ih h₁ hr

/-- Run to rest, two machines that agree end at the same point, however many transitions `work` allows each. -/
theorem paced_withBackground (h : Agrees enc s b) (hp : s.pace = .toRest) (hb : b.pace = .toRest)
    (hr : paced s = .next t) :
    ∃ b', paced (s.withBackground b) = .next (t.withBackground b') ∧ Agrees enc t b' := by
  rw [paced_toRest hp] at hr
  obtain ⟨b', hrun, ha⟩ := engineRun_withBackground _ h hr
  have hend : busy t = false := engineRun_ends (Nat.le_refl _) hr
  exact ⟨b', Reaches.paced ⟨_, hrun⟩ hend hb, ha⟩

end Moves

/-! ### A command on two backgrounds -/

/-- What the two machines of R187 have in common before the command. -/
structure SameTask (s s' : State) : Prop where
  plat : s.plat = s'.plat
  inLen : s.inLen = s'.inLen
  input : inputBytes s = inputBytes s'
  outWf : Memory.wf s.outMem = true ∧ Memory.wf s'.outMem = true

/-- What they have in common after it, but for the histograms. -/
structure SameResult (t t' : State) : Prop where
  phase : t.phase = t'.phase
  err : t.err = t'.err
  sel : t.sel = t'.sel
  opos : t.opos = t'.opos
  output : outputBytes t = outputBytes t'
  rdCount : t.rdCount = t'.rdCount
  wrCount : t.wrCount = t'.wrCount

variable {s' t' : State}

theorem Memory.read_eq_of_slice_eq {m m' : Memory} {n a : Nat} (h : Memory.slice m 0 n = Memory.slice m' 0 n)
    (ha : a < n) : Memory.read m a = Memory.read m' a := by
  have hget := congrArg (·[a]?) h
  simpa [List.getElem?_eq_getElem, ha] using hget

theorem SameTask.read_eq (h : SameTask s s') {a : Nat} (ha : a < s.inLen) :
    Memory.read s'.inMem a = Memory.read s.inMem a := by
  have hin : Memory.slice s.inMem 0 s.inLen = Memory.slice s'.inMem 0 s'.inLen := h.input
  rw [← h.inLen] at hin
  exact (Memory.read_eq_of_slice_eq hin ha).symm

/-- The two launches differ in the background only: every other field is set by the command, or common to the task. -/
theorem launchEncode_withBackground (h : SameTask s s') :
    launchEncode s' = (launchEncode s).withBackground (launchEncode s').background := by
  simp only [launchEncode, histClr, invocationReset, State.withBackground, State.background, h.plat, h.inLen]

theorem launchDecode_withBackground (h : SameTask s s') :
    launchDecode s' = (launchDecode s).withBackground (launchDecode s').background := by
  simp only [launchDecode, invocationReset, State.withBackground, State.background, h.plat, h.inLen]

theorem launchEncode_agrees (h : SameTask s s') : Agrees True (launchEncode s) (launchEncode s').background where
  input _ ha := h.read_eq ha
  outWf := h.outWf
  output _ ha := absurd ha (Nat.not_lt_zero _)
  dp _ he := absurd rfl he
  cand := nofun
  counts _ := ⟨rfl, rfl⟩
  scanning _ := trivial

theorem launchDecode_agrees (h : SameTask s s') : Agrees False (launchDecode s) (launchDecode s').background where
  input _ ha := h.read_eq ha
  outWf := h.outWf
  output _ ha := absurd ha (Nat.not_lt_zero _)
  dp hi _ := absurd rfl hi
  cand := nofun
  counts := nofun
  scanning := nofun

/-- A command accepted on two backgrounds and run to rest ends in the same result. -/
theorem command_sameResult {enc : Prop} {launch : State → State} (hb : busy s = false) (hb' : busy s' = false)
    (hl : launch s' = (launch s).withBackground (launch s').background)
    (ha : Agrees enc (launch s) (launch s').background) (hp : (launch s).pace = .toRest)
    (hp' : (launch s').pace = .toRest) (h : command launch s = .next t) (h' : command launch s' = .next t') :
    SameResult t t' ∧ (enc → t.sampled = t'.sampled ∧ t.hist = t'.hist) := by
  rw [command, hb] at h
  rw [command, hb'] at h'
  obtain ⟨b, hrun, hagrees⟩ := paced_withBackground ha hp hp' h
  rw [← hl] at hrun
  cases hrun.symm.trans h'
  have hout : outputBytes t = outputBytes (t.withBackground b) :=
    Memory.slice_congr fun a _ ha => (hagrees.output a (Nat.zero_add t.opos ▸ ha)).symm
  exact ⟨⟨rfl, rfl, rfl, rfl, hout, rfl, rfl⟩,
    fun he => ⟨(hagrees.counts he).2.symm, (hagrees.counts he).1.symm⟩⟩

/-- Settles O48: each of the two commands launches into states that differ in the background only, and the runs to rest
keep them so. -/
theorem resultIndependentOfHistory : Obligations.ResultIndependentOfHistory := by
  unfold Obligations.ResultIndependentOfHistory
  intro i s s' t t' hi hp hp' hb hb' hplat hlen hin hwf hwf' h h'
  have htask : SameTask s s' := ⟨hplat, hlen, hin, hwf, hwf'⟩
  cases i with
  | encode =>
    obtain ⟨⟨phase, err, sel, opos, output, rdCount, wrCount⟩, hcounts⟩ :=
      command_sameResult (launch := launchEncode) hb hb' (launchEncode_withBackground htask)
        (launchEncode_agrees htask) hp hp' h h'
    exact ⟨phase, err, sel, opos, output, rdCount, wrCount, fun _ => hcounts trivial⟩
  | decode =>
    obtain ⟨⟨phase, err, sel, opos, output, rdCount, wrCount⟩, -⟩ :=
      command_sameResult (launch := launchDecode) hb hb' (launchDecode_withBackground htask)
        (launchDecode_agrees htask) hp hp' h h'
    exact ⟨phase, err, sel, opos, output, rdCount, wrCount, nofun⟩
  | _ => cases hi

end Sys2Proof.Machine
end

section
/-! PROOFS. Every method as a bijection on byte sequences (spec 45_transcoder.md R199, R200, R206): each filter is the
inverse of its inverse too, so the pass back works in both orders. -/

namespace Sys2Proof.Machine

variable {k : Fin 15} {bs rs : List Byte} {q : Datapath}

/-! ### The filters in the other order -/

/-- The residual comes back because subtracting from `previous[l]` twice is the identity; both directions leave the
plain byte in `previous`. -/
theorem deltaFwd_inverts_deltaInv : Inverts deltaFwd deltaInv := by
  intro l r p
  have hback : p.previous[l] - (p.previous[l] - r) = r := sub_sub_cancel _ _
  simp only [deltaFwd, deltaInv, hback]

/-- As in the other order: the same subtraction twice, and the same update of the same residual and byte. -/
theorem adaptFwd_inverts_adaptInv : Inverts adaptFwd adaptInv := by
  intro l e p
  have hback : Byte.ofInt (effectiveWeight p) + prediction l p -
      (Byte.ofInt (effectiveWeight p) + prediction l p - e) = e := sub_sub_cancel _ _
  simp only [adaptFwd, adaptInv, hback]

/-! ### The transforms -/

/-- The two steps of a candidate pass the byte on, or are a filter and its inverse routed over the same lanes (R199,
R200). -/
theorem xbyte_cases (k : Fin 15) :
    (xbyteFwd k = plainStep ∧ xbyteInv k = plainStep) ∨
    ∃ n f g, xbyteFwd k = routed n f ∧ xbyteInv k = routed n g ∧ Inverts g f ∧ Inverts f g := by
  unfold xbyteFwd xbyteInv
  cases (candAt k).fam with
  | identity => exact .inl ⟨rfl, rfl⟩
  | delta => exact .inr ⟨_, _, _, rfl, rfl, deltaInv_inverts_deltaFwd, deltaFwd_inverts_deltaInv⟩
  | adaptive => exact .inr ⟨_, _, _, rfl, rfl, adaptInv_inverts_adaptFwd, adaptFwd_inverts_adaptInv⟩

theorem runBytes_plain_swap {p : Datapath} (h : runBytes plainStep bs p = some (rs, q)) :
    runBytes plainStep rs p = some (bs, q) := by
  cases (runBytes_plain bs p).symm.trans h
  exact h

/-- What the forward transform gives, the inverse takes back, and ends in the same registers (R206). -/
theorem xformInv_of_xformFwd (h : xformFwd k bs = some (rs, q)) : xformInv k rs = some (bs, q) := by
  unfold xformFwd at h
  unfold xformInv
  rcases xbyte_cases k with ⟨hfwd, hinv⟩ | ⟨n, f, g, hfwd, hinv, hgf, -⟩ <;> rw [hfwd] at h <;> rw [hinv]
  · exact runBytes_plain_swap h
  · exact runBytes_of_inverts hgf h

/-- What the inverse transform gives, the forward one takes back, and ends in the same registers (R206). -/
theorem xformFwd_of_xformInv (h : xformInv k bs = some (rs, q)) : xformFwd k rs = some (bs, q) := by
  unfold xformInv at h
  unfold xformFwd
  rcases xbyte_cases k with ⟨hfwd, hinv⟩ | ⟨n, f, g, hfwd, hinv, -, hfg⟩ <;> rw [hinv] at h <;> rw [hfwd]
  · exact runBytes_plain_swap h
  · exact runBytes_of_inverts hfg h

/-- Settles O21: both transforms have a result of the input's length, and each takes the other's back. -/
theorem transformRoundTrip : Obligations.TransformRoundTrip := by
  unfold Obligations.TransformRoundTrip
  intro k data
  constructor
  · obtain ⟨out, q, hx, hlen⟩ := xformFwd_ok k data
    exact ⟨out, q, hx, hlen, xformInv_of_xformFwd hx⟩
  · obtain ⟨out, q, hx, hlen⟩ := xformInv_ok k data
    exact ⟨out, q, hx, hlen, xformFwd_of_xformInv hx⟩

end Sys2Proof.Machine
end

section
/-! PROOFS. `DEC_HDR`: the header byte fetched as the method it names, the method it selects, the pass that follows, and
the errors (spec 45_transcoder.md R203, R204, 60_exceptions.md R248 to R253). -/

namespace Sys2Proof.Machine

variable {s t : State} {idx : Fin 15} {fwd inv : ByteStep} {i : Instr}

/-! ### The method of a header -/

/-- A legal header is fetched as the method it names, on the state with the read counted and the byte in `sel`. -/
theorem engineFetch_header (hp : s.phase = .decHdr) (hl : s.inLen ≠ 0) (hf : rdFault s.plat s.rdCount 0 = false)
    (hd : decode .hdr (Memory.read s.inMem 0) = .ok i) :
    engineFetch s = .run i { afterRead s with ipos := 1, sel := Memory.read s.inMem 0 } := by
  have hm : methodInUse s = none := by simp only [methodInUse, hp]
  simp only [engineFetch, hm, hp, if_true, fetchHeader, if_neg hl, hf, hd]
  rfl

/-- Settles O6: the engine fetches the method that the header names, and the step of a free engine runs it. -/
theorem stepRunsHeaderByte : Obligations.StepRunsHeaderByte := by
  unfold Obligations.StepRunsHeaderByte
  intro s i hfree hp hl hf hd
  have hb : busy s = true := by simp only [busy, hp]
  exact step_of_engineFetch hfree hb (engineFetch_header hp hl hf hd)

/-- In `DEC_HDR`: the method is selected, the pass reset, and the decode pass begins (R203). -/
theorem useMethod_decHdr (hp : s.phase = .decHdr) : useMethod idx fwd inv s =
    .next { passReset { s with sel := headerOf idx } with phase := .decBody, stage := .loop } := by
  simp only [useMethod, hp]

/-- Each of the 15 methods, as an instruction, is the use of some step with its index. -/
theorem use_of_mem_methods : ∀ m ∈ methods, m.1.format = .hdr ∧
    ∃ fwd inv, ∀ s, useInstr m.1 s = useMethod m.2 fwd inv s := by
  intro m hm
  obtain ⟨i, hd, hu⟩ := use_header m.2
  obtain rfl : m.1 = i := Except.ok.inj ((candidateTable.2 m hm).symm.trans hd)
  exact ⟨(encode_of_mem_methods m hm).1, _, _, hu⟩

/-- In `DEC_HDR` each of the 15 methods selects itself. -/
theorem useInstr_decHdr {m : Instr × Fin 15} (hm : m ∈ methods) (hp : s.phase = .decHdr) : useInstr m.1 s =
    .next { passReset { s with sel := headerOf m.2 } with phase := .decBody, stage := .loop } := by
  obtain ⟨-, fwd, inv, hu⟩ := use_of_mem_methods m hm
  rw [hu, useMethod_decHdr hp]

/-- Settles O37: at a pace of one transition the selection is the whole instruction. -/
theorem headerSelectsMethod : Obligations.HeaderSelectsMethod := by
  unfold Obligations.HeaderSelectsMethod
  intro m hm s hpace hp
  exact exec_one (use_of_mem_methods m hm).1 (useInstr_decHdr hm hp) hpace

/-- Settles O38: the selection, then the decode pass over the rest of the stream. -/
theorem headerMethodDecodesStream : Obligations.HeaderMethodDecodesStream := by
  unfold Obligations.HeaderMethodDecodesStream
  intro m hm s hpace hp hi hl hr hw
  rw [← hi] at hl hw ⊢
  obtain ⟨data, q, hx, -⟩ := xformInv_ok m.2 (Memory.slice s.inMem s.ipos (s.inLen - s.ipos))
  refine ⟨data, q, hx, ?_⟩
  have hbody := decodePass_reach (k := m.2)
    (s := { passReset { s with sel := headerOf m.2 } with phase := .decBody, stage := .loop }) rfl rfl rfl rfl hl hr hw hx
  rw [exec_method (use_of_mem_methods m hm).1, useInstr_decHdr hm hp, andThen_next]
  exact hbody.paced rfl hpace

/-! ### The errors -/

/-- A `DECODE` whose first transition ends the command is that transition. -/
theorem exec_decode_of_move (hp : s.pace = .toRest) (hb : busy s = false) (hm : EngineMove (launchDecode s) t)
    (ht : busy t = false) : exec .decode s = .next t :=
  command_reaches (launch := launchDecode) hb hp (Reaches.step rfl hm.engineStep_eq) ht

/-- Settles O43: each error is the first transition after the launch, and the last one. -/
theorem decodeHeaderErrors : Obligations.DecodeHeaderErrors := by
  unfold Obligations.DecodeHeaderErrors
  intro s hp hb
  refine ⟨fun h0 => ?_, fun h0 hf => ?_, fun h0 hf hh => ?_⟩
  · exact exec_decode_of_move hp hb (.headerMissing rfl h0) rfl
  · exact exec_decode_of_move hp hb (.headerReadFault rfl h0 hf) rfl
  · exact exec_decode_of_move hp hb (.badHeader rfl h0 hf hh) rfl

end Sys2Proof.Machine
end

section
/-! PROOFS. What a `CMD` write does first, and `ENCODE` undone by `DECODE` through the host's accesses (spec
45_transcoder.md R196, R206, 60_exceptions.md R247, 70_reset_and_hazards.md R281). -/

namespace Sys2Proof.Machine

variable {s t : State} {rest : List HostMove} {k : Fin 15} {bs data : List Byte} {q : Datapath}

/-! ### The launch -/

theorem command_accepted {launch : State → State} (hb : busy s = false) : command launch s = paced (launch s) := by
  rw [command, hb]
  rfl

theorem command_ignored {launch : State → State} (hb : busy s = true) : command launch s = paced s := if_pos hb

theorem writeUnknown_accepted (hb : busy s = false) : writeUnknown s = launchUnknown s := by
  rw [writeUnknown, hb]
  rfl

theorem writeUnknown_ignored (hb : busy s = true) : writeUnknown s = s := if_pos hb

theorem ofNat_ne_of_mod_ne {v n : Nat} (hn : n < 256) (h : v % 256 ≠ n) : BitVec.ofNat 8 v ≠ BitVec.ofNat 8 n := by
  intro heq
  have hmod : v % 256 = n % 256 := by simpa using congrArg BitVec.toNat heq
  exact h (hmod.trans (Nat.mod_eq_of_lt hn))

/-- A pending write of a reserved opcode to `CMD` runs no instruction (R97, R247). -/
theorem step_writeCmd_reserved {v : Nat} (hh : s.host = .write 0 v :: rest) (h1 : v % 256 ≠ 1) (h2 : v % 256 ≠ 2) :
    step s = paced (writeUnknown { s with host := rest }) := by
  rw [step_writeCmd hh, writeCmd,
    decode_command_reserved (ofNat_ne_of_mod_ne (by decide) h1) (ofNat_ne_of_mod_ne (by decide) h2)]
  rfl

/-- Settles O40: at a pace of one transition a command is its launch, or nothing while busy. -/
theorem commandLaunch : Obligations.CommandLaunch := by
  unfold Obligations.CommandLaunch
  intro s hp
  refine ⟨fun hb => ?_, fun hb => ?_, fun hb => ⟨?_, ?_⟩, fun v rest hh h1 h2 => ⟨fun hb => ?_, fun hb => ?_⟩⟩
  · exact (command_accepted hb).trans (paced_still hp)
  · exact (command_accepted hb).trans (paced_still hp)
  · exact (command_ignored hb).trans (paced_still hp)
  · exact (command_ignored hb).trans (paced_still hp)
  · rw [step_writeCmd_reserved hh h1 h2, writeUnknown_accepted (s := { s with host := rest }) hb]
    exact paced_still hp
  · rw [step_writeCmd_reserved hh h1 h2, writeUnknown_ignored (s := { s with host := rest }) hb]
    exact paced_still hp

/-! ### `ENCODE`, `IN <- OUT`, `DECODE` -/

/-- At rest, and nothing stands in the way of the host's accesses: commands run to rest, no access fails, any length
fits, and what is written is read back. -/
structure Unhindered (s : State) : Prop where
  pace : s.pace = .toRest
  resting : busy s = false
  reads : NoReadFault s.plat
  writes : ∀ n, NoWriteFault s.plat n
  posw : s.plat.posw = none
  inWf : Memory.wf s.inMem = true
  outWf : Memory.wf s.outMem = true

/-- `ENCODE` leaves in `OUT` a header and the transform of the input by the candidate it names (R201). -/
theorem Unhindered.encode_output (h : Unhindered s) (hh : s.host = .write 0 1 :: rest) :
    ∃ t k out q, step s = .next t ∧ Unhindered t ∧ t.host = rest ∧
      xformFwd k (inputBytes s) = some (out, q) ∧ outputBytes t = headerOf k :: out := by
  obtain ⟨p, hist, smp, out, q, -, hx, he, hback⟩ :=
    encodeCompletes { s with host := rest } h.pace h.resting h.reads (h.writes _)
  exact ⟨_, selectBest hist, out, q, (stepRunsCommandByte s 1 rest .encode hh rfl).trans he,
    { h with resting := rfl, outWf := Memory.writeAll_wf _ _ h.outWf }, rfl, hx, hback h.outWf⟩

/-- `IN <- OUT` makes the result the input (R112). -/
theorem Unhindered.copyOut_input (h : Unhindered s) (hh : s.host = .copyOut :: rest) :
    ∃ t, step s = .next t ∧ Unhindered t ∧ t.host = rest ∧ inputBytes t = outputBytes s := by
  have hfits : lengthFits s.plat s.opos = true := by simp only [lengthFits, h.posw]
  exact ⟨_, (step_copyOut_rest hh h.resting hfits).trans (paced_rest h.resting),
    { h with inWf := Memory.writeAll_wf _ _ h.inWf }, rfl,
    Memory.slice_writeAll_zero (Memory.slice_length _ _ _) h.inWf⟩

/-- A non-empty input as the decoder reads it: the header at position 0, the rest from position 1 on. -/
theorem inputBytes_eq_cons {b : Byte} (h : inputBytes s = b :: bs) :
    1 ≤ s.inLen ∧ Memory.read s.inMem 0 = b ∧ Memory.slice s.inMem 1 (s.inLen - 1) = bs := by
  unfold inputBytes at h
  cases hl : s.inLen with
  | zero =>
    rw [hl] at h
    cases h
  | succ n =>
    rw [hl, Memory.slice] at h
    obtain ⟨hhead, htail⟩ := List.cons.inj h
    exact ⟨Nat.succ_pos n, hhead, htail⟩

/-- `DECODE` of a header and a transformed stream leaves in `OUT` the inverse transform (R203). -/
theorem Unhindered.decode_output (h : Unhindered s) (hh : s.host = .write 0 2 :: rest)
    (hin : inputBytes s = headerOf k :: bs) (hx : xformInv k bs = some (data, q)) :
    ∃ t, step s = .next t ∧ t.phase = .done ∧ outputBytes t = data := by
  obtain ⟨hl, hread, rfl⟩ := inputBytes_eq_cons hin
  obtain ⟨data', q', hx', he, hback⟩ :=
    decodeCompletes { s with host := rest } k h.pace h.resting h.reads (h.writes _) hl hread
  cases hx.symm.trans hx'
  exact ⟨_, (stepRunsCommandByte s 2 rest .decode hh rfl).trans he, rfl, hback h.outWf⟩

/-- Settles O45: the three accesses in turn; the inverse transform takes the forward one of the same candidate back. -/
theorem encodeThenDecode : Obligations.EncodeThenDecode := by
  unfold Obligations.EncodeThenDecode
  intro s hh hp hb hr hw hposw hi ho
  have h : Unhindered s := ⟨hp, hb, hr, hw, hposw, hi, ho⟩
  obtain ⟨u, k, out, q, hu, hu', huh, hx, hout⟩ := h.encode_output hh
  obtain ⟨v, hv, hv', hvh, hin⟩ := hu'.copyOut_input huh
  obtain ⟨t, ht, hdone, hdata⟩ := hv'.decode_output hvh (hin.trans hout) (xformInv_of_xformFwd hx)
  exact ⟨t, by simp only [stepN, hu, hv, ht, andThen_next], hdone, hdata⟩

end Sys2Proof.Machine
end

section
/-! PROOFS. The changes of `phase` (spec 45_transcoder.md R207): the engine's, a `CMD` write's, and that no other access
of the host makes any but the hardware reset. -/

namespace Sys2Proof.Machine

variable {s t : State}

/-- `phase` stays, or goes as the table of R207 says. -/
def PhaseGoes (p q : Phase) : Prop := q = p ∨ (p, q) ∈ phaseTable

/-! ### The engine -/

theorem inLoop_error_mem (h : inLoop s) : (s.phase, .error) ∈ phaseTable := by
  rcases h with hp | hp | hp <;> rw [hp] <;> decide

theorem inTransfer_done_mem (h : inTransfer s) : (s.phase, .done) ∈ phaseTable := by
  rcases h with hp | hp <;> rw [hp] <;> decide

/-- A transition of the engine: a pass ends, an error is raised, the header is read, or the phase stays. -/
theorem EngineMove.phaseGoes (h : EngineMove s t) : PhaseGoes s.phase t.phase := by
  cases h with
  | scanEnd hp | select hp | bodyBegin _ hp | headerMissing hp | headerReadFault hp | badHeader hp =>
    exact .inr (by simp [hp, phaseTable])
  | passEnd hp => exact .inr (inTransfer_done_mem hp)
  | readFault _ _ _ hp => exact .inr (inLoop_error_mem hp)
  | writeFault _ _ hp => exact .inr (inLoop_error_mem (.inr hp))
  | headerFault hp => exact .inr (inLoop_error_mem (.inr (.inl hp)))
  | unitEnd => unfold endUnit; split <;> exact .inl rfl
  | _ => exact .inl rfl

/-- A step in which the host makes no access, or polls `STATUS`. -/
theorem step_free_phaseGoes (h : EngineFree s) (hp : s.pace = .steps 0) (hn : step s = .next t) :
    PhaseGoes s.phase t.phase := by
  cases hb : busy s with
  | true => exact (step_one_next h hb hp hn).phaseGoes
  | false =>
    obtain ⟨host, rdata, hr⟩ := step_free_rest h hb
    cases hr.symm.trans hn
    exact .inl rfl

/-! ### A `CMD` write -/

/-- From a rest phase a `CMD` write can lead to the start of either command, and to `ERROR`. -/
theorem rest_launch_mem (hb : busy s = false) :
    (s.phase, .scan) ∈ phaseTable ∧ (s.phase, .decHdr) ∈ phaseTable ∧ (s.phase, .error) ∈ phaseTable := by
  rcases busy_eq_false.mp hb with hp | hp | hp <;> rw [hp] <;> decide

theorem eq_of_paced_still (h : paced s = .next t) (hp : s.pace = .steps 0) : t = s := by
  cases (paced_still hp).symm.trans h
  rfl

/-- A command launched or ignored, at a pace of one transition. -/
theorem command_phaseGoes {launch : State → State} (hp : s.pace = .steps 0) (hl : (launch s).pace = s.pace)
    (hm : busy s = false → (s.phase, (launch s).phase) ∈ phaseTable) (h : command launch s = .next t) :
    PhaseGoes s.phase t.phase := by
  rcases command_next h with ⟨-, h⟩ | ⟨hb, h⟩
  · rw [eq_of_paced_still h hp]
    exact .inl rfl
  · rw [eq_of_paced_still h (hl.trans hp)]
    exact .inr (hm hb)

theorem writeCmd_phaseGoes {v : Nat} (hp : s.pace = .steps 0) (h : (writeCmd v s).outcome = .next t) :
    PhaseGoes s.phase t.phase := by
  unfold writeCmd at h
  split at h
  next i hd =>
    have hf := decode_format hd
    cases i with
    | encode => exact command_phaseGoes (launch := launchEncode) hp rfl (fun hb => (rest_launch_mem hb).1) h
    | decode => exact command_phaseGoes (launch := launchDecode) hp rfl (fun hb => (rest_launch_mem hb).2.1) h
    | _ => cases hf
  next =>
    cases hb : busy s with
    | true =>
      rw [Fetched.outcome, writeUnknown_ignored hb] at h
      rw [eq_of_paced_still h hp]
      exact .inl rfl
    | false =>
      rw [Fetched.outcome, writeUnknown_accepted hb] at h
      rw [eq_of_paced_still h hp]
      exact .inr (rest_launch_mem hb).2.2

/-! ### The other accesses -/

theorem writeInLen_next {n : Nat} (h : writeInLen n s = .next t) : ∃ len, t = { s with inLen := len } := by
  unfold writeInLen at h
  split at h
  · cases h
    exact ⟨s.inLen, rfl⟩
  · split at h
    · cases h
      exact ⟨n, rfl⟩
    · cases h

theorem writeReg_next {reg v : Nat} (h : writeReg reg v s = .next t) : ∃ len, t = { s with inLen := len } := by
  unfold writeReg at h
  split at h
  · exact writeInLen_next h
  · cases h
    exact ⟨s.inLen, rfl⟩

theorem fillIn_next {bs : List Byte} (h : fillIn bs s = .next t) : ∃ m, t = { s with inMem := m } := by
  unfold fillIn at h
  split at h
  · cases h
  · cases h
    exact ⟨_, rfl⟩

theorem copyOut_next (h : copyOut s = .next t) : ∃ len m, t = { s with inLen := len, inMem := m } := by
  unfold copyOut at h
  split at h
  · cases h
  · obtain ⟨u, hu, h⟩ := andThen_eq_next h
    obtain ⟨len, rfl⟩ := writeInLen_next hu
    cases h
    exact ⟨_, _, rfl⟩

theorem provideOut_next {size : Option Nat} (h : provideOut size s = .next t) : ∃ p, t = { s with plat := p } := by
  unfold provideOut at h
  split at h
  · cases h
  · cases h
    exact ⟨_, rfl⟩

theorem readOut_cases (a : Nat) (s : State) : ∃ v f, readOut a s = { s with rdata := v, free := f } := by
  unfold readOut
  split <;> exact ⟨_, _, rfl⟩

/-- Where an access goes through with the phase and the pace as they were, so is the step's phase. -/
theorem phase_of_access {r : Result} (hr : ∀ u, r = .next u → u.phase = s.phase ∧ u.pace = .steps 0)
    (h : Result.andThen r paced = .next t) : t.phase = s.phase := by
  obtain ⟨u, hu, h⟩ := andThen_eq_next h
  obtain ⟨hphase, hpace⟩ := hr u hu
  rw [eq_of_paced_still h hpace, hphase]

/-- Settles O53: the engine and a `CMD` write go by the table, the hardware reset leads to `IDLE`, and every other access
leaves the phase. -/
theorem phaseTransitions : Obligations.PhaseTransitions := by
  unfold Obligations.PhaseTransitions
  intro s t hp hpace h
  cases hh : s.host with
  | nil => exact (step_free_phaseGoes (.inl hh) hp h).imp_right .inl
  | cons move rest =>
    cases move with
    | wait => exact (step_free_phaseGoes (.inr ⟨rest, hh⟩) hp h).imp_right .inl
    | write reg v =>
      by_cases h0 : reg = 0
      · subst h0
        rw [step_writeCmd hh] at h
        exact (writeCmd_phaseGoes (s := { s with host := rest }) hp h).imp_right .inl
      · rw [step_write hh h0] at h
        refine .inl (phase_of_access (fun u hu => ?_) h)
        obtain ⟨len, rfl⟩ := writeReg_next hu
        exact ⟨rfl, hp⟩
    | read reg =>
      obtain ⟨v, f, hread⟩ := readHost_cases reg { s with host := rest }
      rw [step_read hh, hread] at h
      rw [eq_of_paced_still h hp]
      exact .inl rfl
    | readOut a =>
      obtain ⟨v, f, hread⟩ := readOut_cases a { s with host := rest }
      rw [step_readOut hh, hread] at h
      rw [eq_of_paced_still h hp]
      exact .inl rfl
    | fillIn bs =>
      rw [step_fillIn hh] at h
      refine .inl (phase_of_access (fun u hu => ?_) h)
      obtain ⟨m, rfl⟩ := fillIn_next hu
      exact ⟨rfl, hp⟩
    | copyOut =>
      rw [step_copyOut hh] at h
      refine .inl (phase_of_access (fun u hu => ?_) h)
      obtain ⟨len, m, rfl⟩ := copyOut_next hu
      exact ⟨rfl, hp⟩
    | provideOut size =>
      rw [step_provideOut hh] at h
      refine .inl (phase_of_access (fun u hu => ?_) h)
      obtain ⟨plat, rfl⟩ := provideOut_next hu
      exact ⟨rfl, hp⟩
    | hwReset =>
      rw [step_hwReset hh] at h
      rw [eq_of_paced_still h hp]
      exact .inr (.inr ⟨rfl, rest, rfl⟩)
    | setPace p => exact absurd hh (hpace p rest)

end Sys2Proof.Machine
end

section
/-! PROOFS. The 15 methods as instructions: the closed form of the delta methods over a full pass, the delta and the
adaptive methods in each place they are used, and the places where none is (spec 46_candidate_methods.md R226 to
R241). -/

namespace Sys2Proof.Machine

variable {s : State}

/-! ### The delta methods over a full pass -/

/-- The forward transform of a delta method, from the table's row of the method. -/
theorem xformFwd_getD_of_mem_deltaMethods {m : Instr × Fin 15 × Nat} (hm : m ∈ deltaMethods) {data out : List Byte}
    {q : Datapath} (h : xformFwd m.2.1 data = some (out, q)) {i : Nat} (hi : i < data.length) :
    out.getD i 0 = (if i < m.2.2 then 0 else data.getD (i - m.2.2) 0) - data.getD i 0 := by
  rw [xformFwd_delta (candAt_of_mem_deltaMethods m hm)] at h
  exact deltaFwd_pass_getD h hi

/-- Settles O19: forward it is the closed form of a delta pass; an inverse pass is taken back by a forward one, whose
closed form then gives the byte, because subtracting from the byte `n` places back twice is the identity. -/
theorem deltaClosedForm : Obligations.DeltaClosedForm := by
  unfold Obligations.DeltaClosedForm
  intro m hm data out q
  refine ⟨fun h _ => xformFwd_getD_of_mem_deltaMethods hm h, fun h i hi => ?_⟩
  have hi' : i < out.length := (runBytes_length h).symm ▸ hi
  rw [xformFwd_getD_of_mem_deltaMethods hm (xformFwd_of_xformInv h) hi', sub_sub_cancel]

/-! ### A method with a filter, in each place it is used -/

/-- Inside its contract the router returns the lane that is the counter's successor modulo the channel count (R120). -/
theorem route_eq_of_val {n : Nat} {d l : Fin 8} (h1 : 1 ≤ n) (h8 : n ≤ 8) (hd : d.val < n)
    (hl : l.val = (d.val + 1) % n) : route n d = some l := by
  obtain ⟨l', hroute, hl'⟩ := route_of_contract h1 h8 hd
  rw [hroute, Fin.ext (hl'.trans hl.symm)]

/-- Each of the 15 methods, as an instruction, is the table-driven use of its candidate (R199, R200). -/
theorem useInstr_of_mem_methods {m : Instr × Fin 15} (hm : m ∈ methods) (s : State) :
    useInstr m.1 s = useMethod m.2 (xbyteFwd m.2) (xbyteInv m.2) s := by
  obtain ⟨i, hd, hu⟩ := use_header m.2
  obtain rfl : m.1 = i := Except.ok.inj ((candidateTable.2 m hm).symm.trans hd)
  exact hu s

/-- At a pace of one transition, an instruction of the 15 methods is that use. -/
theorem exec_of_mem_methods {m : Instr × Fin 15} (hm : m ∈ methods) {s t : State}
    (h : useMethod m.2 (xbyteFwd m.2) (xbyteInv m.2) s = .next t) (ht : t.pace = .steps 0) : exec m.1 s = .next t :=
  exec_one (encode_of_mem_methods m hm).1 ((useInstr_of_mem_methods hm s).trans h) ht

/-- Row `m` of the methods (instruction, index, channel count) is the filter `f` forward and `g` inverse, routed over
its channels. -/
structure UsesFilter (m : Instr × Fin 15 × Nat) (f g : Fin 8 → Byte → Datapath → Byte × Datapath) : Prop where
  method : (m.1, m.2.1) ∈ methods
  fwd : xbyteFwd m.2.1 = routed m.2.2 f
  inv : xbyteInv m.2.1 = routed m.2.2 g
  channels : 1 ≤ m.2.2 ∧ m.2.2 ≤ 8

theorem usesFilter_of_mem_deltaMethods {m : Instr × Fin 15 × Nat} (hm : m ∈ deltaMethods) :
    UsesFilter m deltaFwd deltaInv := by
  have hk := candAt_of_mem_deltaMethods m hm
  have hmem : ∀ m ∈ deltaMethods, (m.1, m.2.1) ∈ methods ∧ 1 ≤ m.2.2 ∧ m.2.2 ≤ 8 := by decide
  obtain ⟨hmethod, hchannels⟩ := hmem m hm
  exact ⟨hmethod, by simp only [xbyteFwd, hk], by simp only [xbyteInv, hk], hchannels⟩

theorem usesFilter_of_mem_adaptiveMethods {m : Instr × Fin 15 × Nat} (hm : m ∈ adaptiveMethods) :
    UsesFilter m adaptFwd adaptInv := by
  have hmem : ∀ m ∈ adaptiveMethods,
      candAt m.2.1 = ⟨m.2.2, .adaptive⟩ ∧ (m.1, m.2.1) ∈ methods ∧ 1 ≤ m.2.2 ∧ m.2.2 ≤ 8 := by decide
  obtain ⟨hk, hmethod, hchannels⟩ := hmem m hm
  exact ⟨hmethod, by simp only [xbyteFwd, hk], by simp only [xbyteInv, hk], hchannels⟩

section
variable {m : Instr × Fin 15 × Nat} {f g : Fin 8 → Byte → Datapath → Byte × Datapath} (hm : UsesFilter m f g)
  {b r : Byte} {todo : List Byte} {l : Fin 8} {p : Datapath} (hd : s.dp.d.val < m.2.2)
  (hl : l.val = (s.dp.d.val + 1) % m.2.2)
include hm hd hl

/-- Forward, the byte goes through the filter on the counter's next lane, which is the new counter. -/
theorem UsesFilter.fwd_eq (hf : f l b { s.dp with d := l } = (r, p)) : xbyteFwd m.2.1 b s.dp = some (r, p) := by
  rw [hm.fwd, routed_eq f b (route_eq_of_val hm.channels.1 hm.channels.2 hd hl), hf]

/-- Inverse, it goes through the inverse filter on the same lane. -/
theorem UsesFilter.inv_eq (hg : g l b { s.dp with d := l } = (r, p)) : xbyteInv m.2.1 b s.dp = some (r, p) := by
  rw [hm.inv, routed_eq g b (route_eq_of_val hm.channels.1 hm.channels.2 hd hl), hg]

variable (hpace : s.pace = .steps 0)
include hpace

/-- In a scan unit: forward, and counted in the method's histogram. -/
theorem UsesFilter.exec_unit (hf : f l b { s.dp with d := l } = (r, p)) (block : List Byte) (hp : s.phase = .scan)
    (hs : s.stage = .unit block (b :: todo)) : exec m.1 s =
      .next { s with dp := p, hist := histAcc m.2.1 r s.hist, stage := .unit block todo } :=
  exec_of_mem_methods hm.method (useMethod_unit hp hs (hm.fwd_eq hd hl hf)) hpace

/-- In the commit pass: forward, and passed on. -/
theorem UsesFilter.exec_commit (hf : f l b { s.dp with d := l } = (r, p)) (rdone : List Byte) (hp : s.phase = .commit)
    (hs : s.stage = .xform (b :: todo) rdone) :
    exec m.1 s = .next { s with dp := p, stage := .xform todo (r :: rdone) } :=
  exec_of_mem_methods hm.method (useMethod_commit hp hs (hm.fwd_eq hd hl hf)) hpace

/-- In the decode pass: inverse, and passed on. -/
theorem UsesFilter.exec_decBody (hg : g l b { s.dp with d := l } = (r, p)) (rdone : List Byte)
    (hp : s.phase = .decBody) (hs : s.stage = .xform (b :: todo) rdone) :
    exec m.1 s = .next { s with dp := p, stage := .xform todo (r :: rdone) } :=
  exec_of_mem_methods hm.method (useMethod_decBody hp hs (hm.inv_eq hd hl hg)) hpace

end

/-- Settles O35: the three places of a method with a filter, with the delta filter's byte step written out. -/
theorem deltaMethods_inPlace : Obligations.DeltaMethods := by
  unfold Obligations.DeltaMethods
  intro m hm s b todo l hpace hd hl
  have hu := usesFilter_of_mem_deltaMethods hm
  exact ⟨hu.exec_unit hd hl hpace rfl, hu.exec_commit hd hl hpace rfl, hu.exec_decBody hd hl hpace rfl⟩

/-- Either direction of the adaptive filter gives the weighted prediction minus its byte `b`; forward that is the
residual and `b` the plain byte, inverse the other way round (R144, R145). -/
theorem adapt_eq {l : Fin 8} {b w r : Byte} {p : Datapath} (hw : w = BitVec.ofInt 8 (p.weight / 64))
    (hr : r = w + (2 * p.sample1[l] - p.sample2[l]) - b) :
    adaptFwd l b p = (r, { p with
      weight := wupd r p.weight, sample2 := p.sample2.set l p.sample1[l], sample1 := p.sample1.set l (w + b) }) ∧
    adaptInv l b p = (r, { p with
      weight := wupd b p.weight, sample2 := p.sample2.set l p.sample1[l], sample1 := p.sample1.set l (w + r) }) := by
  subst hw hr
  exact ⟨rfl, rfl⟩

/-- Settles O36: the three places of a method with a filter, with the adaptive filter's byte step written out. -/
theorem adaptiveMethods_inPlace : Obligations.AdaptiveMethods := by
  unfold Obligations.AdaptiveMethods
  intro m hm s b todo l w r hpace hd hl hw hr
  have hu := usesFilter_of_mem_adaptiveMethods hm
  obtain ⟨hfwd, hinv⟩ := adapt_eq (p := { s.dp with d := l }) hw hr
  exact ⟨hu.exec_unit hd hl hpace hfwd, hu.exec_commit hd hl hpace hfwd, hu.exec_decBody hd hl hpace hinv⟩

/-! ### Where no method is used -/

/-- A method is refused where no filter step is next and no header has been read. -/
theorem useMethod_refused {idx : Fin 15} {fwd inv : ByteStep} (hm : methodInUse s = none) (hp : s.phase ≠ .decHdr) :
    useMethod idx fwd inv s = .refused .methodNotInUse := by
  unfold useMethod
  split
  next hp' hs => simp only [methodInUse, hp', hs, reduceCtorEq] at hm
  next hp' hs => simp only [methodInUse, hp', hs, reduceCtorEq] at hm
  next hp' hs => simp only [methodInUse, hp', hs, reduceCtorEq] at hm
  next hp' => exact absurd hp' hp
  next => rfl

/-- Outside the scan and the full passes no filter step is next. -/
theorem methodInUse_rest (hp : s.phase = .idle ∨ s.phase = .select ∨ s.phase = .done ∨ s.phase = .error) :
    methodInUse s = none := by
  rcases hp with hp | hp | hp | hp <;> simp only [methodInUse, hp]

/-- In the scan a filter step is next in a unit with a byte to count only. -/
theorem methodInUse_scan (hp : s.phase = .scan) (hs : ∀ block b todo, s.stage ≠ .unit block (b :: todo)) :
    methodInUse s = none := by
  unfold methodInUse
  split
  next hs' => exact absurd hs' (hs _ _ _)
  next hp' _ => cases hp.symm.trans hp'
  next hp' _ => cases hp.symm.trans hp'
  next => rfl

/-- In a full pass a filter step is next in the transform loop with a byte to transform only. -/
theorem methodInUse_transfer (hp : s.phase = .commit ∨ s.phase = .decBody)
    (hs : ∀ b todo rdone, s.stage ≠ .xform (b :: todo) rdone) : methodInUse s = none := by
  unfold methodInUse
  split
  next hp' _ => simp [hp'] at hp
  next hs' => exact absurd hs' (hs _ _ _)
  next hs' => exact absurd hs' (hs _ _ _)
  next => rfl

/-- Settles O39: no filter step is next in any of these places, and none of them is `DEC_HDR`. -/
theorem methodElsewhereRefused : Obligations.MethodElsewhereRefused := by
  unfold Obligations.MethodElsewhereRefused
  intro m hm s hplace
  have hnone : methodInUse s = none ∧ s.phase ≠ .decHdr := by
    rcases hplace with hp | ⟨hp, hs⟩ | ⟨hp, hs⟩
    · exact ⟨methodInUse_rest hp, fun h => by simp [h] at hp⟩
    · exact ⟨methodInUse_scan hp hs, fun h => by simp [h] at hp⟩
    · exact ⟨methodInUse_transfer hp hs, fun h => by simp [h] at hp⟩
  obtain ⟨hmethod, hphase⟩ := hnone
  rw [exec_method (encode_of_mem_methods m hm).1, useInstr_of_mem_methods hm, useMethod_refused hmethod hphase,
    andThen_refused]

end Sys2Proof.Machine
end

section
/-! PROOFS. The hardware reset as an access of the host (spec 70_reset_and_hazards.md R280). -/

namespace Sys2Proof.Machine

variable {s : State} {rest : List HostMove}

/-- In `IDLE` and without an error, both fields of `STATUS` are 0 (R42). -/
theorem statusByte_eq_zero (hp : s.phase = .idle) (he : s.err = .none) : statusByte s = 0 := by
  rw [statusByte, hp, he]
  rfl

/-- The reset leaves the engine at rest, whatever it was doing. -/
@[simp] theorem busy_hwReset (s : State) : busy (hwReset s) = false :=
  busy_eq_false.mpr (.inl (hwReset_phase s))

/-- So the engine does not run on after the reset, and the step is the reset, at every pace. -/
theorem step_hwReset_next (h : s.host = .hwReset :: rest) : step s = .next (hwReset { s with host := rest }) := by
  rw [step_hwReset h, paced_rest (busy_hwReset _)]

/-- Settles O56: the step is the reset alone, which writes the fields R280 gives, with `STATUS` from two of them, and keeps
the spaces and the host's side. -/
theorem hardwareReset : Obligations.HardwareReset := by
  unfold Obligations.HardwareReset
  intro s rest h
  refine ⟨_, step_hwReset_next h, hwReset_phase _, hwReset_err _, hwReset_sel _, hwReset_opos _, hwReset_sampled _,
    hwReset_inLen _, hwReset_inMem _, hwReset_outMem _, hwReset_plat _, hwReset_host _, hwReset_rdata _, hwReset_pace _, ?_⟩
  exact statusByte_eq_zero (hwReset_phase _) (hwReset_err _)

end Sys2Proof.Machine
end
